-- ==== Sys2Proof/Word.lean ====
section
/-! DEFINITION. Words: a byte is the unit of every store of the block (R12, R58); the size field, IN_W and IN_H are
16 bits wide (R25, R59); command codes, causes and pixel indices are 4 bits wide (R41, R51, R110). -/

namespace Sys2Proof

/-- A byte, 8 bits, unsigned (R12). -/
abbrev Byte := BitVec 8

/-- A 4-bit value: a command code, a cause, a pixel index or a packed colour channel. -/
abbrev Nibble := BitVec 4

/-- A 16-bit value: the size field of a chunk, IN_W, IN_H. -/
abbrev Half := BitVec 16

end Sys2Proof
end

