-- ==== Sys2Proof/Config.lean ====
section
/-! DEFINITION. Configuration: the fixed constants of R4 to R7 and the open parameters of R8. -/

namespace Sys2Proof
namespace Config

/-- Width of the picture in pixels (R4). -/
def width : Nat := 320

/-- Height of the picture in pixels (R4). -/
def height : Nat := 200

/-- Bytes of one packed palette, PALB (R5). -/
def packedBytes : Nat := 32

/-- Longest run of a keyframe token, KRUN_MAX (R6). -/
def keyRunMax : Nat := 127

/-- Longest literal of a keyframe token, KLIT_MAX (R6). -/
def keyLitMax : Nat := 127

/-- Shortest agreement that the delta encoder skips in mid-frame, DSKIP_MIN (R6). -/
def deltaSkipMin : Nat := 3

/-- Longest skip of a delta token, DSKIP_MAX (R6). -/
def deltaSkipMax : Nat := 127

/-- Shortest long run the delta encoder writes, DRUN_MIN (R6). -/
def deltaRunMin : Nat := 4

/-- Longest long run of a delta token, DRUN_MAX (R6). -/
def deltaRunMax : Nat := 255

/-- Longest literal of a delta token, DLIT_MAX (R6). -/
def deltaLitMax : Nat := 127

/-- Smallest size value that is the sentinel, SENT_MIN (R7). -/
def sentinelMin : Half := 0xFF00

/-- Smallest size of a chunk that holds a type byte, MIN_CHUNK (R7). -/
def minChunk : Half := 3

/-- The sentinel the encoder writes, SENT_EMIT (R7, decision D6 of the spec). -/
def sentinelEmit : Half := 0xFFFF

/-- Longest token in bytes: a literal of 127 bytes after its control byte (R97). -/
def maxTokenBytes : Nat := 128

end Config

/-- The frame size `N` with the bounds R4 requires of a model that takes it as an argument (log 5). -/
structure FrameSize where
  /-- `N`, the bytes of every frame store. -/
  bytes : Nat
  /-- `1 <= N`. -/
  pos : 1 ≤ bytes
  /-- `2*N + 36 < 0xFF00`, so that no chunk size reads as a sentinel (R238). -/
  small : 2 * bytes + 36 < 0xFF00
deriving DecidableEq, Repr

/-- The hardware's frame size, `N = W*H/2 = 32000` (R4). -/
def FrameSize.hardware : FrameSize := ⟨32000, by decide, by decide⟩

/-- What a chunk of size exactly 2 does: the open parameter `P_EMPTY_CHUNK` (R8, R225). -/
inductive EmptyChunk where
  /-- The default: `MalformedChunk`. -/
  | fault
  /-- Hand the previous frame out again. -/
  | repeatFrame
deriving DecidableEq, Repr

/-- The open parameters of R8, fixed when the block is built (R282), with the spec's defaults (log 4). -/
structure Params where
  /-- `N` (R4). -/
  frame : FrameSize := FrameSize.hardware
  /-- `DISP_INIT`: the display buffer after reset, its first `N` bytes; bytes not listed are 0, the default (R8). -/
  dispInit : List Byte := []
  /-- `PAL_DEC_INIT`: the decoder's palette after reset, default all 0 (R8). -/
  palDecInit : Vector Byte 32 := Vector.replicate 32 0
  /-- `P_EMPTY_CHUNK`, default `fault` (R8). -/
  emptyChunk : EmptyChunk := .fault
  /-- `ICAP`: capacity of the input stream store; `none` is unbounded (R8, R302). -/
  icap : Option Nat := none
  /-- `OCAP`: capacity of the output stream store; `none` is unbounded (R8, R302). -/
  ocap : Option Nat := none
deriving DecidableEq, Repr

end Sys2Proof
end

