-- ==== Sys2Proof/Syntax.lean ====
section
/-! DEFINITION. The instructions: one constructor per row of spec/opcode_table.json (R80 to R111): nine tokens, four
chunk-level records, seven commands and two ranges of reserved command codes. -/

namespace Sys2Proof

/-- The two token grammars; a mode set per chunk by bit 6 of the type byte (R87). -/
inductive Grammar where
  /-- Keyframe grammar, bit 6 set. -/
  | key
  /-- Delta grammar, bit 6 clear. -/
  | delta
deriving DecidableEq, Repr

/-- What a byte pattern is read as: the `format` of a row of spec/opcode_table.json (R100). -/
inductive Format where
  /-- A code on the CMD port (R110). -/
  | command
  /-- A size field and, for a chunk, its type byte (R80). -/
  | record
  /-- A token of a grammar (R87). -/
  | token (g : Grammar)
deriving DecidableEq, Repr

/-- The instructions of the block (R1). Tokens carry all their operand bytes; a chunk record carries its header, the
payload being the data it acts on (log 8). -/
inductive Instr where
  /-- `K.END` (R88): ends a keyframe's token stream. -/
  | kEnd
  /-- `K.LIT b0 ...` (R90). -/
  | kLit (data : List Byte)
  /-- `K.RUN0 v` (R91), reserved. -/
  | kRun0 (v : Byte)
  /-- `K.RUN cnt, v` (R89). -/
  | kRun (cnt : BitVec 7) (v : Byte)
  /-- `D.RUN0` (R93), reserved. -/
  | dRun0
  /-- `D.RUN cnt, v` (R92). -/
  | dRun (cnt : Byte) (v : Byte)
  /-- `D.SKIP cnt` (R96). -/
  | dSkip (cnt : BitVec 7)
  /-- `D.LIT0` (R95), reserved. -/
  | dLit0
  /-- `D.LIT b0 ...` (R94). -/
  | dLit (data : List Byte)
  /-- `END`: the sentinel (R83). -/
  | endStream (size : Half)
  /-- `CHUNK.SHORT`: a size field of 0, 1 or 2 (R82). -/
  | chunkShort (size : Half)
  /-- `CHUNK.KEY`: header of a keyframe chunk (R80, R84). -/
  | chunkKey (size : Half) (type : Byte)
  /-- `CHUNK.DELTA`: header of a delta chunk (R80, R84). -/
  | chunkDelta (size : Half) (type : Byte)
  /-- `RESET` (R110, R290). -/
  | reset
  /-- `ENC_FRAME` (R110, R210). -/
  | encFrame
  /-- `ENC_END` (R110, R219). -/
  | encEnd
  /-- `DEC_CHUNK` (R110, R221). -/
  | decChunk
  /-- `PAL_PACK` (R110, R128). -/
  | palPack
  /-- `PAL_UNPACK` (R110, R129). -/
  | palUnpack
  /-- `ABORT cause` (R110, R232). -/
  | abort (cause : Nibble)
  /-- Reserved command code 0 (R111). -/
  | cmdRsvd0
  /-- Reserved command codes 8 to 15, by their low three bits (R111). -/
  | cmdRsvd8 (low : BitVec 3)
deriving DecidableEq, Repr

end Sys2Proof
end

