-- ==== Sys2Proof/Decode.lean ====
section
/-! DEFINITION. The decoder of the three kinds of instruction (R80 to R111) and, after it, the encoder.
The decoder is total: no control byte, size value or command code is illegal as an encoding (R82, R101, R111), so the only
way to refuse is `missingByte`: the bytes given end before the instruction does. -/

namespace Sys2Proof

/-- Why a decoder answers no instruction. -/
inductive DecodeError where
  /-- The bytes end before the instruction is complete; the engine then raises `PayloadOverrun` for a token (R266) and
  `TruncatedStream` for a record (R263). Safe. -/
  | missingByte
deriving DecidableEq, Repr

/-- The answer of a decoder: the instruction and the bytes after it. -/
abbrev Decoded := Except DecodeError (Instr × List Byte)

/-- `LE16(v)`: low byte first (R13, R59). -/
def le16 (v : Half) : List Byte := [v.extractLsb' 0 8, v.extractLsb' 8 8]

/-- `UnLE16([lo, hi])` (R13, R98). -/
def unLE16 (lo hi : Byte) : Half := hi ++ lo

/-- Splits off the `n` data bytes of a literal, as `mk` of those bytes. -/
def decodeLiteral (mk : List Byte → Instr) (n : Nat) (rest : List Byte) : Decoded :=
  if rest.length < n then .error .missingByte else .ok (mk (rest.take n), rest.drop n)

/-- One token of the keyframe grammar (R88 to R91, R99). -/
def decodeKey (bytes : List Byte) : Decoded :=
  match bytes with
  | [] => .error .missingByte
  | c :: rest =>
    if c = 0x00 then .ok (.kEnd, rest)
    else if !c.getLsbD 7 then decodeLiteral .kLit c.toNat rest
    else
      match rest with
      | [] => .error .missingByte
      | v :: rest' => if c = 0x80 then .ok (.kRun0 v, rest') else .ok (.kRun (c.extractLsb' 0 7) v, rest')

/-- One token of the delta grammar (R92 to R96, R99). -/
def decodeDelta (bytes : List Byte) : Decoded :=
  match bytes with
  | [] => .error .missingByte
  | c :: rest =>
    if c = 0x00 then
      match rest with
      | [] => .error .missingByte
      | cnt :: rest' =>
        if cnt = 0x00 then .ok (.dRun0, rest')
        else
          match rest' with
          | [] => .error .missingByte
          | v :: rest'' => .ok (.dRun cnt v, rest'')
    else if c = 0x80 then .ok (.dLit0, rest)
    else if c.getLsbD 7 then decodeLiteral .dLit (c.extractLsb' 0 7).toNat rest
    else .ok (.dSkip (c.extractLsb' 0 7), rest)

/-- The header of a chunk-level record: the size field and, for a chunk, the type byte (R80, R82, R86). -/
def decodeRecord (bytes : List Byte) : Decoded :=
  match bytes with
  | lo :: hi :: rest =>
    let size := unLE16 lo hi
    if Config.sentinelMin ≤ size then .ok (.endStream size, rest)
    else if size < Config.minChunk then .ok (.chunkShort size, rest)
    else
      match rest with
      | [] => .error .missingByte
      | type :: rest' => if type.getLsbD 6 then .ok (.chunkKey size type, rest') else .ok (.chunkDelta size type, rest')
  | _ => .error .missingByte

/-- The command with a 4-bit code and, for ABORT, a 4-bit operand (R110, R111). -/
def commandOf (code operand : Nibble) : Instr :=
  match code.toNat with
  | 0 => .cmdRsvd0
  | 1 => .reset
  | 2 => .encFrame
  | 3 => .encEnd
  | 4 => .decChunk
  | 5 => .palPack
  | 6 => .palUnpack
  | 7 => .abort operand
  | _ => .cmdRsvd8 (code.extractLsb' 0 3)

/-- What the host presents on the CMD port, as one byte: the code in bits 3..0, the operand in bits 7..4 (R43; log 7). -/
def commandByte (code operand : Nibble) : Byte := operand ++ code

/-- A command from the byte on the CMD port (R43, R110). -/
def decodeCommand (bytes : List Byte) : Decoded :=
  match bytes with
  | [] => .error .missingByte
  | b :: rest => .ok (commandOf (b.extractLsb' 0 4) (b.extractLsb' 4 4), rest)

/-- The decoder: one instruction of the format in force (R87, R100). -/
def decode (f : Format) (bytes : List Byte) : Decoded :=
  match f with
  | .command => decodeCommand bytes
  | .record => decodeRecord bytes
  | .token .key => decodeKey bytes
  | .token .delta => decodeDelta bytes

/-- The format of an instruction, the `format` entry of its row (R100). -/
def Instr.format (i : Instr) : Format :=
  match i with
  | .kEnd => .token .key
  | .kLit _ => .token .key
  | .kRun0 _ => .token .key
  | .kRun _ _ => .token .key
  | .dRun0 => .token .delta
  | .dRun _ _ => .token .delta
  | .dSkip _ => .token .delta
  | .dLit0 => .token .delta
  | .dLit _ => .token .delta
  | .endStream _ => .record
  | .chunkShort _ => .record
  | .chunkKey _ _ => .record
  | .chunkDelta _ _ => .record
  | .reset => .command
  | .encFrame => .command
  | .encEnd => .command
  | .decChunk => .command
  | .palPack => .command
  | .palUnpack => .command
  | .abort _ => .command
  | .cmdRsvd0 => .command
  | .cmdRsvd8 _ => .command

/-- A control byte with a mode bit in bit 7 over a 7-bit count (R98). -/
def controlByte (mode : BitVec 1) (cnt : BitVec 7) : Byte := mode ++ cnt

/-- The bytes that spell an instruction (R80, R88 to R96, R110, R111). -/
def Instr.encode (i : Instr) : List Byte :=
  match i with
  | .kEnd => [0x00]
  | .kLit data => controlByte 0 (BitVec.ofNat 7 data.length) :: data
  | .kRun0 v => [0x80, v]
  | .kRun cnt v => [controlByte 1 cnt, v]
  | .dRun0 => [0x00, 0x00]
  | .dRun cnt v => [0x00, cnt, v]
  | .dSkip cnt => [controlByte 0 cnt]
  | .dLit0 => [0x80]
  | .dLit data => controlByte 1 (BitVec.ofNat 7 data.length) :: data
  | .endStream size => le16 size
  | .chunkShort size => le16 size
  | .chunkKey size type => le16 size ++ [type]
  | .chunkDelta size type => le16 size ++ [type]
  | .reset => [commandByte 0x1 0]
  | .encFrame => [commandByte 0x2 0]
  | .encEnd => [commandByte 0x3 0]
  | .decChunk => [commandByte 0x4 0]
  | .palPack => [commandByte 0x5 0]
  | .palUnpack => [commandByte 0x6 0]
  | .abort cause => [commandByte 0x7 cause]
  | .cmdRsvd0 => [commandByte 0x0 0]
  | .cmdRsvd8 low => [commandByte ((1 : BitVec 1) ++ low) 0]

/-- Length of an instruction in bytes, tokens as R97 states them. -/
def Instr.byteLength (i : Instr) : Nat :=
  match i with
  | .kEnd => 1
  | .kLit data => 1 + data.length
  | .kRun0 _ => 2
  | .kRun _ _ => 2
  | .dRun0 => 2
  | .dRun _ _ => 3
  | .dSkip _ => 1
  | .dLit0 => 1
  | .dLit data => 1 + data.length
  | .endStream _ => 2
  | .chunkShort _ => 2
  | .chunkKey _ _ => 3
  | .chunkDelta _ _ => 3
  | .reset => 1
  | .encFrame => 1
  | .encEnd => 1
  | .decChunk => 1
  | .palPack => 1
  | .palUnpack => 1
  | .abort _ => 1
  | .cmdRsvd0 => 1
  | .cmdRsvd8 _ => 1

/-- The first `n` bytes of `w`, least significant first. -/
def bytesOfNat (n w : Nat) : List Byte :=
  match n with
  | 0 => []
  | n + 1 => BitVec.ofNat 8 w :: bytesOfNat n (w / 256)

/-- The format a word of spec/opcode_table.json is read in, from its width and value alone: the table's rows of 8 bits
overlap between formats, so a word of one byte whose high nibble is 0 is read as a command code and any other byte as a
keyframe token (log 6). -/
def tableFormat (nbits w : Nat) : Option Format :=
  if nbits ≤ 4 then some .command
  else if nbits ≤ 8 then (if w < 16 then some .command else some (.token .key))
  else if nbits ≤ 24 then some .record
  else none

/-- The bytes of a table word, followed by the zero bytes up to the longest instruction. -/
def tableBytes (nbits w : Nat) : List Byte := bytesOfNat ((nbits + 7) / 8) w ++ List.replicate Config.maxTokenBytes 0

/-- The instruction the decoder reads from a word of spec/opcode_table.json (log 6). -/
def decodeTableWord (nbits w : Nat) : Option Instr :=
  match tableFormat nbits w with
  | none => none
  | some f =>
    match decode f (tableBytes nbits w) with
    | .ok (i, _) => some i
    | .error _ => none

end Sys2Proof
end

