-- ==== Sys2Proof/Machine/Memory.lean ====
section
/-! DEFINITION. A byte-addressed store as plain data (R50, R58): a list of (offset, byte) cells in one canonical form,
offsets strictly rising and no cell equal to what an unlisted offset reads as. Every store of the block is one of these
(CUR, PREV, DISP, ISTREAM, OSTREAM), each its own address space. -/

namespace Sys2Proof.Machine

/-- A byte store: its cells, in canonical form (see `Memory.wf`). -/
abbrev Memory := List Host.Cell

/-- What an unlisted offset reads as: the reset contents of the frame stores, 0 (R48; log 11; for ISTREAM log 10). -/
def Memory.unlisted : Byte := 0

/-- One byte of a store. A read changes nothing (R63). -/
def Memory.read (m : Memory) (a : Nat) : Byte :=
  match m with
  | [] => Memory.unlisted
  | (x, y) :: t => if a = x then y else Memory.read t a

/-- Puts a cell in front, unless it equals what an unlisted offset reads as. -/
def Memory.consCell (a : Nat) (b : Byte) (t : Memory) : Memory :=
  if b = Memory.unlisted then t else (a, b) :: t

/-- The cells of a sequence of bytes from offset `a` on. -/
def Memory.cells (a : Nat) (bytes : List Byte) : Memory :=
  match bytes with
  | [] => []
  | b :: rest => Memory.consCell a b (Memory.cells (a + 1) rest)

/-- `MemWrite(S.a, n, bytes)`: replaces the cells of the offsets from `a` on by those of the bytes (R13). -/
def Memory.writeBytes (m : Memory) (a : Nat) (bytes : List Byte) : Memory :=
  m.filter (fun cell => decide (cell.1 < a)) ++ Memory.cells a bytes
    ++ m.filter (fun cell => decide (a + bytes.length ≤ cell.1))

/-- Writes one byte. -/
def Memory.write (m : Memory) (a : Nat) (b : Byte) : Memory := m.writeBytes a [b]

/-- `MemRead(S.a, n)`: the `n` bytes from offset `a` on (R13); the cells below `a` are passed over once. -/
def Memory.readBytes (m : Memory) (a n : Nat) : List Byte :=
  match n with
  | 0 => []
  | n + 1 =>
    let rest := m.dropWhile fun cell => decide (cell.1 < a)
    Memory.read rest a :: Memory.readBytes rest (a + 1) n

/-- The store that holds the given bytes from offset 0 on. -/
def Memory.ofBytes (bytes : List Byte) : Memory := Memory.writeBytes [] 0 bytes

/-- Cells above offset `lo` (if any is given) rise strictly and none equals what an unlisted offset reads as. -/
def Memory.wfAbove (lo : Option Nat) (m : Memory) : Bool :=
  match m with
  | [] => true
  | (x, y) :: t =>
    (match lo with
      | none => true
      | some l => decide (l < x)) && decide (y ≠ Memory.unlisted) && Memory.wfAbove (some x) t

/-- The canonical form of a store. -/
def Memory.wf (m : Memory) : Bool := Memory.wfAbove none m

/-- Every listed cell lies below offset `n` (for a frame store of `n` bytes, R53). -/
def Memory.within (m : Memory) (n : Nat) : Bool := m.all fun cell => decide (cell.1 < n)

end Sys2Proof.Machine
end

