-- ==== Sys2Proof/Machine/State.lean ====
section
/-! DEFINITION. The state of the block (R20 to R43), its value at reset (R48), the causes of a block fault (R260) and the
reasons for which a step of the model stops. -/

namespace Sys2Proof.Machine

/-- One colour of an unpacked palette, in the byte order of R57. -/
structure Colour where
  /-- Red, byte `4k` of an unpacked palette. -/
  r : Byte
  /-- Green, byte `4k+1`. -/
  g : Byte
  /-- Blue, byte `4k+2`. -/
  b : Byte
  /-- Alpha, byte `4k+3`. -/
  a : Byte
deriving DecidableEq, Repr

/-- A packed palette: 32 bytes, colour `k` in bytes `2k` and `2k+1` (R56). -/
abbrev PackedPalette := Vector Byte 32

/-- An unpacked palette: 16 colours (R57). -/
abbrev UnpackedPalette := Vector Colour 16

/-- A hand-out event (R39): the palette and the pixels of `DISP` at that moment. -/
structure FrameOut where
  /-- The unpacked palette handed out. -/
  palette : UnpackedPalette
  /-- The frame handed out, a copy of the display store. -/
  pixels : Memory
deriving DecidableEq, Repr

/-- The causes of a fault of the block (R260). -/
inductive Cause where
  | geometryMismatch
  | truncatedStream
  | malformedChunk
  | sourceReadFailure
  | sinkWriteFailure
  | payloadOverrun
  | frameOverrun
  | illegalCommand
deriving DecidableEq, Repr

/-- The working registers of a token decoder (R44), which exist only inside one command (log 1). -/
structure TokenRun where
  /-- The grammar in force. -/
  grammar : Grammar
  /-- Offset in ISTREAM of the first byte of the token stream `T`. -/
  base : Nat
  /-- `n = len(T)`. -/
  len : Nat
  /-- `tp`: offset in `T` of the next unread byte. -/
  tp : Nat
  /-- `op`: output position in DISP. -/
  op : Nat
  /-- The chunk's `size`, by which RP advances at the end. -/
  size : Nat
  /-- `K.END` has been executed. -/
  ended : Bool
deriving DecidableEq, Repr

/-- Where the engine stands inside the command it executes (R44; log 1). -/
inductive Work where
  /-- Between two commands. -/
  | idle
  /-- Inside DEC_CHUNK, about to read the record at RP. -/
  | record
  /-- Inside a chunk record, decoding its token stream. -/
  | tokens (c : TokenRun)
deriving DecidableEq, Repr

/-- One action of the host between two commands (R49, R300; log 2). -/
inductive HostAction where
  /-- Present a command code, and an operand for ABORT, on the CMD port (R43). -/
  | command (code operand : Nibble)
  /-- Write one byte of CUR (R22). -/
  | writeCur (offset : Nat) (b : Byte)
  /-- Write all of CUR with `PixPack` of a buffer of 8-bit indices (R55, R294). -/
  | loadPixels (indices : List Byte)
  /-- Write one byte of PAL_IN, laid out as R57 says. -/
  | writePalIn (offset : Nat) (b : Byte)
  /-- Write IN_W (R25). -/
  | writeInW (v : Half)
  /-- Write IN_H (R25). -/
  | writeInH (v : Half)
  /-- Write one byte of PAL_PK (R31). -/
  | writePalPk (offset : Nat) (b : Byte)
  /-- Write one byte of ISTREAM (R32). -/
  | writeIstream (offset : Nat) (b : Byte)
  /-- Set ILEN (R32). -/
  | writeIlen (n : Nat)
  /-- Write STATUS: ignored (R42). -/
  | writeStatus (b : Byte)
  /-- Write CAUSE_REG: a read-only register, ignored (R42). -/
  | writeCauseReg (b : Byte)
deriving DecidableEq, Repr

/-- Why a step of the model stops with a fault. A fault of the BLOCK is no such stop: it is a next state (R270). -/
inductive Fault where
  /-- Raised by a host write at an offset the store does not have (R50): CUR beyond `N`, PAL_IN beyond 64, PAL_PK beyond 32.
  Safe: the spec gives such a write no effect (log 14). -/
  | noSuchOffset
deriving DecidableEq, Repr

/-- Why the model refuses a step. -/
inductive Refusal where
  /-- Raised by `exec` for an instruction without a meaning; no instruction is left without one. Safe. -/
  | notModelled (mnemonic : String)
  /-- Raised by ENC_FRAME and ENC_END when a finite `OCAP` has no room (R302, U6), never with the default capacity. Safe
  (log 13). -/
  | ostreamCapacity
  /-- Raised by a host write of ISTREAM or ILEN beyond a finite `ICAP` (R302, U6). Safe (log 13). -/
  | istreamCapacity
  /-- Raised by a host load of pixel indices for which `PixPack` is undefined (R55, U9). Safe (log 15). -/
  | pixPackUndefined
  /-- Raised by `encodeStream` for a frame of other than `N` bytes (R53). Safe (log 24). -/
  | frameLength
  /-- Raised by a command other than RESET executed inside another command (R300, U5), which `step` never does. Safe (log 16). -/
  | insideCommand
  /-- Raised by a record or token executed where the engine reads none of its format, which `step` never does. Safe (log 17). -/
  | notAtFormat
deriving DecidableEq, Repr

/-- The state of the block (R20), with three fields of the model's own: `work`, `host` and `params`. -/
structure State where
  /-- `CUR` (R22). -/
  cur : Memory
  /-- `PREV` (R23). -/
  prev : Memory
  /-- `PAL_IN` (R24). -/
  palIn : UnpackedPalette
  /-- `IN_W` (R25). -/
  inW : Half
  /-- `IN_H` (R25). -/
  inH : Half
  /-- `PAL_ENC_LAST` (R26). -/
  palEncLast : PackedPalette
  /-- `PAL_ENC_VALID` (R27). -/
  palEncValid : Bool
  /-- `ENC_FIRST` (R28). -/
  encFirst : Bool
  /-- `ENC_ENDED` (R29). -/
  encEnded : Bool
  /-- `OSTREAM` (R30). -/
  ostream : Memory
  /-- `WP` (R30). -/
  wp : Nat
  /-- `PAL_PK` (R31). -/
  palPk : PackedPalette
  /-- `ISTREAM` (R32). -/
  istream : Memory
  /-- `ILEN` (R32). -/
  ilen : Nat
  /-- `DISP` (R33). -/
  disp : Memory
  /-- `PAL_DEC` (R34). -/
  palDec : PackedPalette
  /-- `PAL_OUT` (R35). -/
  palOut : UnpackedPalette
  /-- `RP` (R36). -/
  rp : Nat
  /-- `EOS` (R37). -/
  eos : Bool
  /-- `FRAMES_OUT` (R38). -/
  framesOut : Nat
  /-- `OUT` (R39). -/
  out : List FrameOut
  /-- `FAULT` (R41). -/
  fault : Bool
  /-- `CAUSE` (R41). -/
  cause : Nibble
  /-- The model's own: the working registers of the command in progress (R44; log 1). -/
  work : Work
  /-- The model's own: the host's actions not yet taken, oldest first (log 2). -/
  host : List HostAction
  /-- The model's own: the open parameters, which no step changes (R8, R282; log 4). -/
  params : Params
deriving DecidableEq, Repr

/-- An unpacked palette of zero bytes, the reset value of PAL_IN and PAL_OUT (R48). -/
def zeroColours : UnpackedPalette := Vector.replicate 16 ⟨0, 0, 0, 0⟩

/-- A packed palette of zero bytes, the reset value of PAL_ENC_LAST and PAL_PK (R48). -/
def zeroPacked : PackedPalette := Vector.replicate 32 0

/-- The table of R48 for a block built with parameters `p`, and the host's script `h` (log 18). -/
def State.resetWith (p : Params) (h : List HostAction) : State where
  cur := []
  prev := []
  palIn := zeroColours
  inW := 320
  inH := 200
  palEncLast := zeroPacked
  palEncValid := false
  encFirst := true
  encEnded := false
  ostream := []
  wp := 0
  palPk := zeroPacked
  istream := []
  ilen := 0
  disp := Memory.ofBytes (p.dispInit.take p.frame.bytes)
  palDec := p.palDecInit
  palOut := zeroColours
  rp := 0
  eos := false
  framesOut := 0
  out := []
  fault := false
  cause := 0
  work := .idle
  host := h
  params := p

/-- The machine right after reset, with the spec's default parameters (R48, R290; log 4). -/
def State.reset : State := State.resetWith {} []

end Sys2Proof.Machine
end

