-- ==== Sys2Proof/Machine/Ops.lean ====
section
/-! DEFINITION. The named operations: the cause codes and taking a fault (R260, R270), command dispatch (R269, R272),
RESET's effect, the palette functions (R121, R122, R125), the pixel functions at the boundary (R54, R55), appending to
OSTREAM (R215), handing out a frame (R229) and the host's accesses (R49). -/

namespace Sys2Proof.Machine

/-- The outcome of a step of this machine. -/
abbrev Result := Host.Outcome State Fault Refusal

/-! ### Taking a fault -/

/-- The 4-bit code of a cause (R260). -/
def Cause.code (c : Cause) : Nibble :=
  match c with
  | .geometryMismatch => 1
  | .truncatedStream => 2
  | .malformedChunk => 3
  | .sourceReadFailure => 4
  | .sinkWriteFailure => 5
  | .payloadOverrun => 6
  | .frameOverrun => 7
  | .illegalCommand => 8

/-- The state after `raise c`: FAULT and CAUSE are set, the command ends, nothing else is saved or changed (R15, R270). There is
no return from a fault; only RESET clears it (R272). -/
def State.faulted (s : State) (c : Cause) : State :=
  { s with fault := true, cause := c.code, work := .idle }

/-- `raise c` (R15, R270): taking a fault of the block, a next state. -/
def raise (c : Cause) (s : State) : Result := .next (s.faulted c)

/-- Dispatch of every command but RESET: no effect while FAULT is 1 (R269, R272). A command inside another command is not
expressible by `step` and refused (R300; log 16). -/
def command (s : State) (body : State → Result) : Result :=
  match s.work with
  | .idle => if s.fault then .next s else body s
  | .record => .refused .insideCommand
  | .tokens _ => .refused .insideCommand

/-- The state after reset of the same block, with the host's script as it stands (R290; log 18). -/
def State.afterReset (s : State) : State := State.resetWith s.params s.host

/-! ### Palettes -/

/-- The two packed bytes of a colour: `{g4, b4}` and `{0, r4}` (R56, R121); alpha is not read. -/
def packedByte (c : Colour) (second : Bool) : Byte :=
  if second then c.r >>> 4 else (c.g &&& 0xF0) ||| (c.b >>> 4)

/-- `PalPack` (R121). -/
def palPack (u : UnpackedPalette) : PackedPalette :=
  Vector.ofFn fun i : Fin 32 => packedByte (u[i.val / 2]'(by omega)) (i.val % 2 = 1)

/-- Expansion of a 4-bit channel to 8 bits, `n*17` (R122, R123). -/
def level (n : Nibble) : Byte := 17 * n.setWidth 8

/-- The colour in two packed bytes; the high nibble of the second is ignored, alpha is 255 (R122, R124). -/
def unpackedColour (b0 b1 : Byte) : Colour where
  r := level (b1.extractLsb' 0 4)
  g := level (b0.extractLsb' 4 4)
  b := level (b0.extractLsb' 0 4)
  a := 255

/-- `PalUnpack` (R122). -/
def palUnpack (q : PackedPalette) : UnpackedPalette :=
  Vector.ofFn fun k : Fin 16 => unpackedColour (q[2 * k.val]'(by omega)) (q[2 * k.val + 1]'(by omega))

/-- `PalEq`: the exact 32-byte comparison (R125). -/
def palEq (q1 q2 : PackedPalette) : Bool := decide (q1 = q2)

/-! ### Pixels at the boundary -/

/-- `PixUnpack`: two 8-bit indices per frame byte, the even pixel from the high nibble (R51, R54). -/
def pixUnpack (frame : List Byte) : List Byte :=
  match frame with
  | [] => []
  | b :: rest => (b.extractLsb' 4 4).setWidth 8 :: (b.extractLsb' 0 4).setWidth 8 :: pixUnpack rest

/-- `PixPack`: undefined for an index of 16 or more and for an odd number of indices (R55). -/
def pixPack (indices : List Byte) : Option (List Byte) :=
  match indices with
  | [] => some []
  | [_] => none
  | even :: odd :: rest =>
    if even < 16 ∧ odd < 16 then
      match pixPack rest with
      | none => none
      | some frame => some (((even <<< 4) ||| odd) :: frame)
    else none

/-- The 4-bit index of the pixel at column `x`, row `y` of a frame store (R52). -/
def pixelAt (frame : Memory) (x y : Nat) : Nibble :=
  let b := frame.read (y * 160 + x / 2)
  if x % 2 = 0 then b.extractLsb' 4 4 else b.extractLsb' 0 4

/-! ### Frames and streams -/

/-- `N`, the bytes of every frame store (R4). -/
def State.frameBytes (s : State) : Nat := s.params.frame.bytes

/-- Appends bytes to OSTREAM; WP stays its length (R30, R215). -/
def State.appendOut (s : State) (bytes : List Byte) : State :=
  { s with ostream := s.ostream.writeBytes s.wp bytes, wp := s.wp + bytes.length }

/-- OSTREAM has room for `n` more bytes (R302). -/
def State.outRoom (s : State) (n : Nat) : Bool :=
  match s.params.ocap with
  | none => true
  | some cap => decide (s.wp + n ≤ cap)

/-- `HandOut()` (R221, R229): PAL_OUT is recomputed, the event recorded, the frame counted. -/
def State.handOut (s : State) : State :=
  { s with palOut := palUnpack s.palDec
           out := s.out ++ [⟨palUnpack s.palDec, s.disp⟩]
           framesOut := s.framesOut + 1 }

/-- The end of a record of `size` bytes that hands out a frame: RP advances, then the hand-out (R228, R229); the command is over. -/
def State.finishRecord (s : State) (size : Nat) : State :=
  { s with rp := s.rp + size, work := .idle }.handOut

/-! ### The host's accesses -/

/-- PAL_IN with one byte replaced, laid out as R57 says. -/
def setColourByte (u : UnpackedPalette) (offset : Nat) (b : Byte) (h : offset < 64) : UnpackedPalette :=
  let c := u[offset / 4]'(by omega)
  u.set (offset / 4) (match offset % 4 with
    | 0 => { c with r := b }
    | 1 => { c with g := b }
    | 2 => { c with b := b }
    | _ => { c with a := b }) (by omega)

/-- A host access within a finite `ICAP`, or any (R302). -/
def State.inCapacity (s : State) (n : Nat) : Bool :=
  match s.params.icap with
  | none => true
  | some cap => decide (n ≤ cap)

/-- One access of the host between commands (R49). A command is no access: it is fetched and executed by the step. The model's choice
where the spec says nothing outright: a write of ISTREAM at or past ILEN is accepted and leaves ILEN as it is, and a write of ILEN leaves
the bytes of ISTREAM as they are, so that bytes past a lowered ILEN are there again when it is raised (R32, R50, R63; log 23). -/
def hostAccess (act : HostAction) (s : State) : Result :=
  match act with
  | .command _ _ => .next s
  | .writeCur offset b =>
    if offset < s.frameBytes then .next { s with cur := s.cur.write offset b } else .fault .noSuchOffset
  | .loadPixels indices =>
    match pixPack indices with
    | none => .refused .pixPackUndefined
    | some frame =>
      if frame.length = s.frameBytes then .next { s with cur := s.cur.writeBytes 0 frame } else .refused .pixPackUndefined
  | .writePalIn offset b =>
    if h : offset < 64 then .next { s with palIn := setColourByte s.palIn offset b h } else .fault .noSuchOffset
  | .writeInW v => .next { s with inW := v }
  | .writeInH v => .next { s with inH := v }
  | .writePalPk offset b =>
    if h : offset < 32 then .next { s with palPk := s.palPk.set offset b h } else .fault .noSuchOffset
  | .writeIstream offset b =>
    if s.inCapacity (offset + 1) then .next { s with istream := s.istream.write offset b } else .refused .istreamCapacity
  | .writeIlen n => if s.inCapacity n then .next { s with ilen := n } else .refused .istreamCapacity
  | .writeStatus _ => .next s
  | .writeCauseReg _ => .next s

end Sys2Proof.Machine
end

