-- ==== Sys2Proof/Machine/Operands.lean ====
section
/-! DEFINITION. How records and tokens find their bytes in ISTREAM and how a token's operands act on DISP: the payload test,
the room test, and the three forms (nothing stored, bytes stored, bytes skipped) (R237, R266, R267, R269). -/

namespace Sys2Proof.Machine

/-! ### Bytes of ISTREAM -/

/-- The bytes the record decoder may read at RP: at most a header of 3 bytes, none at or beyond ILEN (R80, R223). -/
def State.recordWindow (s : State) : List Byte := s.istream.readBytes s.rp (min (s.ilen - s.rp) 3)

/-- The record at RP. -/
def State.fetchRecord (s : State) : Decoded := decode .record s.recordWindow

/-- The bytes the token decoder may read at `tp`: at most the longest token, none at or beyond the end of `T` (R97, R228). -/
def State.tokenWindow (s : State) (c : TokenRun) : List Byte :=
  s.istream.readBytes (c.base + c.tp) (min (c.len - c.tp) Config.maxTokenBytes)

/-- The token at `tp`, in the grammar in force (R87). -/
def State.fetchToken (s : State) (c : TokenRun) : Decoded := decode (.token c.grammar) (s.tokenWindow c)

/-- The 32 bytes of ISTREAM from offset `a`, a packed palette (R227). -/
def State.paletteAt (s : State) (a : Nat) : PackedPalette := Vector.ofFn fun i : Fin 32 => s.istream.read (a + i.val)

/-! ### Token contexts -/

/-- The decoder has finished the frame's tokens: `K.END` was met, or `op` has reached `N` (R151, R186). -/
def TokenRun.complete (c : TokenRun) (n : Nat) : Bool :=
  match c.grammar with
  | .key => c.ended
  | .delta => decide (n ≤ c.op)

/-- Runs a token where the engine is about to read one of its grammar; elsewhere it is refused (log 17). -/
def inTokens (g : Grammar) (s : State) (body : TokenRun → Result) : Result :=
  match s.work with
  | .tokens c => if c.grammar = g ∧ c.complete s.frameBytes = false then body c else .refused .notAtFormat
  | .idle => .refused .notAtFormat
  | .record => .refused .notAtFormat

/-- The state with `tp` past a token of `len` bytes and `op` advanced by `cnt` (R236, R237). -/
def State.advanceToken (s : State) (c : TokenRun) (len cnt : Nat) : State :=
  { s with work := .tokens { c with tp := c.tp + len, op := c.op + cnt } }

/-- A token of `len` bytes that stores nothing and does not move `op` (R155, R188, R190). -/
def passToken (s : State) (c : TokenRun) (len : Nat) : Result :=
  if c.tp + len > c.len then raise .payloadOverrun s else .next (s.advanceToken c len 0)

/-- A token of `len` bytes that ends the token stream (R152). -/
def endToken (s : State) (c : TokenRun) (len : Nat) : Result :=
  if c.tp + len > c.len then raise .payloadOverrun s
  else .next { s with work := .tokens { c with tp := c.tp + len, ended := true } }

/-- A token of `len` bytes that stores `bytes` at `op`: payload test, room test, store, advance (R153, R154, R187, R189). -/
def storeToken (s : State) (c : TokenRun) (len : Nat) (bytes : List Byte) : Result :=
  if c.tp + len > c.len then raise .payloadOverrun s
  else if c.op + bytes.length > s.frameBytes then raise .frameOverrun s
  else .next ({ s with disp := s.disp.writeBytes c.op bytes }.advanceToken c len bytes.length)

/-- A token of `len` bytes that leaves `cnt` bytes of DISP as they are (R191). -/
def skipToken (s : State) (c : TokenRun) (len cnt : Nat) : Result :=
  if c.tp + len > c.len then raise .payloadOverrun s
  else if c.op + cnt > s.frameBytes then raise .frameOverrun s
  else .next (s.advanceToken c len cnt)

end Sys2Proof.Machine
end

