-- ==== Sys2Proof/Machine/Keyframe.lean ====
section
/-! DEFINITION. The keyframe grammar: the reference encoder KeyEncode (R140 to R149) and the four tokens (R152 to R155). -/

namespace Sys2Proof.Machine

/-! ### The encoder -/

/-- Number of leading bytes equal to `v`, at most `cap` (R143, R173). -/
def runLength (cap : Nat) (v : Byte) (l : List Byte) : Nat :=
  match cap, l with
  | 0, _ => 0
  | _, [] => 0
  | cap + 1, x :: t => if x = v then 1 + runLength cap v t else 0

/-- Three equal bytes start here, all inside the frame (R144, R146). -/
def startsRun (l : List Byte) : Bool :=
  match l with
  | x :: y :: z :: _ => decide (x = y) && decide (y = z)
  | _ => false

/-- How far a literal may run on, at most `cap` bytes, before a 3-byte run starts (R144). -/
def keyLiteralScan (cap : Nat) (l : List Byte) : Nat :=
  match cap, l with
  | 0, _ => 0
  | _, [] => 0
  | cap + 1, x :: t => if startsRun (x :: t) then 0 else 1 + keyLiteralScan cap t

/-- The tokens of KeyEncode for the bytes still to encode: short tail, run or literal (R141 to R144); `fuel` bounds the number of
tokens, one per byte at most (R147). -/
def keyTokens (fuel : Nat) (l : List Byte) : List Instr :=
  match fuel, l with
  | 0, _ => []
  | _, [] => []
  | _, [x] => [.kLit [x]]
  | _, [x, y] => [.kLit [x, y]]
  | fuel + 1, x :: y :: z :: t =>
    let l := x :: y :: z :: t
    if startsRun l then
      let r := runLength Config.keyRunMax x l
      .kRun (BitVec.ofNat 7 r) x :: keyTokens fuel (l.drop r)
    else
      let c := 1 + keyLiteralScan (Config.keyLitMax - 1) (y :: z :: t)
      .kLit (l.take c) :: keyTokens fuel (l.drop c)

/-- `KeyEncode(F)` (R141): the tokens' bytes and the terminator (R145). -/
def keyEncode (frame : List Byte) : List Byte :=
  (keyTokens frame.length frame).flatMap Instr.encode ++ Instr.encode .kEnd

/-! ### The tokens -/

/-- `K.END` (R152). -/
def execKEnd (s : State) : Result :=
  inTokens .key s fun c => endToken s c 1

/-- `K.LIT b0 ...` (R154). -/
def execKLit (data : List Byte) (s : State) : Result :=
  inTokens .key s fun c => storeToken s c (1 + data.length) data

/-- `K.RUN0 v` (R155): consumes its value byte and writes nothing. -/
def execKRun0 (_v : Byte) (s : State) : Result :=
  inTokens .key s fun c => passToken s c 2

/-- `K.RUN cnt, v` (R153). -/
def execKRun (cnt : BitVec 7) (v : Byte) (s : State) : Result :=
  inTokens .key s fun c => storeToken s c 2 (List.replicate cnt.toNat v)

end Sys2Proof.Machine
end

