-- ==== Sys2Proof/Machine/Delta.lean ====
section
/-! DEFINITION. The delta grammar: the reference encoder DeltaEncode (R170 to R179) and the five tokens (R187 to R191).
The encoder runs over pairs (byte of the previous frame, byte of the current frame). -/

namespace Sys2Proof.Machine

/-! ### The encoder -/

/-- A position of the two frames: the previous byte and the current byte. -/
abbrev Pair := Byte × Byte

/-- Number of leading positions at which the frames agree, at most `cap` (R172). -/
def matchLength (cap : Nat) (l : List Pair) : Nat :=
  match cap, l with
  | 0, _ => 0
  | _, [] => 0
  | cap + 1, x :: t => if x.1 = x.2 then 1 + matchLength cap t else 0

/-- The frames agree at the next three positions, all inside the frame (R174, R177). -/
def startsMatch (l : List Pair) : Bool :=
  match l with
  | x :: y :: z :: _ => decide (x.1 = x.2) && decide (y.1 = y.2) && decide (z.1 = z.2)
  | _ => false

/-- The current frame's bytes at the positions. -/
def currentBytes (l : List Pair) : List Byte := l.map Prod.snd

/-- How far a literal may run on, at most `cap` bytes, before a 3-byte run of the current frame or a 3-byte agreement with the
previous one starts (R174, R177). -/
def deltaLiteralScan (cap : Nat) (l : List Pair) : Nat :=
  match cap, l with
  | 0, _ => 0
  | _, [] => 0
  | cap + 1, x :: t =>
    if startsRun (currentBytes ((x :: t).take 3)) || startsMatch (x :: t) then 0 else 1 + deltaLiteralScan cap t

/-- The token of step 3 for `c` positions: a skip in the two special cases, else a literal (R174, R175). -/
def deltaLiteralToken (c : Nat) (l : List Pair) : Instr :=
  if c ≤ 2 ∧ (l.take c).all (fun x => decide (x.1 = x.2)) = true then .dSkip (BitVec.ofNat 7 c) else .dLit (currentBytes (l.take c))

/-- One pass of the main loop, at least two positions left: the token and how many positions it covers (R171). -/
def deltaStep (l : List Pair) : Instr × Nat :=
  let m := matchLength Config.deltaSkipMax l
  if (l.drop m).isEmpty || decide (Config.deltaSkipMin ≤ m) then (.dSkip (BitVec.ofNat 7 m), m)
  else
    match l with
    | [] => (.dLit0, 0)
    | x :: t =>
      let r := runLength Config.deltaRunMax x.2 (currentBytes ((x :: t).take Config.deltaRunMax))
      if Config.deltaRunMin ≤ r then (.dRun (BitVec.ofNat 8 r) x.2, r)
      else
        let c := 1 + deltaLiteralScan (Config.deltaLitMax - 1) t
        (deltaLiteralToken c (x :: t), c)

/-- The tokens of DeltaEncode for the positions still to encode: main loop while two remain, then the tail (R171, R176); `fuel`
bounds the number of tokens, one per byte at most (R178). -/
def deltaTokens (fuel : Nat) (l : List Pair) : List Instr :=
  match fuel, l with
  | 0, _ => []
  | _, [] => []
  | _, [x] => [if x.2 = x.1 then .dSkip 1 else .dLit [x.2]]
  | fuel + 1, x :: y :: t =>
    let l := x :: y :: t
    (deltaStep l).1 :: deltaTokens fuel (l.drop (deltaStep l).2)

/-- `DeltaEncode(P, C)` (R171): the tokens' bytes, no terminator. -/
def deltaEncode (prev cur : List Byte) : List Byte :=
  let l := prev.zip cur
  (deltaTokens l.length l).flatMap Instr.encode

/-! ### The tokens -/

/-- `D.RUN0` (R188): consumes two bytes and writes nothing. -/
def execDRun0 (s : State) : Result :=
  inTokens .delta s fun c => passToken s c 2

/-- `D.RUN cnt, v` (R187). -/
def execDRun (cnt v : Byte) (s : State) : Result :=
  inTokens .delta s fun c => storeToken s c 3 (List.replicate cnt.toNat v)

/-- `D.SKIP cnt` (R191): the copy from the previous frame is the identity in place. -/
def execDSkip (cnt : BitVec 7) (s : State) : Result :=
  inTokens .delta s fun c => skipToken s c 1 cnt.toNat

/-- `D.LIT0` (R190): consumes one byte and writes nothing. -/
def execDLit0 (s : State) : Result :=
  inTokens .delta s fun c => passToken s c 1

/-- `D.LIT b0 ...` (R189). -/
def execDLit (data : List Byte) (s : State) : Result :=
  inTokens .delta s fun c => storeToken s c (1 + data.length) data

end Sys2Proof.Machine
end

