-- ==== Sys2Proof/Machine/Flags.lean ====
section
/-! DEFINITION. The flag registers as the host reads them (R42, R45) and the type flag of a chunk (R84). The block has no
arithmetic condition codes (R45). -/

namespace Sys2Proof.Machine

/-- `STATUS`, an 8-bit view: bits 0 to 4 are FAULT, EOS, ENC_FIRST, ENC_ENDED, PAL_ENC_VALID, bits 7 to 5 are 0 (R42). -/
def State.status (s : State) : Byte :=
  (0 : BitVec 3) ++ BitVec.ofBool s.palEncValid ++ BitVec.ofBool s.encEnded ++ BitVec.ofBool s.encFirst
    ++ BitVec.ofBool s.eos ++ BitVec.ofBool s.fault

/-- `CAUSE_REG`, an 8-bit view: bits 3 to 0 are CAUSE, bits 7 to 4 are 0 (R42). -/
def State.causeReg (s : State) : Byte := (0 : Nibble) ++ s.cause

/-- Bit 7 of a type byte: a palette follows (R84). -/
def paletteBit (type : Byte) : Bool := type.getLsbD 7

/-- The type byte the encoder writes: `0x01`, with bit 7 for a palette and bits 6 and 5 for the first frame (R210, R214). -/
def typeFlag (newPalette first : Bool) : Byte :=
  0x01 ||| (if newPalette then 0x80 else 0) ||| (if first then 0x60 else 0)

end Sys2Proof.Machine
end

