-- ==== Sys2Proof/Machine/Records.lean ====
section
/-! DEFINITION. The chunk-level records END, CHUNK.SHORT, CHUNK.KEY and CHUNK.DELTA (R223 to R229) and the decoders KeyDecode and
DeltaDecode as the loop over a chunk's tokens (R151, R186). -/

namespace Sys2Proof.Machine

/-! ### The token decoders -/

/-- A token by its meaning. Only the token rows stand here; any other instruction is not at its format. -/
def execToken (i : Instr) (s : State) : Result :=
  match i with
  | .kEnd => execKEnd s
  | .kLit data => execKLit data s
  | .kRun0 v => execKRun0 v s
  | .kRun cnt v => execKRun cnt v s
  | .dRun0 => execDRun0 s
  | .dRun cnt v => execDRun cnt v s
  | .dSkip cnt => execDSkip cnt s
  | .dLit0 => execDLit0 s
  | .dLit data => execDLit data s
  | .endStream _ => .refused .notAtFormat
  | .chunkShort _ => .refused .notAtFormat
  | .chunkKey _ _ => .refused .notAtFormat
  | .chunkDelta _ _ => .refused .notAtFormat
  | .reset => .refused .notAtFormat
  | .encFrame => .refused .notAtFormat
  | .encEnd => .refused .notAtFormat
  | .decChunk => .refused .notAtFormat
  | .palPack => .refused .notAtFormat
  | .palUnpack => .refused .notAtFormat
  | .abort _ => .refused .notAtFormat
  | .cmdRsvd0 => .refused .notAtFormat
  | .cmdRsvd8 _ => .refused .notAtFormat

/-- One turn of the loop of R151 or R186: when the token stream is finished the chunk's record ends (R228, R229); else the next
token is read, `PayloadOverrun` if `T` does not hold all of it (R266), and executed. -/
def tokenTurn (c : TokenRun) (s : State) : Result :=
  if c.complete s.frameBytes then .next (s.finishRecord c.size)
  else
    match s.fetchToken c with
    | .ok (i, _) => execToken i s
    | .error .missingByte => raise .payloadOverrun s

/-- The loop of R151 or R186 to the end of the chunk or to a fault. Every token takes at least one byte of `T`, so `len(T) + 1` turns
are enough (R156, R194); with none left there is no byte left either. -/
def runTokens (fuel : Nat) (s : State) : Result :=
  match s.work with
  | .tokens c =>
    match fuel with
    | 0 => raise .payloadOverrun s
    | fuel + 1 =>
      match tokenTurn c s with
      | .next s' => runTokens fuel s'
      | .fault r => .fault r
      | .refused r => .refused r
  | .idle => .next s
  | .record => .next s

/-! ### The records -/

/-- Runs a record where the engine is about to read one; elsewhere it is refused (log 17). -/
def atRecord (s : State) (body : Result) : Result :=
  match s.work with
  | .record => body
  | .idle => .refused .notAtFormat
  | .tokens _ => .refused .notAtFormat

/-- The state that is about to decode a token stream of `len` bytes at offset `base`, in a chunk of `size` bytes (R228). -/
def State.startTokens (s : State) (g : Grammar) (base len size : Nat) : State :=
  { s with work := .tokens { grammar := g, base := base, len := len, tp := 0, op := 0, size := size, ended := false } }

/-- The chunk's header taken: the whole chunk must lie inside ISTREAM (R226); a palette, if announced, must fit and replaces PAL_DEC
(R227); answers the state about to decode the tokens, or the cause of the fault. -/
def State.openChunk (s : State) (g : Grammar) (size : Half) (type : Byte) : Except Cause State :=
  if s.rp + size.toNat > s.ilen then .error .truncatedStream
  else if paletteBit type then
    if size.toNat < 35 then .error .malformedChunk
    else .ok ({ s with palDec := s.paletteAt (s.rp + 3) }.startTokens g (s.rp + 35) (size.toNat - 35) size.toNat)
  else .ok (s.startTokens g (s.rp + 3) (size.toNat - 3) size.toNat)

/-- A chunk: its header, its tokens, the advance of RP and the hand-out (R226 to R229). -/
def execChunk (g : Grammar) (size : Half) (type : Byte) (s : State) : Result :=
  atRecord s (match s.openChunk g size type with
    | .error c => raise c s
    | .ok s' => runTokens (size.toNat + 1) s')

/-- `END` (R224): the stream is over; RP moves past the sentinel; nothing is handed out. -/
def execEndStream (_size : Half) (s : State) : Result :=
  atRecord s (.next { s with eos := true, rp := s.rp + 2, work := .idle })

/-- `CHUNK.SHORT` (R225): `MalformedChunk`, but for size 2 under `P_EMPTY_CHUNK = repeat`, which hands the frame out again. -/
def execChunkShort (size : Half) (s : State) : Result :=
  atRecord s (if size = 2 ∧ s.params.emptyChunk = .repeatFrame then .next (s.finishRecord 2) else raise .malformedChunk s)

/-- `CHUNK.KEY` (R226 to R229), decoded by KeyDecode (R151). -/
def execChunkKey (size : Half) (type : Byte) (s : State) : Result := execChunk .key size type s

/-- `CHUNK.DELTA` (R226 to R229), decoded by DeltaDecode (R186). -/
def execChunkDelta (size : Half) (type : Byte) (s : State) : Result := execChunk .delta size type s

/-- A record by its meaning. Only the record rows stand here; any other instruction is not at its format. -/
def execRecord (i : Instr) (s : State) : Result :=
  match i with
  | .endStream size => execEndStream size s
  | .chunkShort size => execChunkShort size s
  | .chunkKey size type => execChunkKey size type s
  | .chunkDelta size type => execChunkDelta size type s
  | .kEnd => .refused .notAtFormat
  | .kLit _ => .refused .notAtFormat
  | .kRun0 _ => .refused .notAtFormat
  | .kRun _ _ => .refused .notAtFormat
  | .dRun0 => .refused .notAtFormat
  | .dRun _ _ => .refused .notAtFormat
  | .dSkip _ => .refused .notAtFormat
  | .dLit0 => .refused .notAtFormat
  | .dLit _ => .refused .notAtFormat
  | .reset => .refused .notAtFormat
  | .encFrame => .refused .notAtFormat
  | .encEnd => .refused .notAtFormat
  | .decChunk => .refused .notAtFormat
  | .palPack => .refused .notAtFormat
  | .palUnpack => .refused .notAtFormat
  | .abort _ => .refused .notAtFormat
  | .cmdRsvd0 => .refused .notAtFormat
  | .cmdRsvd8 _ => .refused .notAtFormat

/-- Reading and executing the record at RP: `TruncatedStream` if ISTREAM ends before its header does (R223, R226). -/
def recordTurn (s : State) : Result :=
  match s.fetchRecord with
  | .ok (i, _) => execRecord i s
  | .error .missingByte => raise .truncatedStream s

end Sys2Proof.Machine
end

