-- ==== Sys2Proof/Machine/Commands.lean ====
section
/-! DEFINITION. The host commands RESET, ENC_FRAME, ENC_END, DEC_CHUNK, ABORT and the reserved codes (R110, R111; R210 to R222, R232,
R290). PAL_PACK and PAL_UNPACK stand in Palette.lean. -/

namespace Sys2Proof.Machine

/-- `RESET` (R290): the one command that acts when FAULT is 1, and at any moment (R293). -/
def execReset (s : State) : Result := .next s.afterReset

/-! ### ENC_FRAME and ENC_END -/

/-- The frame's packed palette differs from the last emitted one, or none was emitted in this pass (R212). -/
def State.newPalette (s : State) : Bool := !s.palEncValid || !palEq (palPack s.palIn) s.palEncLast

/-- The token stream of the next chunk: KeyEncode for the first frame, DeltaEncode afterwards (R213). -/
def State.frameTokens (s : State) : List Byte :=
  if s.encFirst then keyEncode (s.cur.readBytes 0 s.frameBytes)
  else deltaEncode (s.prev.readBytes 0 s.frameBytes) (s.cur.readBytes 0 s.frameBytes)

/-- The palette bytes of the next chunk (R215). -/
def State.framePalette (s : State) : List Byte := if s.newPalette then (palPack s.palIn).toList else []

/-- The size of the next chunk, counting its own two bytes (R81, R210). -/
def State.frameSize (s : State) : Nat := 3 + (if s.newPalette then 32 else 0) + s.frameTokens.length

/-- The header of the next chunk (R214, R215). -/
def State.frameHeader (s : State) : Instr :=
  if s.encFirst then .chunkKey (BitVec.ofNat 16 s.frameSize) (typeFlag s.newPalette s.encFirst)
  else .chunkDelta (BitVec.ofNat 16 s.frameSize) (typeFlag s.newPalette s.encFirst)

/-- The bytes of the next chunk: `LE16(size) ++ [type] ++ palette ++ T` (R215). -/
def State.frameChunk (s : State) : List Byte := s.frameHeader.encode ++ s.framePalette ++ s.frameTokens

/-- The state updates of a successful ENC_FRAME (R210, R216). -/
def State.afterFrame (s : State) : State :=
  { s.appendOut s.frameChunk with
    palEncLast := if s.newPalette then palPack s.palIn else s.palEncLast
    palEncValid := s.newPalette || s.palEncValid
    prev := s.cur
    encFirst := false }

/-- `ENC_FRAME` (R210, R211). -/
def execEncFrame (s : State) : Result :=
  command s fun s =>
    if s.encEnded then raise .illegalCommand s
    else if s.inW ≠ 320 ∨ s.inH ≠ 200 then raise .geometryMismatch s
    else if s.outRoom (2 * s.frameBytes + 38) then .next s.afterFrame
    else .refused .ostreamCapacity

/-- `ENC_END` (R219): appends the sentinel. -/
def execEncEnd (s : State) : Result :=
  command s fun s =>
    if s.encEnded then raise .illegalCommand s
    else if s.outRoom 2 then .next { s.appendOut (Instr.encode (.endStream Config.sentinelEmit)) with encEnded := true }
    else .refused .ostreamCapacity

/-! ### DEC_CHUNK, ABORT and the reserved codes -/

/-- `DEC_CHUNK` (R221, R222): reads one record at RP and acts on it, to its end, as one step (R9). -/
def execDecChunk (s : State) : Result :=
  command s fun s => if s.eos then .next s else recordTurn { s with work := .record }

/-- `ABORT cause` (R232). -/
def execAbort (cause : Nibble) (s : State) : Result :=
  command s fun s =>
    if cause = 4 then raise .sourceReadFailure s
    else if cause = 5 then raise .sinkWriteFailure s
    else raise .illegalCommand s

/-- Command code 0 (R111, R268). -/
def execCmdRsvd0 (s : State) : Result := command s fun s => raise .illegalCommand s

/-- Command codes 8 to 15 (R111, R268). -/
def execCmdRsvd8 (_low : BitVec 3) (s : State) : Result := command s fun s => raise .illegalCommand s

end Sys2Proof.Machine
end

