-- ==== Sys2Proof/Machine/Palette.lean ====
section
/-! DEFINITION. The Palette Packer: PalPack, PalUnpack, PalEq, and the commands PAL_PACK and PAL_UNPACK (R120 to R129). -/

namespace Sys2Proof.Machine

/-- `PAL_PACK` (R128): packs PAL_IN into the scratch register PAL_PK. -/
def execPalPack (s : State) : Result :=
  command s fun s => .next { s with palPk := palPack s.palIn }

/-- `PAL_UNPACK` (R129): unpacks the scratch register PAL_PK into PAL_OUT. -/
def execPalUnpack (s : State) : Result :=
  command s fun s => .next { s with palOut := palUnpack s.palPk }

end Sys2Proof.Machine
end

