-- ==== Sys2Proof/Machine/Dispatch.lean ====
section
/-! DEFINITION. One arm per constructor of `Instr`, each a call of its meaning. -/

namespace Sys2Proof.Machine

def exec (i : Instr) (s : State) : Host.Outcome State Fault Refusal :=
  match i with
  | .kEnd => Sys2Proof.Machine.execKEnd s
  | .kLit data => Sys2Proof.Machine.execKLit data s
  | .kRun0 v => Sys2Proof.Machine.execKRun0 v s
  | .kRun cnt v => Sys2Proof.Machine.execKRun cnt v s
  | .dRun0 => Sys2Proof.Machine.execDRun0 s
  | .dRun cnt v => Sys2Proof.Machine.execDRun cnt v s
  | .dSkip cnt => Sys2Proof.Machine.execDSkip cnt s
  | .dLit0 => Sys2Proof.Machine.execDLit0 s
  | .dLit data => Sys2Proof.Machine.execDLit data s
  | .endStream size => Sys2Proof.Machine.execEndStream size s
  | .chunkShort size => Sys2Proof.Machine.execChunkShort size s
  | .chunkKey size type => Sys2Proof.Machine.execChunkKey size type s
  | .chunkDelta size type => Sys2Proof.Machine.execChunkDelta size type s
  | .reset => Sys2Proof.Machine.execReset s
  | .encFrame => Sys2Proof.Machine.execEncFrame s
  | .encEnd => Sys2Proof.Machine.execEncEnd s
  | .decChunk => Sys2Proof.Machine.execDecChunk s
  | .palPack => Sys2Proof.Machine.execPalPack s
  | .palUnpack => Sys2Proof.Machine.execPalUnpack s
  | .abort cause => Sys2Proof.Machine.execAbort cause s
  | .cmdRsvd0 => Sys2Proof.Machine.execCmdRsvd0 s
  | .cmdRsvd8 low => Sys2Proof.Machine.execCmdRsvd8 low s

end Sys2Proof.Machine
end

