-- ==== Sys2Proof/Machine/Fetch.lean ====
section
/-! DEFINITION. How the next instruction is found, and how a word of spec/opcode_table.json is placed where the next step finds it.
A command stands on the CMD port (R43), a record at RP of ISTREAM (R221), a token at `tp` of the chunk's token stream (R44). -/

namespace Sys2Proof.Machine

/-- The command the host presents (R43, R110). -/
def fetchCommand (code operand : Nibble) : Decoded := decode .command [commandByte code operand]

/-- The command with the code in the low nibble of `w`, and operand 0, is the host's next action. -/
def State.placeCommand (s : State) (w : Nat) : State :=
  { s with work := .idle, host := .command (BitVec.ofNat 4 w) 0 :: s.host }

/-- The bytes are the record header at RP, inside ISTREAM, and the engine is about to read it. -/
def State.placeRecord (s : State) (bytes : List Byte) : State :=
  { s with istream := s.istream.writeBytes s.rp bytes, ilen := max s.ilen (s.rp + bytes.length), work := .record }

/-- The bytes are the token stream of a chunk without a palette at RP, and the engine is about to read its first token. -/
def State.placeToken (s : State) (g : Grammar) (bytes : List Byte) : State :=
  { s with istream := s.istream.writeBytes (s.rp + 3) bytes
           ilen := max s.ilen (s.rp + 3 + bytes.length) }.startTokens g (s.rp + 3) bytes.length (3 + bytes.length)

/-- Places a word of the opcode table, read in the format `decodeTableWord` reads it in, where the next step fetches (log 3, log 6). -/
def State.placeTableWord (s : State) (nbits w : Nat) : State :=
  match tableFormat nbits w with
  | none => s
  | some .command => s.placeCommand w
  | some .record => s.placeRecord ((tableBytes nbits w).take 3)
  | some (.token g) => s.placeToken g ((tableBytes nbits w).take Config.maxTokenBytes)

end Sys2Proof.Machine
end

