-- ==== Sys2Proof/Machine/Step.lean ====
section
/-! DEFINITION. One step. Between commands it takes the host's next action: a command runs to its end as one step (R9), an access is
made, and with nothing to do the block is idle (R292). Inside a command, where only the model looks, it runs one record or one token. -/

namespace Sys2Proof.Machine

/-- The step of the machine (log 1, log 2). -/
def step (s : State) : Host.Outcome State Fault Refusal :=
  match s.work with
  | .idle =>
    match s.host with
    | [] => .next s
    | .command code operand :: rest =>
      match fetchCommand code operand with
      | .ok (i, _) => exec i { s with host := rest }
      | .error .missingByte => .next { s with host := rest }
    | act :: rest => hostAccess act { s with host := rest }
  | .record =>
    match s.fetchRecord with
    | .ok (i, _) => exec i s
    | .error .missingByte => raise .truncatedStream s
  | .tokens c =>
    if c.complete s.frameBytes then .next (s.finishRecord c.size)
    else
      match s.fetchToken c with
      | .ok (i, _) => exec i s
      | .error .missingByte => raise .payloadOverrun s

/-- The state whose next step fetches and runs the instruction of an opcode-table word (log 3). -/
def State.withFetchWord (s : State) (nbits w : Nat) : State := s.placeTableWord nbits w

end Sys2Proof.Machine
end

