-- ==== Sys2Proof/Machine/Passes.lean ====
section
/-! DEFINITION. A whole pass as a function of what the host supplies: EncodeStream (R220) and DecodeStream (R230). -/

namespace Sys2Proof.Machine

/-- The host loads a frame and its palette before ENC_FRAME (R220, R294); a frame of other than `N` bytes is refused, the model's choice
where the spec has no such frame (R53; log 24). -/
def State.loadFrame (s : State) (palette : UnpackedPalette) (frame : List Byte) : Result :=
  if frame.length = s.frameBytes then
    .next { s with palIn := palette, cur := s.cur.writeBytes 0 frame, inW := 320, inH := 200 }
  else .refused .frameLength

/-- The host loads a whole stream before the first DEC_CHUNK (R230, R295); one longer than a finite `ICAP` is refused, the model's choice
as for the host's single writes (R302, U6; log 13). -/
def State.loadStream (s : State) (bytes : List Byte) : Result :=
  if s.inCapacity bytes.length then .next { s with istream := s.istream.writeBytes 0 bytes, ilen := bytes.length }
  else .refused .istreamCapacity

/-- An encode pass: for each frame the load and ENC_FRAME, then ENC_END (R220). -/
def encodeFrames (frames : List (UnpackedPalette × List Byte)) (s : State) : Result :=
  match frames with
  | [] => exec .encEnd s
  | (palette, frame) :: rest =>
    match s.loadFrame palette frame with
    | .next loaded =>
      match exec .encFrame loaded with
      | .next t => encodeFrames rest t
      | .fault r => .fault r
      | .refused r => .refused r
    | .fault r => .fault r
    | .refused r => .refused r

/-- `EncodeStream` (R220): the contents of OSTREAM after the pass, if no frame (log 24) and no command (log 13) was refused. -/
def encodeStream (p : Params) (frames : List (UnpackedPalette × List Byte)) : Option (List Byte) :=
  match encodeFrames frames (State.resetWith p []) with
  | .next t => some (t.ostream.readBytes 0 t.wp)
  | .fault _ => none
  | .refused _ => none

/-- DEC_CHUNK repeated until EOS or FAULT is 1, at most `fuel` times (R230). -/
def decodeChunks (fuel : Nat) (s : State) : Result :=
  match fuel with
  | 0 => .next s
  | fuel + 1 =>
    if s.eos || s.fault then .next s
    else
      match exec .decChunk s with
      | .next t => decodeChunks fuel t
      | .fault r => .fault r
      | .refused r => .refused r

/-- `DecodeStream` (R230): the state at the end of the pass, or the refusal of a stream beyond a finite `ICAP` (log 13). Every DEC_CHUNK that goes on advances RP by at least 2, so a turn for
each byte of the stream and one more are enough. -/
def decodeStream (p : Params) (bytes : List Byte) : Result :=
  match (State.resetWith p []).loadStream bytes with
  | .next s => decodeChunks (bytes.length + 1) s
  | .fault r => .fault r
  | .refused r => .refused r

end Sys2Proof.Machine
end

