-- ==== Sys2Proof/WellFormed.lean ====
section
/-! DEFINITION. Which terms of `Instr` an encoding exists for: the `constraint` entries of spec/opcode_table.json. -/

namespace Sys2Proof

/-- The operand ranges of R82, R83 and R88 to R96. -/
def Instr.wellFormed (i : Instr) : Bool :=
  match i with
  | .kEnd => true
  | .kLit data => 1 ≤ data.length && data.length ≤ 127
  | .kRun0 _ => true
  | .kRun cnt _ => cnt != 0
  | .dRun0 => true
  | .dRun cnt _ => cnt != 0
  | .dSkip cnt => cnt != 0
  | .dLit0 => true
  | .dLit data => 1 ≤ data.length && data.length ≤ 127
  | .endStream size => decide (Config.sentinelMin ≤ size)
  | .chunkShort size => decide (size < Config.minChunk)
  | .chunkKey size type => decide (Config.minChunk ≤ size) && decide (size < Config.sentinelMin) && type.getLsbD 6
  | .chunkDelta size type => decide (Config.minChunk ≤ size) && decide (size < Config.sentinelMin) && !type.getLsbD 6
  | .reset => true
  | .encFrame => true
  | .encEnd => true
  | .decChunk => true
  | .palPack => true
  | .palUnpack => true
  | .abort _ => true
  | .cmdRsvd0 => true
  | .cmdRsvd8 _ => true

end Sys2Proof
end

