-- ==== Sys2Proof/Safety.lean ====
section
/-! DEFINITION. The terms in which statements about the machine are made: the invariant of its states, which store belongs to which
half of the block, what a list of tokens expands to, and what a token does from its operand form. -/

namespace Sys2Proof.Machine

/-! ### The invariant -/

/-- A frame store of `n` bytes: in canonical form, nothing listed at or past `n` (R53). -/
def FrameStore (m : Memory) (n : Nat) : Prop := m.wf = true ∧ m.within n = true

/-- The working registers of a token decoder stand inside the chunk and the frame (R44, R228). -/
structure TokenRun.Inside (c : TokenRun) (s : State) : Prop where
  /-- `op` never passes `N` (R192). -/
  op_le : c.op ≤ s.frameBytes
  /-- `tp` never passes `len(T)` (R156, R194). -/
  tp_le : c.tp ≤ c.len
  /-- The token stream ends where the chunk ends (R80). -/
  ends : c.base + c.len = s.rp + c.size
  /-- The chunk lies inside ISTREAM (R226). -/
  inside : s.rp + c.size ≤ s.ilen

/-- What holds of every state the block can be in. -/
structure State.Inv (s : State) : Prop where
  /-- CUR is a frame store (R22, R53). -/
  cur : FrameStore s.cur s.frameBytes
  /-- PREV is a frame store (R23, R53). -/
  prev : FrameStore s.prev s.frameBytes
  /-- DISP is a frame store (R33, R53). -/
  disp : FrameStore s.disp s.frameBytes
  /-- Every frame handed out is one (R39, R53). -/
  out : ∀ f ∈ s.out, FrameStore f.pixels s.frameBytes
  /-- ISTREAM is in canonical form. -/
  istream : s.istream.wf = true
  /-- OSTREAM is in canonical form and ends at WP (R30). -/
  ostream : s.ostream.wf = true ∧ s.ostream.within s.wp = true
  /-- `len(OUT) == FRAMES_OUT` (R39). -/
  frames : s.framesOut = s.out.length
  /-- With FAULT 0, CAUSE is 0 (R41, R270). -/
  noCause : s.fault = false → s.cause = 0
  /-- With FAULT 1, CAUSE is the code of a named cause (R260). -/
  namedCause : s.fault = true → ∃ c : Cause, s.cause = c.code
  /-- A fault ends the command in progress (R15, R270). -/
  faultIdle : s.fault = true → s.work = .idle
  /-- The first frame of a pass, and no other, finds no palette emitted (R27, R28, R212). -/
  first : s.palEncValid = !s.encFirst
  /-- Before the first frame the stream holds nothing, or the sentinel alone (R217, R219). -/
  empty : s.encFirst = true → s.wp = if s.encEnded then 2 else 0
  /-- The unused nibbles of PAL_ENC_LAST are zero (R124). -/
  nibble : ∀ k : Fin 16, s.palEncLast[2 * k.val + 1] < 16
  /-- The working registers, while a chunk's tokens are decoded. -/
  tokens : ∀ c, s.work = .tokens c → c.Inside s
  /-- ILEN is within a finite capacity (R32, R302). -/
  icap : s.inCapacity s.ilen = true
  /-- WP is within a finite capacity (R302). -/
  ocap : s.outRoom 0 = true

/-! ### The two halves of the block -/

/-- The encoder half is as it was (R20, R22 to R31). -/
def SameEncoderHalf (s t : State) : Prop :=
  t.cur = s.cur ∧ t.prev = s.prev ∧ t.palIn = s.palIn ∧ t.inW = s.inW ∧ t.inH = s.inH ∧ t.palEncLast = s.palEncLast
    ∧ t.palEncValid = s.palEncValid ∧ t.encFirst = s.encFirst ∧ t.encEnded = s.encEnded ∧ t.ostream = s.ostream ∧ t.wp = s.wp
    ∧ t.palPk = s.palPk

/-- The decoder half is as it was (R20, R32 to R39). -/
def SameDecoderHalf (s t : State) : Prop :=
  t.istream = s.istream ∧ t.ilen = s.ilen ∧ t.disp = s.disp ∧ t.palDec = s.palDec ∧ t.palOut = s.palOut ∧ t.rp = s.rp
    ∧ t.eos = s.eos ∧ t.framesOut = s.framesOut ∧ t.out = s.out

/-- What two states must agree on, besides one half, for a command of that half to do the same in both: FAULT (R20), and of the model's own
fields the phase and the parameters. -/
def SharedByHalves (s t : State) : Prop := t.fault = s.fault ∧ t.work = s.work ∧ t.params = s.params

/-! ### What tokens cover and expand to -/

/-- The bytes of the frame a token covers (R97, R98). -/
def tokenCount (i : Instr) : Nat :=
  match i with
  | .kLit data => data.length
  | .kRun cnt _ => cnt.toNat
  | .dRun cnt _ => cnt.toNat
  | .dSkip cnt => cnt.toNat
  | .dLit data => data.length
  | _ => 0

/-- The bytes of the frame a list of tokens covers. -/
def tokensCount (toks : List Instr) : Nat := (toks.map tokenCount).sum

/-- What a list of tokens makes of the frame bytes `old` at and after the output position: a run repeats its value, a literal gives its
bytes, a skip keeps the old bytes, any other token covers nothing (R151, R186, R237); what no token covers keeps its bytes (R71). -/
def expandTokens (toks : List Instr) (old : List Byte) : List Byte :=
  match toks with
  | [] => old
  | .kRun cnt v :: rest => List.replicate cnt.toNat v ++ expandTokens rest (old.drop cnt.toNat)
  | .dRun cnt v :: rest => List.replicate cnt.toNat v ++ expandTokens rest (old.drop cnt.toNat)
  | .kLit data :: rest => data ++ expandTokens rest (old.drop data.length)
  | .dLit data :: rest => data ++ expandTokens rest (old.drop data.length)
  | .dSkip cnt :: rest => old.take cnt.toNat ++ expandTokens rest (old.drop cnt.toNat)
  | _ :: rest => expandTokens rest old

/-! ### Token forms -/

/-- The engine is about to read a token of grammar `g`, with working registers `c`. -/
def AtToken (s : State) (g : Grammar) (c : TokenRun) : Prop :=
  s.work = .tokens c ∧ c.grammar = g ∧ c.complete s.frameBytes = false

/-- `i` is a token of grammar `g` and `len` bytes that stores `bytes` at `op`: payload test, room test, then the store, every other byte
of DISP and everything else as before (R153, R154, R187, R189). -/
def StoresBytes (i : Instr) (g : Grammar) (len : Nat) (bytes : List Byte) : Prop :=
  ∀ s c, AtToken s g c →
    (c.len < c.tp + len → exec i s = .next (s.faulted .payloadOverrun))
    ∧ (c.tp + len ≤ c.len → s.frameBytes < c.op + bytes.length → exec i s = .next (s.faulted .frameOverrun))
    ∧ (c.tp + len ≤ c.len → c.op + bytes.length ≤ s.frameBytes →
        ∃ t, exec i s = .next t
          ∧ (∀ k (h : k < bytes.length), t.disp.read (c.op + k) = bytes[k])
          ∧ (∀ a, a < c.op ∨ c.op + bytes.length ≤ a → t.disp.read a = s.disp.read a)
          ∧ t = { s with disp := t.disp, work := .tokens { c with tp := c.tp + len, op := c.op + bytes.length } })

/-- `i` is a token of grammar `g` and `len` bytes that moves `tp` past itself and does nothing else (R155, R188, R190). -/
def PassesBytes (i : Instr) (g : Grammar) (len : Nat) : Prop :=
  ∀ s c, AtToken s g c →
    (c.len < c.tp + len → exec i s = .next (s.faulted .payloadOverrun))
    ∧ (c.tp + len ≤ c.len → exec i s = .next { s with work := .tokens { c with tp := c.tp + len } })

end Sys2Proof.Machine
end

