-- ==== Sys2Proof/Certificates/Slice0/Obligations.lean ====
section
/-! DEFINITION. The statements for the provers, from the numbered rules of spec/. Each docstring names the rule; OBLIGATIONS.json lists
them. `N` is `s.frameBytes`. -/

open Sys2Proof Sys2Proof.Machine

/-! ### Encodings -/

/-- A few words written out from R83, R88 to R96 decode to the instruction they stand for. The last clause is the model's choice: the
spec gives ABORT a 4-bit code and a 4-bit operand (R110) and no byte, and that the byte `57` holds code 7 in its low and operand 5 in its
high nibble is log 7. -/
def Obligations.SampleWordsDecode : Prop :=
  decode (.token .key) [0x00, 0x55] = .ok (.kEnd, [0x55])
  ∧ decode (.token .key) [0x83, 0x07] = .ok (.kRun 3 7, [])
  ∧ decode (.token .key) [0x02, 0x80, 0x00] = .ok (.kLit [0x80, 0x00], [])
  ∧ decode (.token .delta) [0x00, 0x04, 0xAA] = .ok (.dRun 4 0xAA, [])
  ∧ decode (.token .delta) [0x81, 0xEE] = .ok (.dLit [0xEE], [])
  ∧ decode (.token .delta) [0x7F] = .ok (.dSkip 127, [])
  ∧ decode .record [0xFF, 0x00, 0x01] = .ok (.chunkDelta 0x00FF 0x01, [])
  ∧ decode .record [0x00, 0xFF] = .ok (.endStream 0xFF00, [])
  ∧ decode .command [0x57] = .ok (.abort 5, [])

/-- Decoding an encoded well-formed instruction gives it back, with every operand at every value, whatever follows it (R80 to R96,
R110, R111). -/
def Obligations.DecodeEncodeAgree : Prop :=
  ∀ (i : Instr) (rest : List Byte), i.wellFormed = true → decode i.format (i.encode ++ rest) = .ok (i, rest)

/-- A token or record that decodes is well formed, of the format read, and spelled by exactly the bytes consumed (R97, R99): no
instruction has two spellings. -/
def Obligations.DecodedBytesAreTheirEncoding : Prop :=
  ∀ (f : Format) (bytes rest : List Byte) (i : Instr), f ≠ .command → decode f bytes = .ok (i, rest) →
    i.wellFormed = true ∧ i.format = f ∧ bytes = i.encode ++ rest ∧ i.encode.length = i.byteLength

/-- No control byte is illegal in either grammar: with enough bytes after it, each is a token (R101). -/
def Obligations.EveryControlByteIsAToken : Prop :=
  ∀ (g : Grammar) (c : Byte) (rest : List Byte), 127 ≤ rest.length →
    ∃ i tail, decode (.token g) (c :: rest) = .ok (i, tail) ∧ i.format = .token g

/-! ### Tokens -/

/-- K.END ends the token stream: `tp` passes it, the end is recorded, DISP and everything else stay (R152). -/
def Obligations.KEndEndsTheTokens : Prop :=
  ∀ (s : State) (c : TokenRun), AtToken s .key c →
    (c.len < c.tp + 1 → exec .kEnd s = .next (s.faulted .payloadOverrun))
    ∧ (c.tp + 1 ≤ c.len → exec .kEnd s = .next { s with work := .tokens { c with tp := c.tp + 1, ended := true } })

/-- K.LIT, the bytes `cnt`, `b0`, ..., copies its bytes to DISP at `op` (R154). -/
def Obligations.KLitCopiesItsBytes : Prop :=
  ∀ data : List Byte,
    (1 ≤ data.length → data.length ≤ 127 →
      decode (.token .key) (BitVec.ofNat 8 data.length :: data) = .ok (.kLit data, []))
    ∧ StoresBytes (.kLit data) .key (1 + data.length) data

/-- K.RUN, the bytes `80 | cnt`, `v`, stores its value `cnt` times at `op` (R153). -/
def Obligations.KRunReplicatesItsValue : Prop :=
  ∀ (cnt : BitVec 7) (v : Byte),
    (cnt ≠ 0 → decode (.token .key) [0x80 ||| cnt.setWidth 8, v] = .ok (.kRun cnt v, []))
    ∧ StoresBytes (.kRun cnt v) .key 2 (List.replicate cnt.toNat v)

/-- D.RUN, the bytes `00`, `cnt`, `v`, stores its value `cnt` times at `op` (R187). -/
def Obligations.DRunReplicatesItsValue : Prop :=
  ∀ cnt v : Byte,
    (cnt ≠ 0 → decode (.token .delta) [0x00, cnt, v] = .ok (.dRun cnt v, []))
    ∧ StoresBytes (.dRun cnt v) .delta 3 (List.replicate cnt.toNat v)

/-- D.LIT, the bytes `80 | cnt`, `b0`, ..., copies its bytes to DISP at `op` (R189). -/
def Obligations.DLitCopiesItsBytes : Prop :=
  ∀ data : List Byte,
    (1 ≤ data.length → data.length ≤ 127 →
      decode (.token .delta) ((0x80 ||| BitVec.ofNat 8 data.length) :: data) = .ok (.dLit data, []))
    ∧ StoresBytes (.dLit data) .delta (1 + data.length) data

/-- The reserved tokens K.RUN0, D.RUN0 and D.LIT0, the bytes `80 v`, `00 00` and `80`, consume 2, 2 and 1 bytes and do nothing else
(R155, R188, R190). -/
def Obligations.ReservedTokensOnlyPass : Prop :=
  (∀ v : Byte, decode (.token .key) [0x80, v] = .ok (.kRun0 v, []))
  ∧ decode (.token .delta) [0x00, 0x00] = .ok (.dRun0, []) ∧ decode (.token .delta) [0x80] = .ok (.dLit0, [])
  ∧ (∀ v : Byte, PassesBytes (.kRun0 v) .key 2) ∧ PassesBytes .dRun0 .delta 2 ∧ PassesBytes .dLit0 .delta 1

/-- D.SKIP, the byte `cnt`, advances `op` past `cnt` bytes of the previous frame, which stay in DISP (R191). -/
def Obligations.DSkipKeepsTheFrame : Prop :=
  (∀ cnt : BitVec 7, cnt ≠ 0 → decode (.token .delta) [cnt.setWidth 8] = .ok (.dSkip cnt, []))
  ∧ ∀ (cnt : BitVec 7) (s : State) (c : TokenRun), AtToken s .delta c → c.tp + 1 ≤ c.len →
    (s.frameBytes < c.op + cnt.toNat → exec (.dSkip cnt) s = .next (s.faulted .frameOverrun))
    ∧ (c.op + cnt.toNat ≤ s.frameBytes →
        exec (.dSkip cnt) s = .next { s with work := .tokens { c with tp := c.tp + 1, op := c.op + cnt.toNat } })

/-- Inside a chunk whose frame is not finished, a token that does not lie whole inside the token stream is a PayloadOverrun: its control
byte is missing, or the bytes the stream has left spell no whole token (R266). -/
def Obligations.MissingTokenBytesFault : Prop :=
  ∀ (s : State) (c : TokenRun), AtToken s c.grammar c →
    (c.len ≤ c.tp → step s = .next (s.faulted .payloadOverrun))
    ∧ (c.tp < c.len → decode (.token c.grammar) (s.istream.readBytes (c.base + c.tp) (c.len - c.tp)) = .error .missingByte →
        step s = .next (s.faulted .payloadOverrun))

/-! ### Records -/

/-- The END record sets EOS and moves RP past the sentinel, whatever its low byte; it hands nothing out (R224). -/
def Obligations.EndRecordEndsTheStream : Prop :=
  ∀ (s : State) (size : Half), s.work = .record →
    exec (.endStream size) s = .next { s with eos := true, rp := s.rp + 2, work := .idle }

/-- DEC_CHUNK at a sentinel, a size field whose second byte is FF, ends the stream with success: EOS is 1, RP is past the two bytes, no
frame is handed out, and no later DEC_CHUNK reads anything more (R83, R224). -/
def Obligations.DecChunkStopsAtTheSentinel : Prop :=
  ∀ s : State, s.work = .idle → s.fault = false → s.eos = false → s.rp + 2 ≤ s.ilen → s.istream.read (s.rp + 1) = 0xFF →
    exec .decChunk s = .next { s with eos := true, rp := s.rp + 2 }
    ∧ exec .decChunk { s with eos := true, rp := s.rp + 2 } = .next { s with eos := true, rp := s.rp + 2 }

/-- A size below 3 is a MalformedChunk, but for size 2 under `P_EMPTY_CHUNK = repeat`, which consumes its 2 bytes and hands the frame out
again (R225). -/
def Obligations.ShortChunkFaultsOrRepeats : Prop :=
  ∀ (s : State) (size : Half), s.work = .record → size < 3 →
    (size = 2 → s.params.emptyChunk = .repeatFrame →
      exec (.chunkShort size) s = .next
        { s with rp := s.rp + 2, work := .idle, palOut := palUnpack s.palDec,
                 out := s.out ++ [⟨palUnpack s.palDec, s.disp⟩], framesOut := s.framesOut + 1 })
    ∧ (¬ (size = 2 ∧ s.params.emptyChunk = .repeatFrame) → exec (.chunkShort size) s = .next (s.faulted .malformedChunk))

/-- A keyframe chunk whose token stream is some tokens covering at most `N` bytes, then K.END, then anything: the tokens are
executed in order into DISP, RP advances by `size`, the palette is applied and the frame handed out (R151, R226 to R229). -/
def Obligations.ChunkKeyRunsItsTokens : Prop :=
  ∀ (s : State) (size : Half) (type : Byte) (toks : List Instr) (tail : List Byte),
    s.work = .record → (Instr.chunkKey size type).wellFormed = true → s.rp + size.toNat ≤ s.ilen →
    (type.getLsbD 7 = true → 35 ≤ size.toNat) →
    (∀ i ∈ toks, i.format = .token .key ∧ i.wellFormed = true ∧ i ≠ .kEnd) → tokensCount toks ≤ s.frameBytes →
    (let header := if type.getLsbD 7 then 35 else 3
     s.istream.readBytes (s.rp + header) (size.toNat - header) = toks.flatMap Instr.encode ++ 0x00 :: tail) →
    ∃ t, exec (.chunkKey size type) s = .next t
      ∧ t.disp.readBytes 0 s.frameBytes = expandTokens toks (s.disp.readBytes 0 s.frameBytes)
      ∧ (∀ a, s.frameBytes ≤ a → t.disp.read a = s.disp.read a)
      ∧ (type.getLsbD 7 = true → t.palDec.toList = s.istream.readBytes (s.rp + 3) 32)
      ∧ (type.getLsbD 7 = false → t.palDec = s.palDec)
      ∧ t = { s with disp := t.disp, palDec := t.palDec, rp := s.rp + size.toNat, work := .idle, palOut := palUnpack t.palDec,
                     out := s.out ++ [⟨palUnpack t.palDec, t.disp⟩], framesOut := s.framesOut + 1 }

/-- A delta chunk whose token stream begins with tokens that bring `op` to exactly `N` with the last of them: the tokens are executed in
order over the frame that DISP holds, the bytes after them are never read, and the frame is handed out (R186, R192, R193, R226 to R229). -/
def Obligations.ChunkDeltaRunsItsTokens : Prop :=
  ∀ (s : State) (size : Half) (type : Byte) (toks : List Instr) (tail : List Byte),
    s.work = .record → (Instr.chunkDelta size type).wellFormed = true → s.rp + size.toNat ≤ s.ilen →
    (type.getLsbD 7 = true → 35 ≤ size.toNat) →
    (∀ i ∈ toks, i.format = .token .delta ∧ i.wellFormed = true) → tokensCount toks = s.frameBytes →
    (∀ before i after, toks = before ++ i :: after → tokensCount before < s.frameBytes) →
    (let header := if type.getLsbD 7 then 35 else 3
     s.istream.readBytes (s.rp + header) (size.toNat - header) = toks.flatMap Instr.encode ++ tail) →
    ∃ t, exec (.chunkDelta size type) s = .next t
      ∧ t.disp.readBytes 0 s.frameBytes = expandTokens toks (s.disp.readBytes 0 s.frameBytes)
      ∧ (∀ a, s.frameBytes ≤ a → t.disp.read a = s.disp.read a)
      ∧ (type.getLsbD 7 = true → t.palDec.toList = s.istream.readBytes (s.rp + 3) 32)
      ∧ (type.getLsbD 7 = false → t.palDec = s.palDec)
      ∧ t = { s with disp := t.disp, palDec := t.palDec, rp := s.rp + size.toNat, work := .idle, palOut := palUnpack t.palDec,
                     out := s.out ++ [⟨palUnpack t.palDec, t.disp⟩], framesOut := s.framesOut + 1 }

/-! ### DEC_CHUNK as a whole -/

/-- TruncatedStream: fewer than 2 bytes where a size field is expected, or a chunk whose declared size exceeds the bytes left; nothing but
FAULT and CAUSE changes (R263). -/
def Obligations.TruncatedStreamFaults : Prop :=
  ∀ s : State, s.work = .idle → s.fault = false → s.eos = false →
    (s.ilen < s.rp + 2 → exec .decChunk s = .next { s with fault := true, cause := 2 })
    ∧ (s.rp + 2 ≤ s.ilen →
        ∀ size, size = unLE16 (s.istream.read s.rp) (s.istream.read (s.rp + 1)) → 3 ≤ size → size < 0xFF00 →
          s.ilen < s.rp + size.toNat → exec .decChunk s = .next { s with fault := true, cause := 2 })

/-- MalformedChunk: a size below 3, but for the repeat of size 2, or a palette announced in a chunk of fewer than 35 bytes; nothing but
FAULT and CAUSE changes, and PAL_DEC is not touched (R264). -/
def Obligations.MalformedChunkFaults : Prop :=
  ∀ s : State, s.work = .idle → s.fault = false → s.eos = false → s.rp + 2 ≤ s.ilen →
    ∀ size, size = unLE16 (s.istream.read s.rp) (s.istream.read (s.rp + 1)) →
      (size < 3 → ¬ (size = 2 ∧ s.params.emptyChunk = .repeatFrame) →
        exec .decChunk s = .next { s with fault := true, cause := 3 })
      ∧ (3 ≤ size → size < 35 → s.rp + size.toNat ≤ s.ilen → (s.istream.read (s.rp + 2)).getLsbD 7 = true →
          exec .decChunk s = .next { s with fault := true, cause := 3 })

/-- Faults of DEC_CHUNK are precise: RP, EOS, FRAMES_OUT, OUT, PAL_OUT, the input stream and the whole encoder half are as before the
command, the cause is one of the four DEC_CHUNK can raise, and the two causes of a chunk-level fault come with nothing written at all, DISP
and PAL_DEC included (R260, R271). What a token-level fault leaves in DISP and PAL_DEC is TokenFaultsKeepEarlierWrites. -/
def Obligations.DecChunkFaultsArePrecise : Prop :=
  ∀ s t : State, s.fault = false → exec .decChunk s = .next t → t.fault = true →
    t.rp = s.rp ∧ t.eos = s.eos ∧ t.framesOut = s.framesOut ∧ t.out = s.out ∧ t.palOut = s.palOut ∧ t.istream = s.istream
      ∧ t.ilen = s.ilen ∧ SameEncoderHalf s t ∧ (t.cause = 2 ∨ t.cause = 3 ∨ t.cause = 6 ∨ t.cause = 7)
      ∧ (t.cause = 2 ∨ t.cause = 3 → t = { s with fault := true, cause := t.cause })

/-- DEC_CHUNK completes in every state between two commands, as one step that ends between two commands (R9, R310). -/
def Obligations.DecChunkAlwaysCompletes : Prop :=
  ∀ s : State, s.work = .idle → ∃ t, exec .decChunk s = .next t ∧ t.work = .idle

/-- DEC_CHUNK has no effect after the end of the stream (R222). -/
def Obligations.DecChunkIdleAfterTheEnd : Prop :=
  ∀ s : State, s.work = .idle → s.eos = true ∨ s.fault = true → exec .decChunk s = .next s

/-- DEC_CHUNK writes no byte of DISP at or past `N` (R156, R194). -/
def Obligations.DecChunkWritesInsideTheFrame : Prop :=
  ∀ s t : State, exec .decChunk s = .next t → ∀ a, s.frameBytes ≤ a → t.disp.read a = s.disp.read a

/-- DEC_CHUNK reads only the bytes of ISTREAM from RP on and below ILEN: two states that agree on those do the same (R156, R194, R301). -/
def Obligations.DecChunkReadsOnlyTheStreamAhead : Prop :=
  ∀ (s t : State) (m : Memory), (∀ a, s.rp ≤ a → a < s.ilen → m.read a = s.istream.read a) →
    exec .decChunk s = .next t → exec .decChunk { s with istream := m } = .next { t with istream := m }

/-! ### Commands -/

/-- RESET gives every piece of state the value of the table of R48, and so do the hardware reset and power-on (R290). -/
def Obligations.ResetRestoresTheTable : Prop :=
  ∀ s t : State, (exec .reset s = .next t ∨ t = State.resetWith s.params s.host) →
    (∀ a, t.cur.read a = 0) ∧ (∀ a, t.prev.read a = 0)
    ∧ (∀ k : Fin 16, t.palIn[k] = ⟨0, 0, 0, 0⟩ ∧ t.palOut[k] = ⟨0, 0, 0, 0⟩)
    ∧ (∀ k : Fin 32, t.palPk[k] = 0 ∧ t.palEncLast[k] = 0)
    ∧ t.inW = 320 ∧ t.inH = 200 ∧ t.palEncValid = false ∧ t.encFirst = true ∧ t.encEnded = false ∧ t.ostream = [] ∧ t.wp = 0
    ∧ t.istream = [] ∧ t.ilen = 0
    ∧ (∀ a, t.disp.read a = if a < s.frameBytes then s.params.dispInit.getD a 0 else 0)
    ∧ t.palDec = s.params.palDecInit
    ∧ t.rp = 0 ∧ t.eos = false ∧ t.framesOut = 0 ∧ t.out = [] ∧ t.fault = false ∧ t.cause = 0 ∧ t.status = 0x04 ∧ t.causeReg = 0x00

/-- RESET always completes, in any state, with or without a fault and inside another command: the state is that of power-on with the
same parameters. That the host's remaining script stays is the model's choice (log 18). -/
def Obligations.ResetAlwaysCompletes : Prop :=
  ∀ s : State, exec .reset s = .next (State.resetWith s.params s.host)
    ∧ (s.work = .idle → ∀ operand rest, s.host = .command 1 operand :: rest → step s = .next (State.resetWith s.params rest))

/-- ENC_FRAME: no effect while FAULT is 1, an IllegalCommand after ENC_END, a GeometryMismatch unless the declared geometry is 320 by
200; else it appends one chunk, `LE16(size) ++ [type] ++ palette ++ T`, and updates the palette state, PREV and ENC_FIRST; every other
byte of OSTREAM and everything else stay (R210, R214). -/
def Obligations.EncFrameAppendsOneChunk : Prop :=
  ∀ s : State, s.work = .idle → s.outRoom (2 * s.frameBytes + 38) = true →
    if s.fault = true then exec .encFrame s = .next s
    else if s.encEnded = true then exec .encFrame s = .next { s with fault := true, cause := 8 }
    else if s.inW ≠ 320 ∨ s.inH ≠ 200 then exec .encFrame s = .next { s with fault := true, cause := 1 }
    else ∃ t, exec .encFrame s = .next t
      ∧ (let newpal := decide (s.palEncValid = false ∨ palPack s.palIn ≠ s.palEncLast)
         let tokens := if s.encFirst then keyEncode (s.cur.readBytes 0 s.frameBytes)
           else deltaEncode (s.prev.readBytes 0 s.frameBytes) (s.cur.readBytes 0 s.frameBytes)
         let type : Byte := 0x01 ||| (if newpal then 0x80 else 0) ||| (if s.encFirst then 0x60 else 0)
         let size := 3 + (if newpal then 32 else 0) + tokens.length
         t.wp = s.wp + size
         ∧ t.ostream.readBytes s.wp size
             = le16 (BitVec.ofNat 16 size) ++ [type] ++ (if newpal then (palPack s.palIn).toList else []) ++ tokens
         ∧ (∀ a, a < s.wp ∨ s.wp + size ≤ a → t.ostream.read a = s.ostream.read a)
         ∧ t = { s with ostream := t.ostream, wp := t.wp, prev := s.cur, encFirst := false, palEncValid := true,
                        palEncLast := if newpal then palPack s.palIn else s.palEncLast })

/-- The type byte ENC_FRAME writes is E1 on the first frame, 81 on a later frame with a new palette and 01 on a later frame without, in
every state in which the first frame, and no other, finds no palette emitted (R85, R214). -/
def Obligations.EncFrameTypeByteIsOneOfThree : Prop :=
  ∀ s : State, s.work = .idle → s.fault = false → s.encEnded = false → s.inW = 320 → s.inH = 200 →
    s.outRoom (2 * s.frameBytes + 38) = true → s.palEncValid = !s.encFirst →
    ∃ t, exec .encFrame s = .next t
      ∧ t.ostream.read (s.wp + 2)
          = if s.encFirst then 0xE1 else if palPack s.palIn = s.palEncLast then 0x01 else 0x81

/-- The faults of the encode commands: after ENC_END both are an IllegalCommand; a declared geometry other than 320 by 200 is a
GeometryMismatch; nothing but FAULT and CAUSE changes (R211, R217, R262). -/
def Obligations.EncodeCommandsFault : Prop :=
  ∀ s : State, s.work = .idle → s.fault = false →
    (s.encEnded = true → exec .encFrame s = .next { s with fault := true, cause := 8 }
      ∧ exec .encEnd s = .next { s with fault := true, cause := 8 })
    ∧ (s.encEnded = false → s.inW ≠ 320 ∨ s.inH ≠ 200 → exec .encFrame s = .next { s with fault := true, cause := 1 })

/-- ENC_END appends the sentinel FF FF and sets ENC_ENDED, with no effect while FAULT is 1 and an IllegalCommand when the stream is
already ended; every other byte of OSTREAM and everything else stay (R219). -/
def Obligations.EncEndAppendsTheSentinel : Prop :=
  ∀ s : State, s.work = .idle → s.outRoom 2 = true →
    (s.fault = true → exec .encEnd s = .next s)
    ∧ (s.fault = false → s.encEnded = true → exec .encEnd s = .next { s with fault := true, cause := 8 })
    ∧ (s.fault = false → s.encEnded = false →
        ∃ t, exec .encEnd s = .next t ∧ t.ostream.read s.wp = 0xFF ∧ t.ostream.read (s.wp + 1) = 0xFF
          ∧ (∀ a, a < s.wp ∨ s.wp + 2 ≤ a → t.ostream.read a = s.ostream.read a)
          ∧ t = { s with ostream := t.ostream, wp := s.wp + 2, encEnded := true })

/-- PAL_PACK writes PAL_PK from PAL_IN, alpha not read, with no effect while FAULT is 1; everything else stays (R121, R128). -/
def Obligations.PalPackPacksTheInput : Prop :=
  ∀ s : State, s.work = .idle →
    (s.fault = true → exec .palPack s = .next s)
    ∧ (s.fault = false →
        ∃ t, exec .palPack s = .next t
          ∧ (∀ k (h : k < 16), t.palPk[2 * k] = (s.palIn[k].g &&& 0xF0) ||| (s.palIn[k].b >>> 4)
              ∧ t.palPk[2 * k + 1] = s.palIn[k].r >>> 4)
          ∧ t = { s with palPk := t.palPk })

/-- PAL_UNPACK writes PAL_OUT from PAL_PK: each 4-bit channel times 17, alpha 255, the unused nibble ignored, with no effect while FAULT
is 1; everything else stays (R122, R124, R129). -/
def Obligations.PalUnpackExpandsTheLevels : Prop :=
  ∀ s : State, s.work = .idle →
    (s.fault = true → exec .palUnpack s = .next s)
    ∧ (s.fault = false →
        ∃ t, exec .palUnpack s = .next t
          ∧ (∀ k (h : k < 16), t.palOut[k].g.toNat = 17 * (s.palPk[2 * k].toNat / 16)
              ∧ t.palOut[k].b.toNat = 17 * (s.palPk[2 * k].toNat % 16)
              ∧ t.palOut[k].r.toNat = 17 * (s.palPk[2 * k + 1].toNat % 16)
              ∧ t.palOut[k].a = 255)
          ∧ t = { s with palOut := t.palOut })

/-- The laws of the palette pair: packing loses, unpacking a packed palette is idempotent, packing an unpacked palette gives it back with
its unused nibbles cleared, and a channel comes back as its top 4 bits times 17 (R126). -/
def Obligations.PaletteLaws : Prop :=
  (∃ x, palUnpack (palPack x) ≠ x)
  ∧ (∀ x, palUnpack (palPack (palUnpack (palPack x))) = palUnpack (palPack x))
  ∧ (∀ x, palPack (palUnpack (palPack x)) = palPack x)
  ∧ (∀ q k, (h : k < 16) → (palPack (palUnpack q))[2 * k] = q[2 * k]
      ∧ (palPack (palUnpack q))[2 * k + 1] = q[2 * k + 1] &&& 0x0F)
  ∧ (∀ x k, (h : k < 16) → (palUnpack (palPack x))[k].r.toNat = x[k].r.toNat / 16 * 17
      ∧ (palUnpack (palPack x))[k].g.toNat = x[k].g.toNat / 16 * 17
      ∧ (palUnpack (palPack x))[k].b.toNat = x[k].b.toNat / 16 * 17
      ∧ (palUnpack (palPack x))[k].a = 255)

/-- ABORT records cause 4 or 5 as the host gave it, any other cause is an IllegalCommand, and it has no effect while FAULT is 1
(R232). -/
def Obligations.AbortRecordsTheCause : Prop :=
  ∀ (s : State) (cause : Nibble), s.work = .idle →
    (s.fault = true → exec (.abort cause) s = .next s)
    ∧ (s.fault = false → cause = 4 ∨ cause = 5 → exec (.abort cause) s = .next { s with fault := true, cause := cause })
    ∧ (s.fault = false → cause ≠ 4 → cause ≠ 5 → exec (.abort cause) s = .next { s with fault := true, cause := 8 })

/-- Issuing a reserved command code, 0 or 8 to 15, raises IllegalCommand and changes nothing else (R111, R268). -/
def Obligations.ReservedCommandsAreIllegal : Prop :=
  ∀ s : State, s.work = .idle → s.fault = false →
    exec .cmdRsvd0 s = .next { s with fault := true, cause := 8 }
    ∧ (∀ low, exec (.cmdRsvd8 low) s = .next { s with fault := true, cause := 8 })
    ∧ (∀ code operand rest, code = 0 ∨ 8 ≤ code → s.host = .command code operand :: rest →
        step s = .next { s with fault := true, cause := 8, host := rest })

/-- A fault is sticky and final: every command but RESET, on the port or executed, then has no effect at all; the host's writes are
still accepted, as if there were no fault; RESET clears FAULT and CAUSE with everything else, which is said of the spec's own state and
not of the model's fields `work`, `host` and `params` (R272). -/
def Obligations.FaultsAreSticky : Prop :=
  ∀ s : State, s.work = .idle → s.fault = true →
    (∀ i : Instr, i.format = .command → i ≠ .reset → exec i s = .next s)
    ∧ (∀ code operand rest, code ≠ 1 → s.host = .command code operand :: rest → step s = .next { s with host := rest })
    ∧ (∀ act t, hostAccess act { s with fault := false } = .next t → hostAccess act s = .next { t with fault := true })
    ∧ (∃ t, exec .reset s = .next t ∧ t.fault = false ∧ t.cause = 0
        ∧ { t with work := .idle, host := [], params := s.params } = State.resetWith s.params [])

/-- Taking a fault sets FAULT and writes the cause's code, 1 to 8 in the order of the table of R260, ends the command and changes nothing
else (R15, R260, R270). -/
def Obligations.FaultEntryRecordsTheCause : Prop :=
  ∀ s : State,
    [Cause.geometryMismatch, .truncatedStream, .malformedChunk, .sourceReadFailure, .sinkWriteFailure, .payloadOverrun, .frameOverrun,
        .illegalCommand].map (fun c => raise c s)
      = [(1 : Nibble), 2, 3, 4, 5, 6, 7, 8].map fun code => .next { s with fault := true, cause := code, work := .idle }

/-- STATUS and CAUSE_REG show the flag bits and CAUSE, their other bits read as 0, host writes of them are ignored, and after reset they
read 04 and 00 (R42). -/
def Obligations.StatusShowsTheFlags : Prop :=
  (∀ s : State, (∀ k, s.status.getLsbD k
      = if k = 0 then s.fault else if k = 1 then s.eos else if k = 2 then s.encFirst else if k = 3 then s.encEnded
        else if k = 4 then s.palEncValid else false)
    ∧ s.causeReg.toNat = s.cause.toNat
    ∧ (∀ b, hostAccess (.writeStatus b) s = .next s ∧ hostAccess (.writeCauseReg b) s = .next s))
  ∧ State.reset.status = 0x04 ∧ State.reset.causeReg = 0x00

/-! ### The step and the host -/

/-- A step runs the decoded instruction: a command as it stands on the CMD port, taken off the host's script; inside a command, the record
at RP or the token at `tp`; with nothing to do the block is idle; and DEC_CHUNK is the step of its record (R43, R221, R292). The host's script is the model's choice
(log 2), and so are the steps that run one record or one token inside a command, the model's own device (log 1): in the spec a command is
one atomic step (R9), and so it is in the model for every state between two commands. -/
def Obligations.StepRunsTheDecodedInstruction : Prop :=
  ∀ s : State,
    (s.work = .idle → s.host = [] → step s = .next s)
    ∧ (∀ code operand rest i, s.work = .idle → s.host = .command code operand :: rest →
        decode .command [commandByte code operand] = .ok (i, []) → step s = exec i { s with host := rest })
    ∧ (∀ i tail, s.work = .record → decode .record (s.istream.readBytes s.rp (min (s.ilen - s.rp) 3)) = .ok (i, tail) →
        step s = exec i s)
    ∧ (∀ c i tail, s.work = .tokens c → c.complete s.frameBytes = false →
        decode (.token c.grammar) (s.istream.readBytes (c.base + c.tp) (min (c.len - c.tp) 128)) = .ok (i, tail) → step s = exec i s)
    ∧ (s.work = .idle → s.fault = false → s.eos = false → exec .decChunk s = step { s with work := .record })

/-- The host writes only the stores R49 lets it write: any access that is no command leaves every other field as it was. -/
def Obligations.HostAccessesOnlyHostStores : Prop :=
  ∀ (s t : State) (act : HostAction) (rest : List HostAction), s.work = .idle → s.host = act :: rest →
    (∀ code operand, act ≠ .command code operand) → step s = .next t →
    t = { s with cur := t.cur, palIn := t.palIn, inW := t.inW, inH := t.inH, palPk := t.palPk, istream := t.istream, ilen := t.ilen,
                 host := rest }

/-- A host write of CUR or ISTREAM writes that one byte and nothing else, a host load of pixel indices writes CUR with PixPack of them and
nothing else (R22, R32, R55, R66, R294). The model's choices: an offset CUR does not have stops the model (log 14), a load of a number of
indices other than `2N` is refused (log 15), and a byte of ISTREAM is written at any offset, past ILEN too (log 23). -/
def Obligations.HostWritesOneByte : Prop :=
  ∀ (s : State) (a : Nat) (b : Byte) (rest : List HostAction), s.work = .idle →
    (s.host = .writeCur a b :: rest → a < s.frameBytes →
      ∃ t, step s = .next t ∧ t.cur.read a = b ∧ (∀ x, x ≠ a → t.cur.read x = s.cur.read x) ∧ t = { s with cur := t.cur, host := rest })
    ∧ (s.host = .writeCur a b :: rest → s.frameBytes ≤ a → step s = .fault .noSuchOffset)
    ∧ (s.host = .writeIstream a b :: rest → s.params.icap = none →
        ∃ t, step s = .next t ∧ t.istream.read a = b ∧ (∀ x, x ≠ a → t.istream.read x = s.istream.read x)
          ∧ t = { s with istream := t.istream, host := rest })
    ∧ ∀ indices frame, s.host = .loadPixels indices :: rest → pixPack indices = some frame →
        (frame.length = s.frameBytes →
          ∃ t, step s = .next t ∧ t.cur.readBytes 0 s.frameBytes = frame
            ∧ (∀ x, s.frameBytes ≤ x → t.cur.read x = s.cur.read x) ∧ t = { s with cur := t.cur, host := rest })
        ∧ (frame.length ≠ s.frameBytes → step s = .refused .pixPackUndefined)

/-- A host write of IN_W, IN_H, ILEN, or of a byte of PAL_PK or PAL_IN, writes that and nothing else; the bytes of PAL_IN are the red,
green, blue and alpha of colour 0, then of colour 1, and so on (R24, R25, R31, R32, R57). That a write of ILEN leaves the bytes of ISTREAM
as they are is the model's choice (log 23). -/
def Obligations.HostWritesRegisters : Prop :=
  ∀ (s : State) (rest : List HostAction) (b : Byte) (v : Half) (n : Nat), s.work = .idle →
    (s.host = .writeInW v :: rest → step s = .next { s with inW := v, host := rest })
    ∧ (s.host = .writeInH v :: rest → step s = .next { s with inH := v, host := rest })
    ∧ (s.host = .writeIlen n :: rest → s.params.icap = none → step s = .next { s with ilen := n, host := rest })
    ∧ (∀ k (h : k < 32), s.host = .writePalPk k b :: rest → step s = .next { s with palPk := s.palPk.set k b, host := rest })
    ∧ (∀ k (h : k < 16),
        (s.host = .writePalIn (4 * k) b :: rest →
          step s = .next { s with palIn := s.palIn.set k { s.palIn[k] with r := b }, host := rest })
        ∧ (s.host = .writePalIn (4 * k + 1) b :: rest →
          step s = .next { s with palIn := s.palIn.set k { s.palIn[k] with g := b }, host := rest })
        ∧ (s.host = .writePalIn (4 * k + 2) b :: rest →
          step s = .next { s with palIn := s.palIn.set k { s.palIn[k] with b := b }, host := rest })
        ∧ (s.host = .writePalIn (4 * k + 3) b :: rest →
          step s = .next { s with palIn := s.palIn.set k { s.palIn[k] with a := b }, host := rest }))

/-- No instruction but RESET writes CUR, PAL_IN, IN_W, IN_H, ISTREAM or ILEN, and none but RESET and PAL_PACK writes PAL_PK, the seventh
store the host may write (R49, R69, R128). That none changes what the host does next is the model's choice (log 2). -/
def Obligations.EngineNeverWritesHostStores : Prop :=
  ∀ (i : Instr) (s t : State), i ≠ .reset → exec i s = .next t →
    t.cur = s.cur ∧ t.palIn = s.palIn ∧ t.inW = s.inW ∧ t.inH = s.inH ∧ t.istream = s.istream ∧ t.ilen = s.ilen ∧ t.host = s.host
      ∧ (i ≠ .palPack → t.palPk = s.palPk)

/-- The two halves share only FAULT and CAUSE, PAL_UNPACK aside. ENC_FRAME, ENC_END and PAL_PACK leave the decoder half as it was, and
what they do to the encoder half depends on it, on FAULT and on the parameters alone; DEC_CHUNK leaves the encoder half as it was, and what
it does to the decoder half depends on that half, FAULT and the parameters alone; ABORT and the reserved codes touch neither half.
PAL_UNPACK is the exception: it carries PAL_PK, of the encoder half, into PAL_OUT, of the decoder half, and does nothing else
(R20, R129, R281). -/
def Obligations.HalvesAreIndependent : Prop :=
  (∀ (s t : State) (i : Instr), i = .encFrame ∨ i = .encEnd ∨ i = .palPack → exec i s = .next t → SameDecoderHalf s t)
  ∧ (∀ s t : State, exec .decChunk s = .next t → SameEncoderHalf s t)
  ∧ (∀ (s t : State) (i : Instr), (∃ cause, i = .abort cause) ∨ i = .cmdRsvd0 ∨ (∃ low, i = .cmdRsvd8 low) → exec i s = .next t →
      SameEncoderHalf s t ∧ SameDecoderHalf s t)
  ∧ (∀ (s s' t : State) (i : Instr), i = .encFrame ∨ i = .encEnd ∨ i = .palPack → SameEncoderHalf s s' → SharedByHalves s s' →
      exec i s = .next t →
      ∃ t', exec i s' = .next t' ∧ SameEncoderHalf t t' ∧ t'.fault = t.fault ∧ (s'.cause = s.cause → t'.cause = t.cause))
  ∧ (∀ s s' t : State, SameDecoderHalf s s' → SharedByHalves s s' → exec .decChunk s = .next t →
      ∃ t', exec .decChunk s' = .next t' ∧ SameDecoderHalf t t' ∧ t'.fault = t.fault ∧ (s'.cause = s.cause → t'.cause = t.cause))
  ∧ (∀ s t : State, s.fault = false → exec .palUnpack s = .next t → t = { s with palOut := palUnpack s.palPk })

/-- The open parameters are fixed when the block is built: no step changes them (R282; that they stand in State is the model's choice,
log 4). -/
def Obligations.ParametersNeverChange : Prop :=
  ∀ s t : State, step s = .next t → t.params = s.params

/-! ### Invariants -/

/-- Every step keeps the invariant, from every state that has it: stores in canonical form and inside their frames, FRAMES_OUT the length
of OUT, CAUSE 0 without a fault and a named code with one, the first frame of a pass exactly the one that finds no palette emitted, the
token decoder inside its chunk and its frame (R30, R39, R41, R53, R124, R192). -/
def Obligations.EveryStepKeepsTheInvariant : Prop :=
  ∀ s t : State, s.Inv → step s = .next t → t.Inv

/-- The state after reset has the invariant, for every value of the open parameters and every script of the host (R48, R292). -/
def Obligations.ResetHasTheInvariant : Prop :=
  (∀ (p : Params) (h : List HostAction), (State.resetWith p h).Inv) ∧ State.reset.Inv

/-! ### The encoders and the round trips -/

/-- The shape of KeyEncode's output: literals of 1 to 127 bytes and runs of 3 to 127, then the terminator; the tokens cover the frame
exactly and expand to it; at most `2N + 1` bytes (R145, R148). -/
def Obligations.KeyEncodeShape : Prop :=
  ∀ frame : List Byte, ∃ toks : List Instr,
    keyEncode frame = toks.flatMap Instr.encode ++ [0x00]
    ∧ (∀ i ∈ toks, i.wellFormed = true ∧ ((∃ data, i = .kLit data) ∨ ∃ cnt v, i = .kRun cnt v ∧ 3 ≤ cnt))
    ∧ tokensCount toks = frame.length
    ∧ (∀ old : List Byte, old.length = frame.length → expandTokens toks old = frame)
    ∧ (keyEncode frame).length ≤ 2 * frame.length + 1

/-- The shape of DeltaEncode's output: skips and literals of 1 to 127 and runs of 4 to 255, no reserved form, no terminator; the tokens
cover the frame exactly and turn the previous frame into the current one; at most `2N` bytes (R179). -/
def Obligations.DeltaEncodeShape : Prop :=
  ∀ prev cur : List Byte, prev.length = cur.length → ∃ toks : List Instr,
    deltaEncode prev cur = toks.flatMap Instr.encode
    ∧ (∀ i ∈ toks, i.wellFormed = true ∧ ((∃ cnt, i = .dSkip cnt) ∨ (∃ cnt v, i = .dRun cnt v ∧ 4 ≤ cnt) ∨ ∃ data, i = .dLit data))
    ∧ tokensCount toks = cur.length
    ∧ expandTokens toks prev = cur
    ∧ (deltaEncode prev cur).length ≤ 2 * cur.length

/-- The bound on the chunk size: the size ENC_FRAME writes is between 4 and `2N + 36`, FA24 for the hardware's `N`, below every sentinel
value, in every state (R238). -/
def Obligations.ChunkSizeIsBounded : Prop :=
  (∀ frame : List Byte, (keyEncode frame).length ≤ 2 * frame.length + 1)
  ∧ (∀ prev cur : List Byte, prev.length = cur.length → (deltaEncode prev cur).length ≤ 2 * cur.length)
  ∧ (∀ s : State, 4 ≤ s.frameSize ∧ s.frameSize ≤ 2 * s.frameBytes + 36 ∧ 2 * s.frameBytes + 36 < 0xFF00)
  ∧ State.reset.frameBytes = 32000 ∧ 2 * State.reset.frameBytes + 36 = 0xFA24

/-- Identical frames encode to skips of 127 and one shorter skip for what is left (R180). -/
def Obligations.IdenticalFramesEncodeToSkips : Prop :=
  ∀ frame : List Byte,
    deltaEncode frame frame
      = List.replicate (frame.length / 127) 0x7F
        ++ if frame.length % 127 = 0 then [] else [BitVec.ofNat 8 (frame.length % 127)]

/-- A frame of one value encodes to runs of 127, then a run, or a literal where fewer than 3 bytes are left, and the terminator (R142,
R143, R148). -/
def Obligations.UniformFrameEncodesToRuns : Prop :=
  ∀ (n : Nat) (v : Byte),
    keyEncode (List.replicate n v)
      = (List.replicate (n / 127) [0xFF, v]).flatten
        ++ (if n % 127 = 0 then []
            else if n % 127 < 3 then BitVec.ofNat 8 (n % 127) :: List.replicate (n % 127) v
            else [BitVec.ofNat 8 (128 + n % 127), v])
        ++ [0x00]

/-- The keyframe round trip: DEC_CHUNK on a keyframe chunk holding KeyEncode of a frame, with or without a palette, leaves exactly that frame in
DISP, whatever it held, and hands it out (R158). -/
def Obligations.KeyframeRoundTrip : Prop :=
  ∀ (s : State) (type : Byte) (pal frame : List Byte),
    s.work = .idle → s.fault = false → s.eos = false → type.getLsbD 6 = true → frame.length = s.frameBytes →
    pal.length = (if type.getLsbD 7 then 32 else 0) →
    (let size := 3 + pal.length + (keyEncode frame).length
     s.rp + size ≤ s.ilen ∧ s.istream.readBytes s.rp size = le16 (BitVec.ofNat 16 size) ++ [type] ++ pal ++ keyEncode frame) →
    ∃ t, exec .decChunk s = .next t ∧ t.disp.readBytes 0 s.frameBytes = frame ∧ t.fault = false
      ∧ t.rp = s.rp + (3 + pal.length + (keyEncode frame).length) ∧ t.framesOut = s.framesOut + 1
      ∧ t.out = s.out ++ [⟨palUnpack t.palDec, t.disp⟩]

/-- The delta round trip: DEC_CHUNK on a delta chunk holding DeltaEncode of two frames, with DISP holding the previous one, leaves exactly
the current frame in DISP and hands it out (R195). -/
def Obligations.DeltaRoundTrip : Prop :=
  ∀ (s : State) (type : Byte) (pal frame : List Byte),
    s.work = .idle → s.fault = false → s.eos = false → type.getLsbD 6 = false → frame.length = s.frameBytes →
    pal.length = (if type.getLsbD 7 then 32 else 0) →
    (let tokens := deltaEncode (s.disp.readBytes 0 s.frameBytes) frame
     let size := 3 + pal.length + tokens.length
     s.rp + size ≤ s.ilen ∧ s.istream.readBytes s.rp size = le16 (BitVec.ofNat 16 size) ++ [type] ++ pal ++ tokens) →
    ∃ t, exec .decChunk s = .next t ∧ t.disp.readBytes 0 s.frameBytes = frame ∧ t.fault = false
      ∧ t.rp = s.rp + (3 + pal.length + (deltaEncode (s.disp.readBytes 0 s.frameBytes) frame).length)
      ∧ t.framesOut = s.framesOut + 1 ∧ t.out = s.out ++ [⟨palUnpack t.palDec, t.disp⟩]

/-- The chunk ENC_FRAME appends decodes to the frame and palette it was given: in a decoder whose display holds the encoder's previous
frame (unless this is the first) and whose palette is the last one emitted (if any was), DEC_CHUNK on those bytes hands out CUR with the
palette `unpack(pack(PAL_IN))` (R158, R195, R231). -/
def Obligations.EncodedChunkDecodesToTheFrame : Prop :=
  ∀ s t d : State,
    s.work = .idle → s.fault = false → s.encEnded = false → s.inW = 320 → s.inH = 200 →
    s.outRoom (2 * s.frameBytes + 38) = true → exec .encFrame s = .next t →
    d.work = .idle → d.fault = false → d.eos = false → d.params.frame = s.params.frame →
    d.rp + (t.wp - s.wp) ≤ d.ilen → d.istream.readBytes d.rp (t.wp - s.wp) = t.ostream.readBytes s.wp (t.wp - s.wp) →
    (s.encFirst = false → d.disp.readBytes 0 s.frameBytes = s.prev.readBytes 0 s.frameBytes) →
    (s.palEncValid = true → d.palDec = s.palEncLast) →
    ∃ u, exec .decChunk d = .next u ∧ u.fault = false
      ∧ u.disp.readBytes 0 s.frameBytes = s.cur.readBytes 0 s.frameBytes
      ∧ u.palDec = palPack s.palIn ∧ u.palOut = palUnpack (palPack s.palIn)
      ∧ u.rp = d.rp + (t.wp - s.wp) ∧ u.framesOut = d.framesOut + 1 ∧ u.out = d.out ++ [⟨palUnpack (palPack s.palIn), u.disp⟩]

/-- The stream round trip: for every sequence of frames and palettes, decoding the encoded stream ends with success and hands out every
frame as it was and every palette as `unpack(pack(original))`, whatever the display buffer and the palette held at reset; the output
stream store is unbounded, as the rules of the spec treat it, and the input stream store holds the stream (R231, R302). -/
def Obligations.StreamRoundTrip : Prop :=
  ∀ (p q : Params) (frames : List (UnpackedPalette × List Byte)),
    p.ocap = none → q.frame = p.frame → (∀ f ∈ frames, f.2.length = p.frame.bytes) →
    ∃ bytes, encodeStream p frames = some bytes
      ∧ ((∀ cap, q.icap = some cap → bytes.length ≤ cap) →
          ∃ t, decodeStream q bytes = .next t
            ∧ t.eos = true ∧ t.fault = false ∧ t.framesOut = frames.length
            ∧ t.out = frames.map fun f => ⟨palUnpack (palPack f.1), Memory.ofBytes f.2⟩)

/-! ### Pixels -/

/-- PixUnpack gives `2N` indices below 16, the even pixel from the high nibble; PixPack, defined exactly for an even number of indices
below 16, is its inverse; a host load of indices for which it is undefined is refused (R54, R55). -/
def Obligations.PixelViewsAreInverse : Prop :=
  (∀ frame : List Byte, (pixUnpack frame).length = 2 * frame.length ∧ (∀ x ∈ pixUnpack frame, x < 16)
    ∧ ∀ k (h : k < frame.length), (pixUnpack frame)[2 * k]? = some (frame[k] >>> 4)
      ∧ (pixUnpack frame)[2 * k + 1]? = some (frame[k] &&& 0x0F))
  ∧ (∀ frame : List Byte, pixPack (pixUnpack frame) = some frame)
  ∧ (∀ indices frame : List Byte, pixPack indices = some frame → pixUnpack frame = indices)
  ∧ (∀ indices : List Byte, (∃ frame, pixPack indices = some frame) ↔ indices.length % 2 = 0 ∧ ∀ x ∈ indices, x < 16)
  ∧ ∀ (indices : List Byte) (s : State), pixPack indices = none → hostAccess (.loadPixels indices) s = .refused .pixPackUndefined

/-- The pixel of column `x` and row `y` is byte `y*160 + x/2`, the even pixel in the high nibble, and stands at index `320*y + x` of the
8-bit view (R51, R52, R54). -/
def Obligations.PixelLayoutIsRowMajor : Prop :=
  ∀ (m : Memory) (x y : Nat), x < 320 → y < 200 →
    (pixUnpack (m.readBytes 0 32000))[320 * y + x]? = some ((pixelAt m x y).setWidth 8)
    ∧ (pixelAt m x y).toNat
        = if x % 2 = 0 then (m.read (y * 160 + x / 2)).toNat / 16 else (m.read (y * 160 + x / 2)).toNat % 16

/-! ### Token-level faults and finite stores -/

/-- A token-level fault inside a chunk: the chunk's tokens `toks`, none of them K.END, cover at most `N` bytes (in a delta chunk fewer, so
that the frame is not finished), and what follows in the chunk is no whole token, or a token whose count exceeds the room left. DISP then
holds what the earlier tokens wrote and nothing of the faulting one, PAL_DEC the chunk's palette if it has one, FAULT and CAUSE the fault,
and everything else is as before the command (R266, R267, R269, R271). -/
def Obligations.TokenFaultsKeepEarlierWrites : Prop :=
  ∀ (s : State) (size : Half) (type : Byte) (toks : List Instr) (tail : List Byte),
    s.work = .idle → s.fault = false → s.eos = false →
    size = unLE16 (s.istream.read s.rp) (s.istream.read (s.rp + 1)) → 3 ≤ size → size < 0xFF00 → s.rp + size.toNat ≤ s.ilen →
    type = s.istream.read (s.rp + 2) → (type.getLsbD 7 = true → 35 ≤ size.toNat) →
    (let g : Grammar := if type.getLsbD 6 then .key else .delta
     let header := if type.getLsbD 7 then 35 else 3
     let room := s.frameBytes - tokensCount toks
     let Left (code : Nibble) : Prop :=
       ∃ t, exec .decChunk s = .next t
         ∧ t.disp.readBytes 0 s.frameBytes = expandTokens toks (s.disp.readBytes 0 s.frameBytes)
         ∧ (∀ a, s.frameBytes ≤ a → t.disp.read a = s.disp.read a)
         ∧ (type.getLsbD 7 = true → t.palDec.toList = s.istream.readBytes (s.rp + 3) 32)
         ∧ (type.getLsbD 7 = false → t.palDec = s.palDec)
         ∧ t = { s with disp := t.disp, palDec := t.palDec, fault := true, cause := code }
     (∀ i ∈ toks, i.format = .token g ∧ i.wellFormed = true ∧ i ≠ .kEnd) →
     tokensCount toks ≤ s.frameBytes → (g = .delta → tokensCount toks < s.frameBytes) →
     s.istream.readBytes (s.rp + header) (size.toNat - header) = toks.flatMap Instr.encode ++ tail →
     (decode (.token g) tail = .error .missingByte → Left 6)
     ∧ (∀ i rest, decode (.token g) tail = .ok (i, rest) → room < tokenCount i → Left 7))

/-- What a finite capacity does, the model's choice where R302 only requires of the host and entry U6 of the spec says refuse (log 13):
with too little room ENC_FRAME and ENC_END are refused, after the tests that raise a fault; a host write of ISTREAM or ILEN is refused
exactly beyond ICAP; and a stream longer than ICAP is not decoded. -/
def Obligations.FiniteCapacitiesAreRefused : Prop :=
  (∀ (s : State) (cap : Nat), s.work = .idle → s.fault = false → s.encEnded = false → s.params.ocap = some cap →
    (s.inW = 320 → s.inH = 200 → cap < s.wp + (2 * s.frameBytes + 38) → exec .encFrame s = .refused .ostreamCapacity)
    ∧ (cap < s.wp + 2 → exec .encEnd s = .refused .ostreamCapacity))
  ∧ (∀ (s : State) (cap : Nat), s.params.icap = some cap →
    (∀ a b, hostAccess (.writeIstream a b) s
      = if a < cap then .next { s with istream := s.istream.write a b } else .refused .istreamCapacity)
    ∧ (∀ n, hostAccess (.writeIlen n) s = if n ≤ cap then .next { s with ilen := n } else .refused .istreamCapacity))
  ∧ ∀ (q : Params) (bytes : List Byte) (cap : Nat), q.icap = some cap → cap < bytes.length →
      decodeStream q bytes = .refused .istreamCapacity
end

