-- ==== Sys2Proof/Laws/Decode.lean ====
section
/-! SUPPORT. The small laws of the bytes that the decoder and the encoder share. -/

namespace Sys2Proof

theorem unLE16_le16 (v : Half) : unLE16 (v.extractLsb' 0 8) (v.extractLsb' 8 8) = v := by
  unfold unLE16
  ext i hi
  simp only [BitVec.getElem_append, BitVec.getElem_extractLsb']
  split
  · rw [Nat.zero_add, BitVec.getLsbD_eq_getElem]
  · rw [Nat.add_sub_cancel' (by omega), BitVec.getLsbD_eq_getElem]

theorem unLE16_getLsbD (lo hi : Byte) (i : Nat) :
    (unLE16 lo hi).getLsbD i = if i < 8 then lo.getLsbD i else hi.getLsbD (i - 8) :=
  BitVec.getLsbD_append

theorem le16_unLE16 (lo hi : Byte) : le16 (unLE16 lo hi) = [lo, hi] := by
  have h0 : (unLE16 lo hi).extractLsb' 0 8 = lo := by
    apply BitVec.eq_of_getLsbD_eq
    intro i h
    simp [unLE16_getLsbD, h, BitVec.getLsbD_eq_getElem]
  have h1 : (unLE16 lo hi).extractLsb' 8 8 = hi := by
    apply BitVec.eq_of_getLsbD_eq
    intro i h
    simp [unLE16_getLsbD, h, BitVec.getLsbD_eq_getElem]
  rw [le16, h0, h1]

@[simp] theorem length_le16 (v : Half) : (le16 v).length = 2 := rfl

theorem unLE16_toNat (lo hi : Byte) : (unLE16 lo hi).toNat = lo.toNat + 256 * hi.toNat := by
  unfold unLE16
  rw [BitVec.toNat_append, Nat.shiftLeft_eq, Nat.mul_comm, ← Nat.two_pow_add_eq_or_of_lt lo.isLt]
  omega

theorem controlByte_mode (m : BitVec 1) (c : BitVec 7) : (controlByte m c).getLsbD 7 = m.getLsbD 0 := by
  revert m c
  decide

theorem controlByte_count (m : BitVec 1) (c : BitVec 7) : (controlByte m c).extractLsb' 0 7 = c := by
  revert m c
  decide

theorem controlByte_zero_iff (c : BitVec 7) : controlByte 0 c = 0 ↔ c = 0 := by
  revert c
  decide

theorem controlByte_one_iff (c : BitVec 7) : controlByte 1 c = 0x80 ↔ c = 0 := by
  revert c
  decide

theorem controlByte_one_ne_zero (c : BitVec 7) : controlByte 1 c ≠ 0 := by
  revert c
  decide

theorem controlByte_zero_toNat (c : BitVec 7) : (controlByte 0 c).toNat = c.toNat := by
  revert c
  decide

/-- A control byte is its mode bit over its count. -/
theorem controlByte_of_byte (b : Byte) : controlByte (BitVec.ofBool (b.getLsbD 7)) (b.extractLsb' 0 7) = b := by
  revert b
  decide

theorem commandByte_code (code operand : Nibble) : (commandByte code operand).extractLsb' 0 4 = code := by
  revert code operand
  decide

theorem commandByte_operand (code operand : Nibble) : (commandByte code operand).extractLsb' 4 4 = operand := by
  revert code operand
  decide

/-- A literal of `n` bytes with at least `n` bytes given. -/
theorem decodeLiteral_append (mk : List Byte → Instr) (data rest : List Byte) :
    decodeLiteral mk data.length (data ++ rest) = .ok (mk data, rest) := by
  simp [decodeLiteral]

end Sys2Proof
end

