-- ==== Sys2Proof/Laws/Encoder.lean ====
section
/-! SUPPORT. What the scans of the two encoders can answer: bounds, and what the scanned bytes are. -/

namespace Sys2Proof.Machine

theorem runLength_le (cap : Nat) (v : Byte) (l : List Byte) : runLength cap v l ≤ cap ∧ runLength cap v l ≤ l.length := by
  induction cap generalizing l with
  | zero => simp [runLength]
  | succ cap ih =>
    cases l with
    | nil => simp [runLength]
    | cons x t =>
      have := ih t
      rw [runLength]
      split <;> simp only [List.length_cons] <;> omega

/-- The bytes of a run are its value. -/
theorem runLength_take (cap : Nat) (v : Byte) (l : List Byte) :
    l.take (runLength cap v l) = List.replicate (runLength cap v l) v := by
  induction cap generalizing l with
  | zero => simp [runLength]
  | succ cap ih =>
    cases l with
    | nil => simp [runLength]
    | cons x t =>
      rw [runLength]
      split
      · rename_i hx
        subst hx
        rw [Nat.add_comm, List.take_succ_cons, ih, List.replicate_succ]
      · simp

/-- A run of three is found by the run scan. -/
theorem three_le_runLength (cap : Nat) (x y z : Byte) (t : List Byte) (h : startsRun (x :: y :: z :: t) = true) (hc : 3 ≤ cap) :
    3 ≤ runLength cap x (x :: y :: z :: t) := by
  obtain ⟨cap, rfl⟩ := Nat.exists_eq_add_of_le hc
  simp only [startsRun, Bool.and_eq_true, decide_eq_true_eq] at h
  obtain ⟨rfl, rfl⟩ := h
  rw [Nat.add_comm]
  simp only [runLength, if_true]
  omega

theorem keyLiteralScan_le (cap : Nat) (l : List Byte) : keyLiteralScan cap l ≤ cap ∧ keyLiteralScan cap l ≤ l.length := by
  induction cap generalizing l with
  | zero => simp [keyLiteralScan]
  | succ cap ih =>
    cases l with
    | nil => simp [keyLiteralScan]
    | cons x t =>
      have := ih t
      rw [keyLiteralScan]
      split <;> simp only [List.length_cons] <;> omega

theorem matchLength_le (cap : Nat) (l : List Pair) : matchLength cap l ≤ cap ∧ matchLength cap l ≤ l.length := by
  induction cap generalizing l with
  | zero => simp [matchLength]
  | succ cap ih =>
    cases l with
    | nil => simp [matchLength]
    | cons x t =>
      have := ih t
      rw [matchLength]
      split <;> simp only [List.length_cons] <;> omega

/-- The frames agree at the positions the skip scan passes. -/
theorem matchLength_take (cap : Nat) (l : List Pair) : ∀ x ∈ l.take (matchLength cap l), x.1 = x.2 := by
  induction cap generalizing l with
  | zero => simp [matchLength]
  | succ cap ih =>
    cases l with
    | nil => simp [matchLength]
    | cons x t =>
      rw [matchLength]
      split
      · rename_i hx
        rw [Nat.add_comm, List.take_succ_cons]
        intro y hy
        rcases List.mem_cons.mp hy with rfl | hy
        · exact hx
        · exact ih t y hy
      · simp

theorem deltaLiteralScan_le (cap : Nat) (l : List Pair) :
    deltaLiteralScan cap l ≤ cap ∧ deltaLiteralScan cap l ≤ l.length := by
  induction cap generalizing l with
  | zero => simp [deltaLiteralScan]
  | succ cap ih =>
    cases l with
    | nil => simp [deltaLiteralScan]
    | cons x t =>
      have := ih t
      rw [deltaLiteralScan]
      split <;> simp only [List.length_cons] <;> omega

end Sys2Proof.Machine
end

