-- ==== Sys2Proof/Laws/Memory.lean ====
section
/-! SUPPORT. The laws of byte stores: read after write, and the canonical form is kept by every operation. -/

namespace Sys2Proof.Machine

/-! ### Reading -/

@[simp] theorem Memory.read_nil (a : Nat) : Memory.read [] a = Memory.unlisted := rfl

theorem Memory.read_cons (x : Nat) (y : Byte) (t : Memory) (a : Nat) :
    Memory.read ((x, y) :: t) a = if a = x then y else Memory.read t a := rfl

/-- Reading a store made of two parts: the first part decides unless none of its cells is at the offset. -/
theorem Memory.read_append_of_absent (m1 m2 : Memory) (a : Nat) (h : ∀ c ∈ m1, c.1 ≠ a) :
    Memory.read (m1 ++ m2) a = Memory.read m2 a := by
  induction m1 with
  | nil => rfl
  | cons c t ih =>
    obtain ⟨x, y⟩ := c
    have hx : a ≠ x := fun e => h (x, y) (List.mem_cons_self ..) e.symm
    rw [List.cons_append, Memory.read_cons, if_neg hx]
    exact ih fun c hc => h c (List.mem_cons_of_mem _ hc)

/-- The second part does not matter at an offset none of its cells is at. -/
theorem Memory.read_append_of_absent_right (m1 m2 : Memory) (a : Nat) (h : ∀ c ∈ m2, c.1 ≠ a) :
    Memory.read (m1 ++ m2) a = Memory.read m1 a := by
  induction m1 with
  | nil =>
    have := Memory.read_append_of_absent m2 [] a h
    simpa using this
  | cons c t ih =>
    obtain ⟨x, y⟩ := c
    rw [List.cons_append, Memory.read_cons, Memory.read_cons, ih]

/-- Taking out cells at other offsets does not change what an offset reads as. -/
theorem Memory.read_filter (m : Memory) (p : Host.Cell → Bool) (a : Nat) (h : ∀ c : Host.Cell, c.1 = a → p c = true) :
    Memory.read (m.filter p) a = Memory.read m a := by
  induction m with
  | nil => rfl
  | cons c t ih =>
    obtain ⟨x, y⟩ := c
    by_cases hp : p (x, y) = true
    · rw [List.filter_cons_of_pos hp, Memory.read_cons, Memory.read_cons, ih]
    · have hx : a ≠ x := fun e => hp (h (x, y) e.symm)
      rw [List.filter_cons_of_neg hp, Memory.read_cons, if_neg hx, ih]

/-! ### Cells of a byte sequence -/

theorem Memory.mem_consCell {a : Nat} {b : Byte} {t : Memory} {c : Host.Cell} (h : c ∈ Memory.consCell a b t) :
    c = (a, b) ∨ c ∈ t := by
  unfold Memory.consCell at h
  split at h
  · exact .inr h
  · simpa using h

theorem Memory.mem_cells {bytes : List Byte} {a : Nat} {c : Host.Cell} (h : c ∈ Memory.cells a bytes) :
    a ≤ c.1 ∧ c.1 < a + bytes.length := by
  induction bytes generalizing a with
  | nil => simp [Memory.cells] at h
  | cons b rest ih =>
    rcases Memory.mem_consCell h with rfl | h
    · simp
    · have := ih h
      simp only [List.length_cons]
      omega

theorem Memory.read_consCell (a x : Nat) (b : Byte) (t : Memory) (h : ∀ c ∈ t, c.1 ≠ x) :
    Memory.read (Memory.consCell x b t) a = if a = x then b else Memory.read t a := by
  unfold Memory.consCell
  split
  · rename_i hb
    split
    · rename_i ha
      subst ha
      have := Memory.read_append_of_absent t [] a h
      rw [List.append_nil] at this
      rw [this, hb]
      rfl
    · rfl
  · rfl

/-- What the cells of a byte sequence read as. -/
theorem Memory.read_cells (bytes : List Byte) (a x : Nat) :
    Memory.read (Memory.cells a bytes) x =
      if a ≤ x ∧ x < a + bytes.length then bytes.getD (x - a) 0 else Memory.unlisted := by
  induction bytes generalizing a with
  | nil =>
    rw [if_neg (by simp only [List.length_nil]; omega)]
    rfl
  | cons b rest ih =>
    have habs : ∀ c ∈ Memory.cells (a + 1) rest, c.1 ≠ a := fun c hc => by
      have := Memory.mem_cells hc
      omega
    rw [Memory.cells, Memory.read_consCell _ _ _ _ habs, ih]
    by_cases hx : x = a
    · subst hx
      simp
    · simp only [List.length_cons, hx, if_false]
      by_cases hin : a + 1 ≤ x ∧ x < a + 1 + rest.length
      · rw [if_pos hin, if_pos (by omega)]
        have : x - a = (x - (a + 1)) + 1 := by omega
        rw [this]
        rfl
      · rw [if_neg hin, if_neg (by omega)]

/-! ### Read after write -/

/-- Read after write, both ways: the written bytes at their offsets, every other offset as before. -/
theorem Memory.read_writeBytes (m : Memory) (a x : Nat) (bytes : List Byte) :
    (m.writeBytes a bytes).read x =
      if a ≤ x ∧ x < a + bytes.length then bytes.getD (x - a) 0 else m.read x := by
  unfold Memory.writeBytes
  by_cases hlt : x < a
  · rw [if_neg (by omega), Memory.read_append_of_absent_right, Memory.read_append_of_absent_right,
      Memory.read_filter]
    · intro c hc
      simpa [hc] using hlt
    · intro c hc
      have := Memory.mem_cells hc
      omega
    · intro c hc
      have := (List.mem_filter.mp hc).2
      simp only [decide_eq_true_eq] at this
      omega
  · rw [List.append_assoc, Memory.read_append_of_absent _ _ _ (fun c hc => by
      have := (List.mem_filter.mp hc).2
      simp only [decide_eq_true_eq] at this
      omega)]
    by_cases hin : x < a + bytes.length
    · rw [Memory.read_append_of_absent_right, Memory.read_cells]
      · rw [if_pos (by omega), if_pos (by omega)]
      · intro c hc
        have := (List.mem_filter.mp hc).2
        simp only [decide_eq_true_eq] at this
        omega
    · rw [Memory.read_append_of_absent _ _ _ (fun c hc => by
        have := Memory.mem_cells hc
        omega), if_neg (by omega), Memory.read_filter]
      intro c hc
      simpa [hc] using hin

/-- Reading an offset outside the written bytes. -/
theorem Memory.read_writeBytes_outside (m : Memory) (a x : Nat) (bytes : List Byte) (h : x < a ∨ a + bytes.length ≤ x) :
    (m.writeBytes a bytes).read x = m.read x := by
  rw [Memory.read_writeBytes, if_neg (by omega)]

/-- Reading an offset among the written bytes. -/
theorem Memory.read_writeBytes_inside (m : Memory) (a i : Nat) (bytes : List Byte) (h : i < bytes.length) :
    (m.writeBytes a bytes).read (a + i) = bytes[i] := by
  rw [Memory.read_writeBytes, if_pos (by omega), Nat.add_sub_cancel_left]
  simp [h]

theorem Memory.read_write (m : Memory) (a x : Nat) (b : Byte) :
    (m.write a b).read x = if x = a then b else m.read x := by
  unfold Memory.write
  rw [Memory.read_writeBytes]
  by_cases h : x = a
  · subst h
    simp
  · rw [if_neg (by simp only [List.length_cons, List.length_nil]; omega), if_neg h]

theorem Memory.read_ofBytes (bytes : List Byte) (x : Nat) :
    (Memory.ofBytes bytes).read x = bytes.getD x 0 := by
  unfold Memory.ofBytes
  rw [Memory.read_writeBytes]
  by_cases h : x < bytes.length
  · rw [if_pos (by omega), Nat.sub_zero]
  · rw [if_neg (by omega)]
    simp [List.getD, h, Memory.unlisted]

/-! ### Reading a sequence -/

theorem Memory.read_dropWhile (m : Memory) (a x : Nat) (h : a ≤ x) :
    Memory.read (m.dropWhile fun cell => decide (cell.1 < a)) x = m.read x := by
  induction m with
  | nil => rfl
  | cons c t ih =>
    obtain ⟨y, v⟩ := c
    by_cases hy : y < a
    · rw [List.dropWhile_cons_of_pos (by simpa using hy), ih, Memory.read_cons, if_neg (by omega)]
    · rw [List.dropWhile_cons_of_neg (by simpa using hy)]

@[simp] theorem Memory.length_readBytes (m : Memory) (a n : Nat) : (m.readBytes a n).length = n := by
  induction n generalizing m a with
  | zero => rfl
  | succ n ih => simp [Memory.readBytes, ih]

/-- `readBytes` reads byte by byte. -/
theorem Memory.readBytes_eq_map (m : Memory) (a n : Nat) :
    m.readBytes a n = (List.range n).map fun i => m.read (a + i) := by
  induction n generalizing m a with
  | zero => rfl
  | succ n ih =>
    rw [Memory.readBytes, ih, List.range_succ_eq_map, List.map_cons, List.map_map]
    refine congrArg₂ _ ?_ ?_
    · exact Memory.read_dropWhile m a a (Nat.le_refl a)
    · apply List.map_congr_left
      intro i _
      rw [Memory.read_dropWhile _ _ _ (by omega)]
      simp only [Function.comp_apply]
      congr 1
      omega

theorem Memory.getElem_readBytes (m : Memory) (a n i : Nat) (h : i < (m.readBytes a n).length) :
    (m.readBytes a n)[i] = m.read (a + i) := by
  simp [Memory.readBytes_eq_map]

theorem Memory.readBytes_add (m : Memory) (a n k : Nat) :
    m.readBytes a (n + k) = m.readBytes a n ++ m.readBytes (a + n) k := by
  simp only [Memory.readBytes_eq_map, List.range_add, List.map_append, List.map_map, Function.comp_def, Nat.add_assoc]

theorem Memory.readBytes_congr (m m' : Memory) (a n : Nat) (h : ∀ i < n, m.read (a + i) = m'.read (a + i)) :
    m.readBytes a n = m'.readBytes a n := by
  rw [Memory.readBytes_eq_map, Memory.readBytes_eq_map]
  exact List.map_congr_left fun i hi => h i (List.mem_range.mp hi)

/-- The bytes just written. -/
theorem Memory.readBytes_writeBytes (m : Memory) (a : Nat) (bytes : List Byte) :
    (m.writeBytes a bytes).readBytes a bytes.length = bytes := by
  apply List.ext_getElem
  · simp
  · intro i h1 h2
    rw [Memory.getElem_readBytes, Memory.read_writeBytes_inside _ _ _ _ h2]

/-! ### The canonical form -/

theorem Memory.wfAbove_iff (lo : Option Nat) (m : Memory) :
    m.wfAbove lo = true ↔
      (∀ l, lo = some l → ∀ c ∈ m, l < c.1) ∧ m.Pairwise (fun c d => c.1 < d.1) ∧ ∀ c ∈ m, c.2 ≠ Memory.unlisted := by
  induction m generalizing lo with
  | nil => simp [Memory.wfAbove]
  | cons c t ih =>
    obtain ⟨x, y⟩ := c
    simp only [Memory.wfAbove, Bool.and_eq_true, decide_eq_true_eq, ih, List.pairwise_cons, List.mem_cons, forall_eq_or_imp,
      Option.some.injEq, forall_eq']
    cases lo with
    | none => simp; tauto
    | some l =>
      simp only [decide_eq_true_eq, Option.some.injEq, forall_eq']
      constructor
      · rintro ⟨⟨h1, h2⟩, h3, h4, h5⟩
        exact ⟨⟨h1, fun c hc => by have := h3 c hc; omega⟩, ⟨h3, h4⟩, h2, h5⟩
      · rintro ⟨⟨h1, _⟩, ⟨h3, h4⟩, h2, h5⟩
        exact ⟨⟨h1, h2⟩, h3, h4, h5⟩

/-- The canonical form: offsets strictly rising, no cell equal to what an unlisted offset reads as. -/
theorem Memory.wf_iff (m : Memory) :
    m.wf = true ↔ m.Pairwise (fun c d => c.1 < d.1) ∧ ∀ c ∈ m, c.2 ≠ Memory.unlisted := by
  simp [Memory.wf, Memory.wfAbove_iff]

theorem Memory.cells_wf (a : Nat) (bytes : List Byte) :
    (Memory.cells a bytes).Pairwise (fun c d => c.1 < d.1) ∧ ∀ c ∈ Memory.cells a bytes, c.2 ≠ Memory.unlisted := by
  induction bytes generalizing a with
  | nil => simp [Memory.cells]
  | cons b rest ih =>
    obtain ⟨h1, h2⟩ := ih (a + 1)
    rw [Memory.cells, Memory.consCell]
    split
    · exact ⟨h1, h2⟩
    · rename_i hb
      refine ⟨List.pairwise_cons.mpr ⟨fun c hc => ?_, h1⟩, fun c hc => ?_⟩
      · have := Memory.mem_cells hc
        simp only
        omega
      · rcases List.mem_cons.mp hc with rfl | hc
        · exact hb
        · exact h2 c hc

/-- Writing keeps the canonical form. -/
theorem Memory.writeBytes_wf (m : Memory) (a : Nat) (bytes : List Byte) (h : m.wf = true) :
    (m.writeBytes a bytes).wf = true := by
  rw [Memory.wf_iff] at h ⊢
  obtain ⟨h1, h2⟩ := h
  obtain ⟨c1, c2⟩ := Memory.cells_wf a bytes
  constructor
  · rw [Memory.writeBytes, List.pairwise_append, List.pairwise_append]
    refine ⟨⟨h1.filter _, c1, fun c hc d hd => ?_⟩, h1.filter _, fun c hc d hd => ?_⟩
    · have := (List.mem_filter.mp hc).2
      have := Memory.mem_cells hd
      simp only [decide_eq_true_eq] at *
      omega
    · have h3 := (List.mem_filter.mp hd).2
      simp only [decide_eq_true_eq] at h3
      rcases List.mem_append.mp hc with hc | hc
      · have := (List.mem_filter.mp hc).2
        simp only [decide_eq_true_eq] at this
        omega
      · have := Memory.mem_cells hc
        omega
  · intro c hc
    rcases List.mem_append.mp hc with hc | hc
    · rcases List.mem_append.mp hc with hc | hc
      · exact h2 c (List.mem_filter.mp hc).1
      · exact c2 c hc
    · exact h2 c (List.mem_filter.mp hc).1

theorem Memory.write_wf (m : Memory) (a : Nat) (b : Byte) (h : m.wf = true) : (m.write a b).wf = true :=
  Memory.writeBytes_wf m a [b] h

theorem Memory.ofBytes_wf (bytes : List Byte) : (Memory.ofBytes bytes).wf = true :=
  Memory.writeBytes_wf [] 0 bytes rfl

/-- Writing below `n` keeps every cell below `n`. -/
theorem Memory.writeBytes_within (m : Memory) (a n : Nat) (bytes : List Byte) (h : m.within n = true)
    (hn : a + bytes.length ≤ n) : (m.writeBytes a bytes).within n = true := by
  rw [Memory.within, List.all_eq_true] at h ⊢
  intro c hc
  rcases List.mem_append.mp hc with hc | hc
  · rcases List.mem_append.mp hc with hc | hc
    · exact h c (List.mem_filter.mp hc).1
    · have := Memory.mem_cells hc
      simp only [decide_eq_true_eq]
      omega
  · exact h c (List.mem_filter.mp hc).1

theorem Memory.write_within (m : Memory) (a n : Nat) (b : Byte) (h : m.within n = true) (hn : a < n) :
    (m.write a b).within n = true :=
  Memory.writeBytes_within m a n [b] h hn

theorem Memory.ofBytes_within (bytes : List Byte) (n : Nat) (h : bytes.length ≤ n) : (Memory.ofBytes bytes).within n = true :=
  Memory.writeBytes_within [] 0 n bytes rfl (by omega)

theorem Memory.within_mono (m : Memory) (n k : Nat) (h : m.within n = true) (hnk : n ≤ k) : m.within k = true := by
  rw [Memory.within, List.all_eq_true] at h ⊢
  intro c hc
  have := h c hc
  simp only [decide_eq_true_eq] at this ⊢
  omega

/-- A store reads 0 beyond its last cell. -/
theorem Memory.read_of_within (m : Memory) (n a : Nat) (h : m.within n = true) (ha : n ≤ a) : m.read a = Memory.unlisted := by
  have habs : ∀ c ∈ m, c.1 ≠ a := fun c hc => by
    have := List.all_eq_true.mp h c hc
    simp only [decide_eq_true_eq] at this
    omega
  have := Memory.read_append_of_absent m [] a habs
  rwa [List.append_nil] at this

/-! ### Equal reads make equal stores -/

theorem Memory.read_of_mem {m : Memory} (h : m.wf = true) {c : Host.Cell} (hc : c ∈ m) : m.read c.1 = c.2 := by
  rw [Memory.wf_iff] at h
  obtain ⟨h1, -⟩ := h
  induction m with
  | nil => simp at hc
  | cons d t ih =>
    obtain ⟨hd, ht⟩ := List.pairwise_cons.mp h1
    rcases List.mem_cons.mp hc with rfl | hc
    · simp [Memory.read]
    · have := hd c hc
      rw [Memory.read_cons, if_neg (by omega)]
      exact ih hc ht

/-- In canonical form, stores that read alike are the same data. -/
theorem Memory.ext_of_wf {m m' : Memory} (h : m.wf = true) (h' : m'.wf = true) (hr : ∀ a, m.read a = m'.read a) : m = m' := by
  induction m generalizing m' with
  | nil =>
    cases m' with
    | nil => rfl
    | cons c t =>
      have h1 := Memory.read_of_mem h' (List.mem_cons_self ..)
      have h2 := ((Memory.wf_iff _).mp h').2 c (List.mem_cons_self ..)
      exact absurd (h1.symm.trans (hr c.1).symm) h2
  | cons c t ih =>
    cases m' with
    | nil =>
      have h1 := Memory.read_of_mem h (List.mem_cons_self ..)
      have h2 := ((Memory.wf_iff _).mp h).2 c (List.mem_cons_self ..)
      exact absurd (h1.symm.trans (hr c.1)) h2
    | cons d u =>
      obtain ⟨p, n⟩ := (Memory.wf_iff _).mp h
      obtain ⟨p', n'⟩ := (Memory.wf_iff _).mp h'
      obtain ⟨pc, pt⟩ := List.pairwise_cons.mp p
      obtain ⟨pd, pu⟩ := List.pairwise_cons.mp p'
      have hc := Memory.read_of_mem h (List.mem_cons_self ..)
      have hd := Memory.read_of_mem h' (List.mem_cons_self ..)
      have low : ∀ {e : Host.Cell} {w : Memory} (a : Nat), a < e.1 → (∀ x ∈ w, e.1 < x.1) → Memory.read (e :: w) a = Memory.unlisted := by
        intro e w a ha hw
        have := Memory.read_append_of_absent (e :: w) [] a (fun x hx => by
          rcases List.mem_cons.mp hx with rfl | hx
          · omega
          · have := hw x hx
            omega)
        rwa [List.append_nil] at this
      have e1 : c.1 = d.1 := by
        rcases Nat.lt_trichotomy c.1 d.1 with hlt | heq | hgt
        · exact absurd ((hc.symm.trans (hr c.1)).trans (low c.1 hlt pd)) (n c (List.mem_cons_self ..))
        · exact heq
        · exact absurd ((hd.symm.trans (hr d.1).symm).trans (low d.1 hgt pc)) (n' d (List.mem_cons_self ..))
      have e2 : c.2 = d.2 := by rw [← hc, ← hd, hr, e1]
      obtain rfl : c = d := Prod.ext e1 e2
      congr 1
      apply ih ((Memory.wf_iff _).mpr ⟨pt, fun x hx => n x (List.mem_cons_of_mem _ hx)⟩)
        ((Memory.wf_iff _).mpr ⟨pu, fun x hx => n' x (List.mem_cons_of_mem _ hx)⟩)
      intro a
      by_cases ha : a = c.1
      · subst ha
        have ht := Memory.read_append_of_absent t [] c.1 (fun x hx => by have := pc x hx; omega)
        have hu := Memory.read_append_of_absent u [] c.1 (fun x hx => by have := pd x hx; omega)
        rw [List.append_nil] at ht hu
        rw [ht, hu]
      · have := hr a
        rwa [Memory.read_cons, Memory.read_cons, if_neg ha, if_neg ha] at this

end Sys2Proof.Machine
end

