-- ==== Sys2Proof/Laws/State.lean ====
section
/-! SUPPORT. What each named update of the state leaves in each field, true by definition, so that no later proof unfolds a record
update. -/

namespace Sys2Proof.Machine

/-! ### `State.faulted` -/

@[simp] theorem State.faulted_cur (s : State) (c : Cause) : (s.faulted c).cur = s.cur := rfl
@[simp] theorem State.faulted_prev (s : State) (c : Cause) : (s.faulted c).prev = s.prev := rfl
@[simp] theorem State.faulted_palIn (s : State) (c : Cause) : (s.faulted c).palIn = s.palIn := rfl
@[simp] theorem State.faulted_inW (s : State) (c : Cause) : (s.faulted c).inW = s.inW := rfl
@[simp] theorem State.faulted_inH (s : State) (c : Cause) : (s.faulted c).inH = s.inH := rfl
@[simp] theorem State.faulted_palEncLast (s : State) (c : Cause) : (s.faulted c).palEncLast = s.palEncLast := rfl
@[simp] theorem State.faulted_palEncValid (s : State) (c : Cause) : (s.faulted c).palEncValid = s.palEncValid := rfl
@[simp] theorem State.faulted_encFirst (s : State) (c : Cause) : (s.faulted c).encFirst = s.encFirst := rfl
@[simp] theorem State.faulted_encEnded (s : State) (c : Cause) : (s.faulted c).encEnded = s.encEnded := rfl
@[simp] theorem State.faulted_ostream (s : State) (c : Cause) : (s.faulted c).ostream = s.ostream := rfl
@[simp] theorem State.faulted_wp (s : State) (c : Cause) : (s.faulted c).wp = s.wp := rfl
@[simp] theorem State.faulted_palPk (s : State) (c : Cause) : (s.faulted c).palPk = s.palPk := rfl
@[simp] theorem State.faulted_istream (s : State) (c : Cause) : (s.faulted c).istream = s.istream := rfl
@[simp] theorem State.faulted_ilen (s : State) (c : Cause) : (s.faulted c).ilen = s.ilen := rfl
@[simp] theorem State.faulted_disp (s : State) (c : Cause) : (s.faulted c).disp = s.disp := rfl
@[simp] theorem State.faulted_palDec (s : State) (c : Cause) : (s.faulted c).palDec = s.palDec := rfl
@[simp] theorem State.faulted_palOut (s : State) (c : Cause) : (s.faulted c).palOut = s.palOut := rfl
@[simp] theorem State.faulted_rp (s : State) (c : Cause) : (s.faulted c).rp = s.rp := rfl
@[simp] theorem State.faulted_eos (s : State) (c : Cause) : (s.faulted c).eos = s.eos := rfl
@[simp] theorem State.faulted_framesOut (s : State) (c : Cause) : (s.faulted c).framesOut = s.framesOut := rfl
@[simp] theorem State.faulted_out (s : State) (c : Cause) : (s.faulted c).out = s.out := rfl
@[simp] theorem State.faulted_fault (s : State) (c : Cause) : (s.faulted c).fault = true := rfl
@[simp] theorem State.faulted_cause (s : State) (c : Cause) : (s.faulted c).cause = c.code := rfl
@[simp] theorem State.faulted_work (s : State) (c : Cause) : (s.faulted c).work = .idle := rfl
@[simp] theorem State.faulted_host (s : State) (c : Cause) : (s.faulted c).host = s.host := rfl
@[simp] theorem State.faulted_params (s : State) (c : Cause) : (s.faulted c).params = s.params := rfl
@[simp] theorem State.faulted_frameBytes (s : State) (c : Cause) : (s.faulted c).frameBytes = s.frameBytes := rfl

/-! ### `State.advanceToken` -/

@[simp] theorem State.advanceToken_cur (s : State) (c : TokenRun) (len cnt : Nat) : (s.advanceToken c len cnt).cur = s.cur := rfl
@[simp] theorem State.advanceToken_prev (s : State) (c : TokenRun) (len cnt : Nat) : (s.advanceToken c len cnt).prev = s.prev := rfl
@[simp] theorem State.advanceToken_palIn (s : State) (c : TokenRun) (len cnt : Nat) : (s.advanceToken c len cnt).palIn = s.palIn := rfl
@[simp] theorem State.advanceToken_inW (s : State) (c : TokenRun) (len cnt : Nat) : (s.advanceToken c len cnt).inW = s.inW := rfl
@[simp] theorem State.advanceToken_inH (s : State) (c : TokenRun) (len cnt : Nat) : (s.advanceToken c len cnt).inH = s.inH := rfl
@[simp] theorem State.advanceToken_palEncLast (s : State) (c : TokenRun) (len cnt : Nat) : (s.advanceToken c len cnt).palEncLast = s.palEncLast := rfl
@[simp] theorem State.advanceToken_palEncValid (s : State) (c : TokenRun) (len cnt : Nat) : (s.advanceToken c len cnt).palEncValid = s.palEncValid := rfl
@[simp] theorem State.advanceToken_encFirst (s : State) (c : TokenRun) (len cnt : Nat) : (s.advanceToken c len cnt).encFirst = s.encFirst := rfl
@[simp] theorem State.advanceToken_encEnded (s : State) (c : TokenRun) (len cnt : Nat) : (s.advanceToken c len cnt).encEnded = s.encEnded := rfl
@[simp] theorem State.advanceToken_ostream (s : State) (c : TokenRun) (len cnt : Nat) : (s.advanceToken c len cnt).ostream = s.ostream := rfl
@[simp] theorem State.advanceToken_wp (s : State) (c : TokenRun) (len cnt : Nat) : (s.advanceToken c len cnt).wp = s.wp := rfl
@[simp] theorem State.advanceToken_palPk (s : State) (c : TokenRun) (len cnt : Nat) : (s.advanceToken c len cnt).palPk = s.palPk := rfl
@[simp] theorem State.advanceToken_istream (s : State) (c : TokenRun) (len cnt : Nat) : (s.advanceToken c len cnt).istream = s.istream := rfl
@[simp] theorem State.advanceToken_ilen (s : State) (c : TokenRun) (len cnt : Nat) : (s.advanceToken c len cnt).ilen = s.ilen := rfl
@[simp] theorem State.advanceToken_disp (s : State) (c : TokenRun) (len cnt : Nat) : (s.advanceToken c len cnt).disp = s.disp := rfl
@[simp] theorem State.advanceToken_palDec (s : State) (c : TokenRun) (len cnt : Nat) : (s.advanceToken c len cnt).palDec = s.palDec := rfl
@[simp] theorem State.advanceToken_palOut (s : State) (c : TokenRun) (len cnt : Nat) : (s.advanceToken c len cnt).palOut = s.palOut := rfl
@[simp] theorem State.advanceToken_rp (s : State) (c : TokenRun) (len cnt : Nat) : (s.advanceToken c len cnt).rp = s.rp := rfl
@[simp] theorem State.advanceToken_eos (s : State) (c : TokenRun) (len cnt : Nat) : (s.advanceToken c len cnt).eos = s.eos := rfl
@[simp] theorem State.advanceToken_framesOut (s : State) (c : TokenRun) (len cnt : Nat) : (s.advanceToken c len cnt).framesOut = s.framesOut := rfl
@[simp] theorem State.advanceToken_out (s : State) (c : TokenRun) (len cnt : Nat) : (s.advanceToken c len cnt).out = s.out := rfl
@[simp] theorem State.advanceToken_fault (s : State) (c : TokenRun) (len cnt : Nat) : (s.advanceToken c len cnt).fault = s.fault := rfl
@[simp] theorem State.advanceToken_cause (s : State) (c : TokenRun) (len cnt : Nat) : (s.advanceToken c len cnt).cause = s.cause := rfl
@[simp] theorem State.advanceToken_work (s : State) (c : TokenRun) (len cnt : Nat) : (s.advanceToken c len cnt).work = .tokens { c with tp := c.tp + len, op := c.op + cnt } := rfl
@[simp] theorem State.advanceToken_host (s : State) (c : TokenRun) (len cnt : Nat) : (s.advanceToken c len cnt).host = s.host := rfl
@[simp] theorem State.advanceToken_params (s : State) (c : TokenRun) (len cnt : Nat) : (s.advanceToken c len cnt).params = s.params := rfl
@[simp] theorem State.advanceToken_frameBytes (s : State) (c : TokenRun) (len cnt : Nat) : (s.advanceToken c len cnt).frameBytes = s.frameBytes := rfl

/-! ### `State.startTokens` -/

@[simp] theorem State.startTokens_cur (s : State) (g : Grammar) (base len size : Nat) : (s.startTokens g base len size).cur = s.cur := rfl
@[simp] theorem State.startTokens_prev (s : State) (g : Grammar) (base len size : Nat) : (s.startTokens g base len size).prev = s.prev := rfl
@[simp] theorem State.startTokens_palIn (s : State) (g : Grammar) (base len size : Nat) : (s.startTokens g base len size).palIn = s.palIn := rfl
@[simp] theorem State.startTokens_inW (s : State) (g : Grammar) (base len size : Nat) : (s.startTokens g base len size).inW = s.inW := rfl
@[simp] theorem State.startTokens_inH (s : State) (g : Grammar) (base len size : Nat) : (s.startTokens g base len size).inH = s.inH := rfl
@[simp] theorem State.startTokens_palEncLast (s : State) (g : Grammar) (base len size : Nat) : (s.startTokens g base len size).palEncLast = s.palEncLast := rfl
@[simp] theorem State.startTokens_palEncValid (s : State) (g : Grammar) (base len size : Nat) : (s.startTokens g base len size).palEncValid = s.palEncValid := rfl
@[simp] theorem State.startTokens_encFirst (s : State) (g : Grammar) (base len size : Nat) : (s.startTokens g base len size).encFirst = s.encFirst := rfl
@[simp] theorem State.startTokens_encEnded (s : State) (g : Grammar) (base len size : Nat) : (s.startTokens g base len size).encEnded = s.encEnded := rfl
@[simp] theorem State.startTokens_ostream (s : State) (g : Grammar) (base len size : Nat) : (s.startTokens g base len size).ostream = s.ostream := rfl
@[simp] theorem State.startTokens_wp (s : State) (g : Grammar) (base len size : Nat) : (s.startTokens g base len size).wp = s.wp := rfl
@[simp] theorem State.startTokens_palPk (s : State) (g : Grammar) (base len size : Nat) : (s.startTokens g base len size).palPk = s.palPk := rfl
@[simp] theorem State.startTokens_istream (s : State) (g : Grammar) (base len size : Nat) : (s.startTokens g base len size).istream = s.istream := rfl
@[simp] theorem State.startTokens_ilen (s : State) (g : Grammar) (base len size : Nat) : (s.startTokens g base len size).ilen = s.ilen := rfl
@[simp] theorem State.startTokens_disp (s : State) (g : Grammar) (base len size : Nat) : (s.startTokens g base len size).disp = s.disp := rfl
@[simp] theorem State.startTokens_palDec (s : State) (g : Grammar) (base len size : Nat) : (s.startTokens g base len size).palDec = s.palDec := rfl
@[simp] theorem State.startTokens_palOut (s : State) (g : Grammar) (base len size : Nat) : (s.startTokens g base len size).palOut = s.palOut := rfl
@[simp] theorem State.startTokens_rp (s : State) (g : Grammar) (base len size : Nat) : (s.startTokens g base len size).rp = s.rp := rfl
@[simp] theorem State.startTokens_eos (s : State) (g : Grammar) (base len size : Nat) : (s.startTokens g base len size).eos = s.eos := rfl
@[simp] theorem State.startTokens_framesOut (s : State) (g : Grammar) (base len size : Nat) : (s.startTokens g base len size).framesOut = s.framesOut := rfl
@[simp] theorem State.startTokens_out (s : State) (g : Grammar) (base len size : Nat) : (s.startTokens g base len size).out = s.out := rfl
@[simp] theorem State.startTokens_fault (s : State) (g : Grammar) (base len size : Nat) : (s.startTokens g base len size).fault = s.fault := rfl
@[simp] theorem State.startTokens_cause (s : State) (g : Grammar) (base len size : Nat) : (s.startTokens g base len size).cause = s.cause := rfl
@[simp] theorem State.startTokens_work (s : State) (g : Grammar) (base len size : Nat) : (s.startTokens g base len size).work = .tokens { grammar := g, base := base, len := len, tp := 0, op := 0, size := size, ended := false } := rfl
@[simp] theorem State.startTokens_host (s : State) (g : Grammar) (base len size : Nat) : (s.startTokens g base len size).host = s.host := rfl
@[simp] theorem State.startTokens_params (s : State) (g : Grammar) (base len size : Nat) : (s.startTokens g base len size).params = s.params := rfl
@[simp] theorem State.startTokens_frameBytes (s : State) (g : Grammar) (base len size : Nat) : (s.startTokens g base len size).frameBytes = s.frameBytes := rfl

/-! ### `State.appendOut` -/

@[simp] theorem State.appendOut_cur (s : State) (bytes : List Byte) : (s.appendOut bytes).cur = s.cur := rfl
@[simp] theorem State.appendOut_prev (s : State) (bytes : List Byte) : (s.appendOut bytes).prev = s.prev := rfl
@[simp] theorem State.appendOut_palIn (s : State) (bytes : List Byte) : (s.appendOut bytes).palIn = s.palIn := rfl
@[simp] theorem State.appendOut_inW (s : State) (bytes : List Byte) : (s.appendOut bytes).inW = s.inW := rfl
@[simp] theorem State.appendOut_inH (s : State) (bytes : List Byte) : (s.appendOut bytes).inH = s.inH := rfl
@[simp] theorem State.appendOut_palEncLast (s : State) (bytes : List Byte) : (s.appendOut bytes).palEncLast = s.palEncLast := rfl
@[simp] theorem State.appendOut_palEncValid (s : State) (bytes : List Byte) : (s.appendOut bytes).palEncValid = s.palEncValid := rfl
@[simp] theorem State.appendOut_encFirst (s : State) (bytes : List Byte) : (s.appendOut bytes).encFirst = s.encFirst := rfl
@[simp] theorem State.appendOut_encEnded (s : State) (bytes : List Byte) : (s.appendOut bytes).encEnded = s.encEnded := rfl
@[simp] theorem State.appendOut_ostream (s : State) (bytes : List Byte) : (s.appendOut bytes).ostream = s.ostream.writeBytes s.wp bytes := rfl
@[simp] theorem State.appendOut_wp (s : State) (bytes : List Byte) : (s.appendOut bytes).wp = s.wp + bytes.length := rfl
@[simp] theorem State.appendOut_palPk (s : State) (bytes : List Byte) : (s.appendOut bytes).palPk = s.palPk := rfl
@[simp] theorem State.appendOut_istream (s : State) (bytes : List Byte) : (s.appendOut bytes).istream = s.istream := rfl
@[simp] theorem State.appendOut_ilen (s : State) (bytes : List Byte) : (s.appendOut bytes).ilen = s.ilen := rfl
@[simp] theorem State.appendOut_disp (s : State) (bytes : List Byte) : (s.appendOut bytes).disp = s.disp := rfl
@[simp] theorem State.appendOut_palDec (s : State) (bytes : List Byte) : (s.appendOut bytes).palDec = s.palDec := rfl
@[simp] theorem State.appendOut_palOut (s : State) (bytes : List Byte) : (s.appendOut bytes).palOut = s.palOut := rfl
@[simp] theorem State.appendOut_rp (s : State) (bytes : List Byte) : (s.appendOut bytes).rp = s.rp := rfl
@[simp] theorem State.appendOut_eos (s : State) (bytes : List Byte) : (s.appendOut bytes).eos = s.eos := rfl
@[simp] theorem State.appendOut_framesOut (s : State) (bytes : List Byte) : (s.appendOut bytes).framesOut = s.framesOut := rfl
@[simp] theorem State.appendOut_out (s : State) (bytes : List Byte) : (s.appendOut bytes).out = s.out := rfl
@[simp] theorem State.appendOut_fault (s : State) (bytes : List Byte) : (s.appendOut bytes).fault = s.fault := rfl
@[simp] theorem State.appendOut_cause (s : State) (bytes : List Byte) : (s.appendOut bytes).cause = s.cause := rfl
@[simp] theorem State.appendOut_work (s : State) (bytes : List Byte) : (s.appendOut bytes).work = s.work := rfl
@[simp] theorem State.appendOut_host (s : State) (bytes : List Byte) : (s.appendOut bytes).host = s.host := rfl
@[simp] theorem State.appendOut_params (s : State) (bytes : List Byte) : (s.appendOut bytes).params = s.params := rfl
@[simp] theorem State.appendOut_frameBytes (s : State) (bytes : List Byte) : (s.appendOut bytes).frameBytes = s.frameBytes := rfl

/-! ### `State.finishRecord` -/

@[simp] theorem State.finishRecord_cur (s : State) (size : Nat) : (s.finishRecord size).cur = s.cur := rfl
@[simp] theorem State.finishRecord_prev (s : State) (size : Nat) : (s.finishRecord size).prev = s.prev := rfl
@[simp] theorem State.finishRecord_palIn (s : State) (size : Nat) : (s.finishRecord size).palIn = s.palIn := rfl
@[simp] theorem State.finishRecord_inW (s : State) (size : Nat) : (s.finishRecord size).inW = s.inW := rfl
@[simp] theorem State.finishRecord_inH (s : State) (size : Nat) : (s.finishRecord size).inH = s.inH := rfl
@[simp] theorem State.finishRecord_palEncLast (s : State) (size : Nat) : (s.finishRecord size).palEncLast = s.palEncLast := rfl
@[simp] theorem State.finishRecord_palEncValid (s : State) (size : Nat) : (s.finishRecord size).palEncValid = s.palEncValid := rfl
@[simp] theorem State.finishRecord_encFirst (s : State) (size : Nat) : (s.finishRecord size).encFirst = s.encFirst := rfl
@[simp] theorem State.finishRecord_encEnded (s : State) (size : Nat) : (s.finishRecord size).encEnded = s.encEnded := rfl
@[simp] theorem State.finishRecord_ostream (s : State) (size : Nat) : (s.finishRecord size).ostream = s.ostream := rfl
@[simp] theorem State.finishRecord_wp (s : State) (size : Nat) : (s.finishRecord size).wp = s.wp := rfl
@[simp] theorem State.finishRecord_palPk (s : State) (size : Nat) : (s.finishRecord size).palPk = s.palPk := rfl
@[simp] theorem State.finishRecord_istream (s : State) (size : Nat) : (s.finishRecord size).istream = s.istream := rfl
@[simp] theorem State.finishRecord_ilen (s : State) (size : Nat) : (s.finishRecord size).ilen = s.ilen := rfl
@[simp] theorem State.finishRecord_disp (s : State) (size : Nat) : (s.finishRecord size).disp = s.disp := rfl
@[simp] theorem State.finishRecord_palDec (s : State) (size : Nat) : (s.finishRecord size).palDec = s.palDec := rfl
@[simp] theorem State.finishRecord_palOut (s : State) (size : Nat) : (s.finishRecord size).palOut = palUnpack s.palDec := rfl
@[simp] theorem State.finishRecord_rp (s : State) (size : Nat) : (s.finishRecord size).rp = s.rp + size := rfl
@[simp] theorem State.finishRecord_eos (s : State) (size : Nat) : (s.finishRecord size).eos = s.eos := rfl
@[simp] theorem State.finishRecord_framesOut (s : State) (size : Nat) : (s.finishRecord size).framesOut = s.framesOut + 1 := rfl
@[simp] theorem State.finishRecord_out (s : State) (size : Nat) : (s.finishRecord size).out = s.out ++ [⟨palUnpack s.palDec, s.disp⟩] := rfl
@[simp] theorem State.finishRecord_fault (s : State) (size : Nat) : (s.finishRecord size).fault = s.fault := rfl
@[simp] theorem State.finishRecord_cause (s : State) (size : Nat) : (s.finishRecord size).cause = s.cause := rfl
@[simp] theorem State.finishRecord_work (s : State) (size : Nat) : (s.finishRecord size).work = .idle := rfl
@[simp] theorem State.finishRecord_host (s : State) (size : Nat) : (s.finishRecord size).host = s.host := rfl
@[simp] theorem State.finishRecord_params (s : State) (size : Nat) : (s.finishRecord size).params = s.params := rfl
@[simp] theorem State.finishRecord_frameBytes (s : State) (size : Nat) : (s.finishRecord size).frameBytes = s.frameBytes := rfl

/-! ### `State.afterFrame` -/

@[simp] theorem State.afterFrame_cur (s : State) : (s.afterFrame).cur = s.cur := rfl
@[simp] theorem State.afterFrame_prev (s : State) : (s.afterFrame).prev = s.cur := rfl
@[simp] theorem State.afterFrame_palIn (s : State) : (s.afterFrame).palIn = s.palIn := rfl
@[simp] theorem State.afterFrame_inW (s : State) : (s.afterFrame).inW = s.inW := rfl
@[simp] theorem State.afterFrame_inH (s : State) : (s.afterFrame).inH = s.inH := rfl
@[simp] theorem State.afterFrame_palEncLast (s : State) : (s.afterFrame).palEncLast = if s.newPalette then palPack s.palIn else s.palEncLast := rfl
@[simp] theorem State.afterFrame_palEncValid (s : State) : (s.afterFrame).palEncValid = (s.newPalette || s.palEncValid) := rfl
@[simp] theorem State.afterFrame_encFirst (s : State) : (s.afterFrame).encFirst = false := rfl
@[simp] theorem State.afterFrame_encEnded (s : State) : (s.afterFrame).encEnded = s.encEnded := rfl
@[simp] theorem State.afterFrame_ostream (s : State) : (s.afterFrame).ostream = s.ostream.writeBytes s.wp s.frameChunk := rfl
@[simp] theorem State.afterFrame_wp (s : State) : (s.afterFrame).wp = s.wp + s.frameChunk.length := rfl
@[simp] theorem State.afterFrame_palPk (s : State) : (s.afterFrame).palPk = s.palPk := rfl
@[simp] theorem State.afterFrame_istream (s : State) : (s.afterFrame).istream = s.istream := rfl
@[simp] theorem State.afterFrame_ilen (s : State) : (s.afterFrame).ilen = s.ilen := rfl
@[simp] theorem State.afterFrame_disp (s : State) : (s.afterFrame).disp = s.disp := rfl
@[simp] theorem State.afterFrame_palDec (s : State) : (s.afterFrame).palDec = s.palDec := rfl
@[simp] theorem State.afterFrame_palOut (s : State) : (s.afterFrame).palOut = s.palOut := rfl
@[simp] theorem State.afterFrame_rp (s : State) : (s.afterFrame).rp = s.rp := rfl
@[simp] theorem State.afterFrame_eos (s : State) : (s.afterFrame).eos = s.eos := rfl
@[simp] theorem State.afterFrame_framesOut (s : State) : (s.afterFrame).framesOut = s.framesOut := rfl
@[simp] theorem State.afterFrame_out (s : State) : (s.afterFrame).out = s.out := rfl
@[simp] theorem State.afterFrame_fault (s : State) : (s.afterFrame).fault = s.fault := rfl
@[simp] theorem State.afterFrame_cause (s : State) : (s.afterFrame).cause = s.cause := rfl
@[simp] theorem State.afterFrame_work (s : State) : (s.afterFrame).work = s.work := rfl
@[simp] theorem State.afterFrame_host (s : State) : (s.afterFrame).host = s.host := rfl
@[simp] theorem State.afterFrame_params (s : State) : (s.afterFrame).params = s.params := rfl
@[simp] theorem State.afterFrame_frameBytes (s : State) : (s.afterFrame).frameBytes = s.frameBytes := rfl

/-! ### Reset -/

@[simp] theorem State.afterReset_params (s : State) : s.afterReset.params = s.params := rfl
@[simp] theorem State.afterReset_host (s : State) : s.afterReset.host = s.host := rfl
@[simp] theorem State.afterReset_work (s : State) : s.afterReset.work = .idle := rfl
@[simp] theorem State.afterReset_fault (s : State) : s.afterReset.fault = false := rfl
@[simp] theorem State.afterReset_frameBytes (s : State) : s.afterReset.frameBytes = s.frameBytes := rfl

end Sys2Proof.Machine
end

