-- ==== Sys2Proof/Laws/Ops.lean ====
section
/-! SUPPORT. What each shared operation of Machine/Ops.lean can do, said once. -/

namespace Sys2Proof.Machine

/-! ### Causes and command dispatch -/

theorem Cause.code_ne_zero (c : Cause) : c.code ≠ 0 := by cases c <;> decide

theorem Cause.code_inj (c d : Cause) (h : c.code = d.code) : c = d := by cases c <;> cases d <;> first | rfl | (revert h; decide)

theorem raise_eq (c : Cause) (s : State) : raise c s = .next (s.faulted c) := rfl

/-- Between commands and without a fault, a command is its body. -/
theorem command_run (s : State) (body : State → Result) (hw : s.work = .idle) (hf : s.fault = false) :
    command s body = body s := by
  simp [command, hw, hf]

/-- Between commands and with a fault recorded, a command has no effect. -/
theorem command_sticky (s : State) (body : State → Result) (hw : s.work = .idle) (hf : s.fault = true) :
    command s body = .next s := by
  simp [command, hw, hf]

/-- If a command answers a next state, the engine was between commands, and the command was without effect or its body ran. -/
theorem command_cases {s t : State} {body : State → Result} (h : command s body = .next t) :
    s.work = .idle ∧ ((s.fault = true ∧ t = s) ∨ (s.fault = false ∧ body s = .next t)) := by
  unfold command at h
  split at h
  · rename_i hw
    refine ⟨hw, ?_⟩
    split at h
    · rename_i hf
      exact .inl ⟨hf, by simpa using h.symm⟩
    · rename_i hf
      exact .inr ⟨by simpa using hf, h⟩
  · cases h
  · cases h

/-! ### Palettes -/

theorem palPack_even (u : UnpackedPalette) (k : Nat) (h : k < 16) :
    (palPack u)[2 * k] = (u[k].g &&& 0xF0) ||| (u[k].b >>> 4) := by
  have h1 : 2 * k / 2 = k := by omega
  have h2 : 2 * k % 2 = 0 := by omega
  simp [palPack, packedByte, h1, h2]

theorem palPack_odd (u : UnpackedPalette) (k : Nat) (h : k < 16) : (palPack u)[2 * k + 1] = u[k].r >>> 4 := by
  have h1 : (2 * k + 1) / 2 = k := by omega
  have h2 : (2 * k + 1) % 2 = 1 := by omega
  simp [palPack, packedByte, h1, h2]

theorem palUnpack_get (q : PackedPalette) (k : Nat) (h : k < 16) :
    (palUnpack q)[k] = unpackedColour q[2 * k] q[2 * k + 1] := by
  simp [palUnpack]

theorem palEq_iff (q1 q2 : PackedPalette) : palEq q1 q2 = true ↔ q1 = q2 := by simp [palEq]

/-! ### Streams and hand-out -/

/-- Appending leaves every byte below WP as it was. -/
theorem State.appendOut_read_below (s : State) (bytes : List Byte) (a : Nat) (h : a < s.wp) :
    (s.appendOut bytes).ostream.read a = s.ostream.read a :=
  Memory.read_writeBytes_outside _ _ _ _ (.inl h)

/-- The appended bytes stand at WP. -/
theorem State.appendOut_readBytes (s : State) (bytes : List Byte) :
    (s.appendOut bytes).ostream.readBytes s.wp bytes.length = bytes :=
  Memory.readBytes_writeBytes _ _ _

/-! ### Host accesses -/

/-- A host access changes only the host-writable stores of R49, and each by a write of its own. -/
theorem hostAccess_cases {act : HostAction} {s t : State} (h : hostAccess act s = .next t) :
    t = s
    ∨ (∃ a b, a < s.frameBytes ∧ t = { s with cur := s.cur.write a b })
    ∨ (∃ f : List Byte, f.length = s.frameBytes ∧ t = { s with cur := s.cur.writeBytes 0 f })
    ∨ (∃ p, t = { s with palIn := p })
    ∨ (∃ v, t = { s with inW := v })
    ∨ (∃ v, t = { s with inH := v })
    ∨ (∃ p, t = { s with palPk := p })
    ∨ (∃ a b, s.inCapacity (a + 1) = true ∧ t = { s with istream := s.istream.write a b })
    ∨ (∃ n, s.inCapacity n = true ∧ t = { s with ilen := n }) := by
  cases act with
  | command code operand => exact .inl (by simpa [hostAccess] using h.symm)
  | writeCur a b =>
    simp only [hostAccess] at h
    split at h
    · rename_i ha
      exact .inr (.inl ⟨a, b, ha, by simpa using h.symm⟩)
    · cases h
  | loadPixels indices =>
    simp only [hostAccess] at h
    split at h
    · cases h
    · rename_i f _
      split at h
      · rename_i hf
        exact .inr (.inr (.inl ⟨f, hf, by simpa using h.symm⟩))
      · cases h
  | writePalIn a b =>
    simp only [hostAccess] at h
    split at h
    · exact .inr (.inr (.inr (.inl ⟨_, by simpa using h.symm⟩)))
    · cases h
  | writeInW v => exact .inr (.inr (.inr (.inr (.inl ⟨v, by simpa [hostAccess] using h.symm⟩))))
  | writeInH v => exact .inr (.inr (.inr (.inr (.inr (.inl ⟨v, by simpa [hostAccess] using h.symm⟩)))))
  | writePalPk a b =>
    simp only [hostAccess] at h
    split at h
    · exact .inr (.inr (.inr (.inr (.inr (.inr (.inl ⟨_, by simpa using h.symm⟩))))))
    · cases h
  | writeIstream a b =>
    simp only [hostAccess] at h
    split at h
    · rename_i ha
      exact .inr (.inr (.inr (.inr (.inr (.inr (.inr (.inl ⟨a, b, ha, by simpa using h.symm⟩)))))))
    · cases h
  | writeIlen n =>
    simp only [hostAccess] at h
    split at h
    · rename_i hn
      exact .inr (.inr (.inr (.inr (.inr (.inr (.inr (.inr ⟨n, hn, by simpa using h.symm⟩)))))))
    · cases h
  | writeStatus b => exact .inl (by simpa [hostAccess] using h.symm)
  | writeCauseReg b => exact .inl (by simpa [hostAccess] using h.symm)

end Sys2Proof.Machine
end

