-- ==== Sys2Proof/Laws/Passes.lean ====
section
/-! SUPPORT. What loading a frame or a stream can do, said once, and the passes from there. -/

namespace Sys2Proof.Machine

/-- A frame of `N` bytes is loaded with its palette and the declared geometry, and nothing else changes. -/
theorem State.loadFrame_run (s : State) (palette : UnpackedPalette) (frame : List Byte) (h : frame.length = s.frameBytes) :
    s.loadFrame palette frame = .next { s with palIn := palette, cur := s.cur.writeBytes 0 frame, inW := 320, inH := 200 } := by
  simp [State.loadFrame, h]

/-- If a load of a frame answers a next state, the frame has `N` bytes and is loaded. -/
theorem State.loadFrame_cases {s t : State} {palette : UnpackedPalette} {frame : List Byte} (h : s.loadFrame palette frame = .next t) :
    frame.length = s.frameBytes
      ∧ t = { s with palIn := palette, cur := s.cur.writeBytes 0 frame, inW := 320, inH := 200 } := by
  unfold State.loadFrame at h
  split at h
  · rename_i hn
    exact ⟨hn, by simpa using h.symm⟩
  · cases h

/-- A loaded frame reads back from CUR, and CUR past `N` is as it was. -/
theorem State.loadFrame_cur {s t : State} {palette : UnpackedPalette} {frame : List Byte} (h : s.loadFrame palette frame = .next t) :
    t.cur.readBytes 0 s.frameBytes = frame ∧ ∀ a, s.frameBytes ≤ a → t.cur.read a = s.cur.read a := by
  obtain ⟨hn, rfl⟩ := State.loadFrame_cases h
  rw [← hn]
  exact ⟨Memory.readBytes_writeBytes _ _ _, fun a ha => Memory.read_writeBytes_outside _ _ _ _ (.inr (by omega))⟩

/-- A stream within the capacity is loaded from offset 0 on, and nothing else changes. -/
theorem State.loadStream_run (s : State) (bytes : List Byte) (h : s.inCapacity bytes.length = true) :
    s.loadStream bytes = .next { s with istream := s.istream.writeBytes 0 bytes, ilen := bytes.length } := by
  simp [State.loadStream, h]

/-- If a load answers a next state, the stream was within the capacity and is loaded. -/
theorem State.loadStream_cases {s t : State} {bytes : List Byte} (h : s.loadStream bytes = .next t) :
    s.inCapacity bytes.length = true ∧ t = { s with istream := s.istream.writeBytes 0 bytes, ilen := bytes.length } := by
  unfold State.loadStream at h
  split at h
  · rename_i hc
    exact ⟨hc, by simpa using h.symm⟩
  · cases h

/-- The bytes of a loaded stream read back. -/
theorem State.loadStream_readBytes {s t : State} {bytes : List Byte} (h : s.loadStream bytes = .next t) :
    t.istream.readBytes 0 t.ilen = bytes := by
  obtain ⟨-, rfl⟩ := State.loadStream_cases h
  exact Memory.readBytes_writeBytes _ _ _

/-- A capacity test holds exactly within a finite `ICAP`. -/
theorem State.inCapacity_iff (s : State) (n : Nat) : s.inCapacity n = true ↔ ∀ cap, s.params.icap = some cap → n ≤ cap := by
  unfold State.inCapacity
  split <;> simp_all

/-- Room in OSTREAM is exactly room within a finite `OCAP`. -/
theorem State.outRoom_iff (s : State) (n : Nat) : s.outRoom n = true ↔ ∀ cap, s.params.ocap = some cap → s.wp + n ≤ cap := by
  unfold State.outRoom
  split <;> simp_all

/-- The decode pass of a stream that was loaded. -/
theorem decodeStream_run {p : Params} {bytes : List Byte} {s : State} (h : (State.resetWith p []).loadStream bytes = .next s) :
    decodeStream p bytes = decodeChunks (bytes.length + 1) s := by
  simp [decodeStream, h]

end Sys2Proof.Machine
end

