-- ==== Sys2Proof/Laws/PerInstr.lean ====
section
/-! SUPPORT. The families of lemmas stated per instruction (LAWS.json). -/

namespace Sys2Proof.Laws.EncodeLength

/-- The encoder writes exactly the bytes R97 (for a token), R80 and R83 (for a record) and R110 (for a command) count. -/
def Statement (i : Instr) : Prop := i.encode.length = i.byteLength


theorem kEnd : Statement (.kEnd) := rfl

theorem kLit (data : List Byte) : Statement (.kLit data) := Nat.add_comm _ _

theorem kRun0 (v : Byte) : Statement (.kRun0 v) := rfl

theorem kRun (cnt : BitVec 7) (v : Byte) : Statement (.kRun cnt v) := rfl

theorem dRun0 : Statement (.dRun0) := rfl

theorem dRun (cnt : Byte) (v : Byte) : Statement (.dRun cnt v) := rfl

theorem dSkip (cnt : BitVec 7) : Statement (.dSkip cnt) := rfl

theorem dLit0 : Statement (.dLit0) := rfl

theorem dLit (data : List Byte) : Statement (.dLit data) := Nat.add_comm _ _

theorem endStream (size : Half) : Statement (.endStream size) := rfl

theorem chunkShort (size : Half) : Statement (.chunkShort size) := rfl

theorem chunkKey (size : Half) (type : Byte) : Statement (.chunkKey size type) := rfl

theorem chunkDelta (size : Half) (type : Byte) : Statement (.chunkDelta size type) := rfl

theorem reset : Statement (.reset) := rfl

theorem encFrame : Statement (.encFrame) := rfl

theorem encEnd : Statement (.encEnd) := rfl

theorem decChunk : Statement (.decChunk) := rfl

theorem palPack : Statement (.palPack) := rfl

theorem palUnpack : Statement (.palUnpack) := rfl

theorem abort (cause : Nibble) : Statement (.abort cause) := rfl

theorem cmdRsvd0 : Statement (.cmdRsvd0) := rfl

theorem cmdRsvd8 (low : BitVec 3) : Statement (.cmdRsvd8 low) := rfl

end Sys2Proof.Laws.EncodeLength
end

