-- ==== Sys2Proof/Laws/Tokens.lean ====
section
/-! SUPPORT. What a token can do, said once for each operand form (Machine/Operands.lean), and what no token changes. -/

namespace Sys2Proof.Machine

/-! ### The operand forms -/

theorem inTokens_run (g : Grammar) (s : State) (c : TokenRun) (body : TokenRun → Result) (hw : s.work = .tokens c)
    (hg : c.grammar = g) (hc : c.complete s.frameBytes = false) : inTokens g s body = body c := by
  simp [inTokens, hw, hg, hc]

/-- If a token answers a next state, the engine was about to read a token of its grammar, and its operand form ran. -/
theorem inTokens_cases {g : Grammar} {s t : State} {body : TokenRun → Result} (h : inTokens g s body = .next t) :
    ∃ c, s.work = .tokens c ∧ c.grammar = g ∧ c.complete s.frameBytes = false ∧ body c = .next t := by
  unfold inTokens at h
  split at h
  · rename_i c hw
    split at h
    · rename_i hc
      exact ⟨c, hw, hc.1, hc.2, h⟩
    · cases h
  · cases h
  · cases h

theorem passToken_cases {s t : State} {c : TokenRun} {len : Nat} (h : passToken s c len = .next t) :
    (c.len < c.tp + len ∧ t = s.faulted .payloadOverrun) ∨ (c.tp + len ≤ c.len ∧ t = s.advanceToken c len 0) := by
  unfold passToken at h
  split at h
  · exact .inl ⟨by omega, by simpa [raise] using h.symm⟩
  · exact .inr ⟨by omega, by simpa using h.symm⟩

theorem endToken_cases {s t : State} {c : TokenRun} {len : Nat} (h : endToken s c len = .next t) :
    (c.len < c.tp + len ∧ t = s.faulted .payloadOverrun)
    ∨ (c.tp + len ≤ c.len ∧ t = { s with work := .tokens { c with tp := c.tp + len, ended := true } }) := by
  unfold endToken at h
  split at h
  · exact .inl ⟨by omega, by simpa [raise] using h.symm⟩
  · exact .inr ⟨by omega, by simpa using h.symm⟩

theorem storeToken_cases {s t : State} {c : TokenRun} {len : Nat} {bytes : List Byte} (h : storeToken s c len bytes = .next t) :
    (c.len < c.tp + len ∧ t = s.faulted .payloadOverrun)
    ∨ (c.tp + len ≤ c.len ∧ s.frameBytes < c.op + bytes.length ∧ t = s.faulted .frameOverrun)
    ∨ (c.tp + len ≤ c.len ∧ c.op + bytes.length ≤ s.frameBytes
        ∧ t = { s with disp := s.disp.writeBytes c.op bytes }.advanceToken c len bytes.length) := by
  unfold storeToken at h
  split at h
  · exact .inl ⟨by omega, by simpa [raise] using h.symm⟩
  · split at h
    · exact .inr (.inl ⟨by omega, by omega, by simpa [raise] using h.symm⟩)
    · exact .inr (.inr ⟨by omega, by omega, by simpa using h.symm⟩)

theorem skipToken_cases {s t : State} {c : TokenRun} {len cnt : Nat} (h : skipToken s c len cnt = .next t) :
    (c.len < c.tp + len ∧ t = s.faulted .payloadOverrun)
    ∨ (c.tp + len ≤ c.len ∧ s.frameBytes < c.op + cnt ∧ t = s.faulted .frameOverrun)
    ∨ (c.tp + len ≤ c.len ∧ c.op + cnt ≤ s.frameBytes ∧ t = s.advanceToken c len cnt) := by
  unfold skipToken at h
  split at h
  · exact .inl ⟨by omega, by simpa [raise] using h.symm⟩
  · split at h
    · exact .inr (.inl ⟨by omega, by omega, by simpa [raise] using h.symm⟩)
    · exact .inr (.inr ⟨by omega, by omega, by simpa using h.symm⟩)

/-! ### Any token -/

/-- What a token does when it does not fault: the working registers move on by at least one byte of the token stream, and DISP is as
it was or takes bytes at `op` that fit the frame. -/
def TokenMoves (s : State) (c : TokenRun) (t : State) : Prop :=
  ∃ d m, t = { s with disp := m, work := .tokens d } ∧ d.grammar = c.grammar ∧ d.base = c.base ∧ d.len = c.len ∧ d.size = c.size
    ∧ c.tp < d.tp ∧ d.tp ≤ c.len ∧ (d.op = c.op ∨ c.op ≤ d.op ∧ d.op ≤ s.frameBytes)
    ∧ (m = s.disp ∨ ∃ bytes, c.op + bytes.length ≤ s.frameBytes ∧ d.op = c.op + bytes.length ∧ m = s.disp.writeBytes c.op bytes)

/-- All a token can do: it faults and the command ends, or it moves on. -/
def TokenResult (s t : State) : Prop :=
  ∃ c, s.work = .tokens c ∧ c.complete s.frameBytes = false
    ∧ (t = s.faulted .payloadOverrun ∨ t = s.faulted .frameOverrun ∨ TokenMoves s c t)

theorem passToken_result {g : Grammar} {s t : State} {len : Nat} (hl : 0 < len)
    (h : inTokens g s (fun c => passToken s c len) = .next t) : TokenResult s t := by
  obtain ⟨c, hw, -, hc, h⟩ := inTokens_cases h
  refine ⟨c, hw, hc, ?_⟩
  rcases passToken_cases h with ⟨-, rfl⟩ | ⟨hp, rfl⟩
  · exact .inl rfl
  · exact .inr (.inr ⟨_, s.disp, rfl, rfl, rfl, rfl, rfl, by simp; omega, hp, .inl rfl, .inl rfl⟩)

theorem endToken_result {g : Grammar} {s t : State} {len : Nat} (hl : 0 < len)
    (h : inTokens g s (fun c => endToken s c len) = .next t) : TokenResult s t := by
  obtain ⟨c, hw, -, hc, h⟩ := inTokens_cases h
  refine ⟨c, hw, hc, ?_⟩
  rcases endToken_cases h with ⟨-, rfl⟩ | ⟨hp, rfl⟩
  · exact .inl rfl
  · exact .inr (.inr ⟨_, s.disp, rfl, rfl, rfl, rfl, rfl, by simp; omega, hp, .inl rfl, .inl rfl⟩)

theorem storeToken_result {g : Grammar} {s t : State} {len : Nat} {bytes : List Byte} (hl : 0 < len)
    (h : inTokens g s (fun c => storeToken s c len bytes) = .next t) : TokenResult s t := by
  obtain ⟨c, hw, -, hc, h⟩ := inTokens_cases h
  refine ⟨c, hw, hc, ?_⟩
  rcases storeToken_cases h with ⟨-, rfl⟩ | ⟨-, -, rfl⟩ | ⟨hp, hr, rfl⟩
  · exact .inl rfl
  · exact .inr (.inl rfl)
  · exact .inr (.inr ⟨_, _, rfl, rfl, rfl, rfl, rfl, by simp; omega, hp, .inr ⟨by simp, hr⟩, .inr ⟨bytes, hr, rfl, rfl⟩⟩)

theorem skipToken_result {g : Grammar} {s t : State} {len cnt : Nat} (hl : 0 < len)
    (h : inTokens g s (fun c => skipToken s c len cnt) = .next t) : TokenResult s t := by
  obtain ⟨c, hw, -, hc, h⟩ := inTokens_cases h
  refine ⟨c, hw, hc, ?_⟩
  rcases skipToken_cases h with ⟨-, rfl⟩ | ⟨-, -, rfl⟩ | ⟨hp, hr, rfl⟩
  · exact .inl rfl
  · exact .inr (.inl rfl)
  · exact .inr (.inr ⟨_, s.disp, rfl, rfl, rfl, rfl, rfl, by simp; omega, hp, .inr ⟨by simp, hr⟩, .inl rfl⟩)

/-- The inversion lemma of every token. -/
theorem execToken_result {i : Instr} {s t : State} (h : execToken i s = .next t) : TokenResult s t := by
  cases i with
  | kEnd => exact endToken_result (by omega) h
  | kLit data => exact storeToken_result (by omega) h
  | kRun0 v => exact passToken_result (by omega) h
  | kRun cnt v => exact storeToken_result (by omega) h
  | dRun0 => exact passToken_result (by omega) h
  | dRun cnt v => exact storeToken_result (by omega) h
  | dSkip cnt => exact skipToken_result (by omega) h
  | dLit0 => exact passToken_result (by omega) h
  | dLit data => exact storeToken_result (by omega) h
  | endStream size => cases h
  | chunkShort size => cases h
  | chunkKey size type => cases h
  | chunkDelta size type => cases h
  | reset => cases h
  | encFrame => cases h
  | encEnd => cases h
  | decChunk => cases h
  | palPack => cases h
  | palUnpack => cases h
  | abort cause => cases h
  | cmdRsvd0 => cases h
  | cmdRsvd8 low => cases h

/-- A token changes nothing but DISP, the working registers and, on a fault, FAULT and CAUSE. -/
theorem execToken_frame {i : Instr} {s t : State} (h : execToken i s = .next t) :
    t = { s with disp := t.disp, work := t.work, fault := t.fault, cause := t.cause } := by
  obtain ⟨c, -, -, rfl | rfl | ⟨d, m, rfl, -⟩⟩ := execToken_result h <;> rfl

end Sys2Proof.Machine
end

