-- ==== Sys2Proof/Laws/Records.lean ====
section
/-! SUPPORT. The loop over a chunk's tokens and the records: what they can do, and what they never change. -/

namespace Sys2Proof.Machine

/-! ### The loop -/

theorem runTokens_idle (fuel : Nat) (s : State) (h : s.work = .idle) : runTokens fuel s = .next s := by
  unfold runTokens
  rw [h]

theorem runTokens_zero (s : State) (c : TokenRun) (h : s.work = .tokens c) : runTokens 0 s = .next (s.faulted .payloadOverrun) := by
  unfold runTokens
  rw [h]
  rfl

theorem runTokens_succ (fuel : Nat) (s s' : State) (c : TokenRun) (h : s.work = .tokens c) (ht : tokenTurn c s = .next s') :
    runTokens (fuel + 1) s = runTokens fuel s' := by
  rw [runTokens, h]
  simp only [ht]

/-- One turn of the loop: the record ends, a fault is taken, or a token moves on. -/
theorem tokenTurn_cases {c : TokenRun} {s t : State} (hw : s.work = .tokens c) (h : tokenTurn c s = .next t) :
    (c.complete s.frameBytes = true ∧ t = s.finishRecord c.size)
    ∨ (c.complete s.frameBytes = false ∧ (t = s.faulted .payloadOverrun ∨ t = s.faulted .frameOverrun ∨ TokenMoves s c t)) := by
  unfold tokenTurn at h
  split at h
  · rename_i hc
    exact .inl ⟨hc, by simpa using h.symm⟩
  · rename_i hc
    refine .inr ⟨by simpa using hc, ?_⟩
    split at h
    · obtain ⟨d, hd, -, hr⟩ := execToken_result h
      obtain rfl : c = d := by simpa [hw] using hd
      exact hr
    · exact .inl (by simpa [raise] using h.symm)

/-- An induction along the loop: what holds where it starts, and is kept by a token that moves on, holds at the state in which the chunk
ends or faults. -/
theorem runTokens_induction {P : State → Prop}
    (move : ∀ s c t, P s → s.work = .tokens c → c.complete s.frameBytes = false → TokenMoves s c t → P t)
    {fuel : Nat} {s t : State} (hs : P s) (h : runTokens fuel s = .next t) :
    (t = s ∧ ∀ c, s.work ≠ .tokens c)
    ∨ ∃ u c, P u ∧ u.work = .tokens c
        ∧ (t = u.faulted .payloadOverrun ∨ t = u.faulted .frameOverrun ∨ c.complete u.frameBytes = true ∧ t = u.finishRecord c.size) := by
  induction fuel generalizing s with
  | zero =>
    cases hw : s.work with
    | tokens c =>
      rw [runTokens_zero s c hw] at h
      exact .inr ⟨s, c, hs, hw, .inl (by simpa using h.symm)⟩
    | idle =>
      rw [runTokens, hw] at h
      exact .inl ⟨by simpa using h.symm, by simp⟩
    | record =>
      rw [runTokens, hw] at h
      exact .inl ⟨by simpa using h.symm, by simp⟩
  | succ fuel ih =>
    cases hw : s.work with
    | tokens c =>
      rw [runTokens, hw] at h
      simp only at h
      split at h
      · rename_i s' ht
        have last : ∀ {u : State}, u.work = .idle → runTokens fuel u = .next t → t = u := fun hu h => by
          rw [runTokens_idle _ _ hu] at h
          simpa using h.symm
        rcases tokenTurn_cases hw ht with ⟨hc, rfl⟩ | ⟨hc, rfl | rfl | hm⟩
        · exact .inr ⟨s, c, hs, hw, .inr (.inr ⟨hc, last rfl h⟩)⟩
        · exact .inr ⟨s, c, hs, hw, .inl (last rfl h)⟩
        · exact .inr ⟨s, c, hs, hw, .inr (.inl (last rfl h))⟩
        · rcases ih (move s c s' hs hw hc hm) h with ⟨rfl, hn⟩ | hr
          · obtain ⟨d, m, rfl, -⟩ := hm
            exact absurd rfl (hn d)
          · exact .inr hr
      · cases h
      · cases h
    | idle =>
      rw [runTokens, hw] at h
      exact .inl ⟨by simpa using h.symm, by simp⟩
    | record =>
      rw [runTokens, hw] at h
      exact .inl ⟨by simpa using h.symm, by simp⟩

/-! ### The records -/

theorem atRecord_run (s : State) (body : Result) (h : s.work = .record) : atRecord s body = body := by
  simp [atRecord, h]

theorem atRecord_cases {s t : State} {body : Result} (h : atRecord s body = .next t) : s.work = .record ∧ body = .next t := by
  unfold atRecord at h
  split at h
  · rename_i hw
    exact ⟨hw, h⟩
  · cases h
  · cases h

/-- The offset of the first token in a chunk: after the type byte, or after the palette (R64). -/
theorem openChunk_cases (s : State) (g : Grammar) (size : Half) (type : Byte) :
    (s.ilen < s.rp + size.toNat ∧ s.openChunk g size type = .error .truncatedStream)
    ∨ (s.rp + size.toNat ≤ s.ilen ∧ paletteBit type = true ∧ size.toNat < 35 ∧ s.openChunk g size type = .error .malformedChunk)
    ∨ (s.rp + size.toNat ≤ s.ilen ∧ paletteBit type = true ∧ 35 ≤ size.toNat
        ∧ s.openChunk g size type
          = .ok ({ s with palDec := s.paletteAt (s.rp + 3) }.startTokens g (s.rp + 35) (size.toNat - 35) size.toNat))
    ∨ (s.rp + size.toNat ≤ s.ilen ∧ paletteBit type = false
        ∧ s.openChunk g size type = .ok (s.startTokens g (s.rp + 3) (size.toNat - 3) size.toNat)) := by
  unfold State.openChunk
  by_cases h1 : s.rp + size.toNat > s.ilen
  · exact .inl ⟨h1, by rw [if_pos h1]⟩
  · by_cases h2 : paletteBit type = true
    · by_cases h3 : size.toNat < 35
      · exact .inr (.inl ⟨by omega, h2, h3, by rw [if_neg h1, if_pos h2, if_pos h3]⟩)
      · exact .inr (.inr (.inl ⟨by omega, h2, by omega, by rw [if_neg h1, if_pos h2, if_neg h3]⟩))
    · exact .inr (.inr (.inr ⟨by omega, by simpa using h2, by rw [if_neg h1, if_neg h2]⟩))

/-- The record dispatch of DEC_CHUNK is the one of `exec`. -/
theorem execRecord_endStream (size : Half) (s : State) : execRecord (.endStream size) s = execEndStream size s := rfl

theorem execRecord_chunkShort (size : Half) (s : State) : execRecord (.chunkShort size) s = execChunkShort size s := rfl

theorem execRecord_chunkKey (size : Half) (type : Byte) (s : State) :
    execRecord (.chunkKey size type) s = execChunkKey size type s := rfl

theorem execRecord_chunkDelta (size : Half) (type : Byte) (s : State) :
    execRecord (.chunkDelta size type) s = execChunkDelta size type s := rfl

end Sys2Proof.Machine
end

