-- ==== Sys2Proof/Tests/Slice0.lean ====
section
/-! SUPPORT. Tests: the words of spec/30_encoding.md decode to their instructions, ill-formed terms are refused, one step of each
instruction on small states with the results of spec/95_test_vectors.md, and for each obligation with hypotheses a state that meets them. -/

namespace Sys2Proof.Tests

open Sys2Proof.Machine

/-! ### Small states, with frames of 16 bytes -/

/-- A block with frames of 16 bytes, the scale of the vectors. -/
def small : Params := { frame := ⟨16, by decide, by decide⟩ }

/-- The small block that hands the frame out again on a chunk of size 2. -/
def smallRepeat : Params := { small with emptyChunk := .repeatFrame }

/-- The small block right after reset. -/
def blank : State := State.resetWith small []

/-- The display `D0` of the vectors, bytes 00 to 0F. -/
def d0 : List Byte := [0, 1, 2, 3, 4, 5, 6, 7, 8, 9, 10, 11, 12, 13, 14, 15]

/-- The small block with the bytes loaded as its input stream and `D0` on display. -/
def stream (bytes : List Byte) : State :=
  { blank with istream := Memory.ofBytes bytes, ilen := bytes.length, disp := Memory.ofBytes d0 }

/-- The same, about to read the record at RP. -/
def record (bytes : List Byte) : State := { stream bytes with work := .record }

/-- The working registers at byte `tp` of a token stream of `len` bytes at offset 0, output position `op`. -/
def run (g : Grammar) (len tp op : Nat) : TokenRun :=
  { grammar := g, base := 0, len := len, tp := tp, op := op, size := len, ended := false }

/-- The small block about to read a token. -/
def token (g : Grammar) (bytes : List Byte) (len tp op : Nat) : State := { stream bytes with work := .tokens (run g len tp op) }

/-- The state an outcome leaves, for the tests only. -/
def after (r : Result) : State :=
  match r with
  | .next s => s
  | .fault _ => { blank with cause := 15 }
  | .refused _ => { blank with cause := 15 }

/-! ### Ill-formed terms are refused (R82, R83, R88 to R96) -/

theorem test_illformed_kLit_empty : (Instr.kLit []).wellFormed = false := by decide
theorem test_illformed_kLit_long : (Instr.kLit (List.replicate 128 0)).wellFormed = false := by simp [Instr.wellFormed]
theorem test_illformed_kRun_zero : (Instr.kRun 0 7).wellFormed = false := by decide
theorem test_illformed_dRun_zero : (Instr.dRun 0 7).wellFormed = false := by decide
theorem test_illformed_dSkip_zero : (Instr.dSkip 0).wellFormed = false := by decide
theorem test_illformed_dLit_empty : (Instr.dLit []).wellFormed = false := by decide
theorem test_illformed_dLit_long : (Instr.dLit (List.replicate 128 0)).wellFormed = false := by simp [Instr.wellFormed]
theorem test_illformed_endStream : (Instr.endStream 0xFEFF).wellFormed = false := by decide
theorem test_illformed_chunkShort : (Instr.chunkShort 3).wellFormed = false := by decide
theorem test_illformed_chunkKey_short : (Instr.chunkKey 2 0x41).wellFormed = false := by decide
theorem test_illformed_chunkKey_sentinel : (Instr.chunkKey 0xFF00 0x41).wellFormed = false := by decide
theorem test_illformed_chunkKey_type : (Instr.chunkKey 3 0x01).wellFormed = false := by decide
theorem test_illformed_chunkDelta_short : (Instr.chunkDelta 2 0x01).wellFormed = false := by decide
theorem test_illformed_chunkDelta_sentinel : (Instr.chunkDelta 0xFF00 0x01).wellFormed = false := by decide
theorem test_illformed_chunkDelta_type : (Instr.chunkDelta 3 0x41).wellFormed = false := by decide

/-! ### Every constructor's word, written out from R82, R83, R88 to R96, R110, R111 -/

theorem test_decode_kEnd : decode (.token .key) [0b00000000] = .ok (.kEnd, []) := by decide
theorem test_decode_kLit : decode (.token .key) [0b00000011, 1, 2, 3, 9] = .ok (.kLit [1, 2, 3], [9]) := by decide
theorem test_decode_kRun0 : decode (.token .key) [0b10000000, 0x55] = .ok (.kRun0 0x55, []) := by decide
theorem test_decode_kRun : decode (.token .key) [0b10010000, 0x07] = .ok (.kRun 16 7, []) := by decide
theorem test_decode_dRun0 : decode (.token .delta) [0b00000000, 0b00000000, 9] = .ok (.dRun0, [9]) := by decide
theorem test_decode_dRun : decode (.token .delta) [0b00000000, 0b11111111, 0xAA] = .ok (.dRun 255 0xAA, []) := by decide
theorem test_decode_dSkip : decode (.token .delta) [0b01111111] = .ok (.dSkip 127, []) := by decide
theorem test_decode_dLit0 : decode (.token .delta) [0b10000000] = .ok (.dLit0, []) := by decide
theorem test_decode_dLit : decode (.token .delta) [0b10000010, 0xA1, 0xA2] = .ok (.dLit [0xA1, 0xA2], []) := by decide
theorem test_decode_endStream : decode .record [0b11111110, 0b11111111] = .ok (.endStream 0xFFFE, []) := by decide
theorem test_decode_chunkShort : decode .record [0b00000010, 0b00000000] = .ok (.chunkShort 2, []) := by decide
theorem test_decode_chunkKey :
    decode .record [0b00011100, 0b00000010, 0b11100001] = .ok (.chunkKey 540 0xE1, []) := by decide
theorem test_decode_chunkDelta :
    decode .record [0b11111111, 0b00000000, 0b00000001] = .ok (.chunkDelta 255 0x01, []) := by decide
theorem test_decode_reset : decode .command [0b00000001] = .ok (.reset, []) := by decide
theorem test_decode_encFrame : decode .command [0b00000010] = .ok (.encFrame, []) := by decide
theorem test_decode_encEnd : decode .command [0b00000011] = .ok (.encEnd, []) := by decide
theorem test_decode_decChunk : decode .command [0b00000100] = .ok (.decChunk, []) := by decide
theorem test_decode_palPack : decode .command [0b00000101] = .ok (.palPack, []) := by decide
theorem test_decode_palUnpack : decode .command [0b00000110] = .ok (.palUnpack, []) := by decide
theorem test_decode_abort : decode .command [0b01010111] = .ok (.abort 5, []) := by decide
theorem test_decode_cmdRsvd0 : decode .command [0b00000000] = .ok (.cmdRsvd0, []) := by decide
theorem test_decode_cmdRsvd8 : decode .command [0b00001001] = .ok (.cmdRsvd8 1, []) := by decide

/-- The sizes where two record rows meet: FEFF is the largest size, FF00 the smallest sentinel (spec/95, section 9). -/
theorem test_decode_size_limits :
    decode .record [0xFF, 0xFE, 0x01] = .ok (.chunkDelta 0xFEFF 1, []) ∧ decode .record [0x00, 0xFF] = .ok (.endStream 0xFF00, [])
      ∧ decode .record [0x03, 0x00, 0x41] = .ok (.chunkKey 3 0x41, []) ∧ decode .record [0xFF] = .error .missingByte := by decide

/-- A word of the opcode table is read in the format its width and value give it (log 6). -/
theorem test_table_words :
    decodeTableWord 8 0x83 = some (.kRun 3 0) ∧ decodeTableWord 16 0xFF00 = some (.endStream 0xFF00)
      ∧ decodeTableWord 16 0x0002 = some (.chunkShort 2) ∧ decodeTableWord 4 0x4 = some .decChunk := by decide

/-- A word placed after reset is what the next step runs. -/
theorem test_fetch_word : step (State.reset.withFetchWord 8 0x04) = exec .decChunk State.reset := by rfl

/-- The stores after reset are in canonical form. -/
theorem test_reset_stores :
    State.reset.cur.wf = true ∧ State.reset.prev.wf = true ∧ State.reset.disp.wf = true ∧ State.reset.istream.wf = true
      ∧ State.reset.ostream.wf = true := ⟨rfl, rfl, rfl, rfl, rfl⟩

/-! ### Tokens: spec/95, section 3 and section 6 -/

theorem test_kEnd : (after (step (token .key [0x00] 1 0 3))).work = .tokens { run .key 1 1 3 with ended := true } := by decide
theorem test_kLit :
    ((after (step (token .key [0x02, 0xAA, 0xBB] 3 0 1))).disp.readBytes 0 4 = [0, 0xAA, 0xBB, 3]) := by decide
theorem test_kRun0 : (after (step (token .key [0x80, 0x55] 2 0 3))).work = .tokens (run .key 2 2 3) := by decide
theorem test_kRun :
    (after (step (token .key [0x90, 0x07] 2 0 0))).disp.readBytes 0 16 = List.replicate 16 7 := by decide
theorem test_kRun_overrun : (after (step (token .key [0x89, 0x07] 2 0 8))).causeReg = 0x07 := by decide
theorem test_dRun0 : (after (step (token .delta [0x00, 0x00] 2 0 3))).work = .tokens (run .delta 2 2 3) := by decide
theorem test_dRun :
    (after (step (token .delta [0x00, 0x04, 0xAA] 3 0 6))).disp.readBytes 5 6 = [5, 0xAA, 0xAA, 0xAA, 0xAA, 10] := by decide
/-- Both tests fail: the payload test comes first (R269). -/
theorem test_dRun_payload_first : (after (step (token .delta [0x00, 0x03] 2 0 14))).causeReg = 0x06 := by decide
theorem test_dSkip : (after (step (token .delta [0x06] 1 0 10))).work = .tokens (run .delta 1 1 16) := by decide
theorem test_dSkip_overrun : (after (step (token .delta [0x7F] 1 0 0))).causeReg = 0x07 := by decide
theorem test_dLit0 : (after (step (token .delta [0x80] 1 0 3))).work = .tokens (run .delta 1 1 3) := by decide
theorem test_dLit :
    ((after (step (token .delta [0x82, 0x55, 0x66] 3 0 8))).disp.readBytes 7 4 = [7, 0x55, 0x66, 10]) := by decide

/-! ### Records: spec/95, section 8 Program D and section 9 -/

theorem test_endStream : (after (step (record [0x00, 0xFF]))).status = 0x06 := by decide
theorem test_chunkShort : (after (step (record [0x02, 0x00]))).causeReg = 0x03 := by decide
theorem test_chunkKey :
    (after (step (record [0x08, 0x00, 0x41, 0x83, 0x07, 0x00, 0xDE, 0xAD]))).disp.readBytes 0 4 = [7, 7, 7, 3] := by decide
theorem test_chunkDelta :
    (after (step (record [0x04, 0x00, 0x3E, 0x10]))).rp = 4 := by decide

/-! ### Commands: spec/95, sections 2, 7 and 9 -/

theorem test_reset : (after (exec .reset { stream [0x02, 0x00] with fault := true, cause := 3 })).status = 0x04 := by decide
/-- The header and the palette of a first chunk, and its tokens: a frame of sixteen zero bytes. -/
theorem test_encFrame :
    (after (exec .encFrame blank)).ostream.readBytes 0 38
      = [0x26, 0x00, 0xE1] ++ List.replicate 32 0 ++ [0x90, 0x00, 0x00] := by decide
/-- The same frame and palette again: a skip of 16 (spec/95, Program B, third chunk). -/
theorem test_encFrame_again :
    (after (exec .encFrame (after (exec .encFrame blank)))).ostream.readBytes 38 4 = [0x04, 0x00, 0x01, 0x10] := by decide
theorem test_encEnd : (after (exec .encEnd blank)).ostream.readBytes 0 2 = [0xFF, 0xFF] := by decide
theorem test_encEnd_status : (after (exec .encEnd blank)).status = 0x0C := by decide
/-- Size 10 with one payload byte present: no short read. -/
theorem test_decChunk_truncated : (after (exec .decChunk (stream [0x0A, 0x00, 0x01, 0x10]))).causeReg = 0x02 := by decide
theorem test_decChunk :
    ((after (exec .decChunk (stream [0x08, 0x00, 0x01, 0x06, 0x00, 0x04, 0xAA, 0x06]))).disp.readBytes 5 6
      = [5, 0xAA, 0xAA, 0xAA, 0xAA, 10]) := by decide
theorem test_palPack :
    (after (exec .palPack { blank with palIn := zeroColours.set 1 ⟨0xFF, 0x80, 0x12, 0x00⟩ })).palPk.toList.take 4
      = [0x00, 0x00, 0x81, 0x0F] := by decide
theorem test_palUnpack :
    (after (exec .palUnpack { blank with palPk := (zeroPacked.set 2 0x81).set 3 0xAF })).palOut[1] = ⟨255, 136, 17, 255⟩ := by decide
theorem test_abort : (after (exec (.abort 5) blank)).causeReg = 0x05 := by decide
theorem test_abort_other : (after (exec (.abort 2) blank)).causeReg = 0x08 := by decide
theorem test_cmdRsvd0 : (after (exec .cmdRsvd0 blank)).causeReg = 0x08 := by decide
theorem test_cmdRsvd8 : (after (exec (.cmdRsvd8 1) blank)).causeReg = 0x08 := by decide

/-- A frame one byte short and one a byte too long are refused (R53; log 24). -/
theorem test_encodeStream_length :
    encodeStream small [(zeroColours, List.replicate 15 7)] = none ∧ encodeStream small [(zeroColours, List.replicate 17 7)] = none := by
  decide

/-- A stream one byte longer than ICAP is refused (R302, U6). -/
theorem test_decodeStream_capacity :
    (match decodeStream { small with icap := some 3 } [0x04, 0x00, 0x01, 0x10] with
      | .refused .istreamCapacity => true
      | _ => false) = true := by decide

/-! ### The encoders: spec/95, sections 3, 5 and 6 -/

theorem test_keyEncode :
    keyEncode [1, 2, 3, 4, 4, 4, 5, 6, 6, 6, 6, 7, 8, 9, 9, 0]
      = [0x03, 1, 2, 3, 0x83, 4, 0x01, 5, 0x84, 6, 0x05, 7, 8, 9, 9, 0, 0x00] := by decide
theorem test_deltaEncode :
    deltaEncode [1, 2, 9, 9, 9, 9, 3, 4] [1, 7, 7, 7, 7, 5, 3, 4] = [0x01, 0x00, 0x04, 0x07, 0x83, 5, 3, 4] := by decide
theorem test_deltaEncode_special :
    deltaEncode [1, 2, 7, 7, 7, 0, 0, 0] [1, 2, 5, 5, 5, 6, 6, 6] = [0x02, 0x83, 5, 5, 5, 0x83, 6, 6, 6] := by decide

/-! ### Witnesses: states and operands that meet the hypotheses of the obligations, each clause at a boundary -/

theorem witness_DecodeEncodeAgree : (Instr.chunkDelta 0xFEFF 0xBF).wellFormed = true ∧ (Instr.dLit [0]).wellFormed = true := by decide

theorem witness_DecodedBytesAreTheirEncoding :
    (Format.token .delta ≠ .command ∧ decode (.token .delta) [0x00, 0xFF, 0xAA, 9] = .ok (.dRun 255 0xAA, [9]))
    ∧ (Format.record ≠ .command ∧ decode .record [0xFF, 0xFE, 0x81] = .ok (.chunkDelta 0xFEFF 0x81, [])) := by decide

theorem witness_EveryControlByteIsAToken : 127 ≤ (List.replicate 127 (0x55 : Byte)).length := by simp

/-- Counts at both ends of the ranges for which a token's encoding is stated. -/
theorem witness_token_encodings :
    (1 : BitVec 7) ≠ 0 ∧ (127 : BitVec 7) ≠ 0 ∧ (1 : Byte) ≠ 0 ∧ (255 : Byte) ≠ 0
      ∧ (1 ≤ ([0x80] : List Byte).length ∧ ([0x80] : List Byte).length ≤ 127)
      ∧ 1 ≤ (List.replicate 127 (0 : Byte)).length ∧ (List.replicate 127 (0 : Byte)).length ≤ 127 := by simp

/-- A token position that is open for a token of the grammar. -/
theorem atToken_token (g : Grammar) (bytes : List Byte) (len tp op : Nat) (h : op < 16) :
    AtToken (token g bytes len tp op) g (run g len tp op) := by
  refine ⟨rfl, rfl, ?_⟩
  cases g
  · rfl
  · simpa [run, TokenRun.complete, token, stream, State.frameBytes, blank, State.resetWith, small] using h

theorem witness_KEndEndsTheTokens :
    (AtToken (token .key [] 0 0 3) .key (run .key 0 0 3) ∧ (run .key 0 0 3).len < (run .key 0 0 3).tp + 1)
    ∧ AtToken (token .key [0] 1 0 3) .key (run .key 1 0 3) ∧ (run .key 1 0 3).tp + 1 ≤ (run .key 1 0 3).len :=
  ⟨⟨atToken_token .key [] 0 0 3 (by decide), by decide⟩, atToken_token .key [0] 1 0 3 (by decide), by decide⟩

/-- The three clauses of a storing token: one byte short, one byte too many for the frame, exactly fitting. -/
theorem witness_KLitCopiesItsBytes :
    (AtToken (token .key [2, 8] 2 0 3) .key (run .key 2 0 3) ∧ (run .key 2 0 3).len < (run .key 2 0 3).tp + (1 + [8, 9].length))
    ∧ (AtToken (token .key [2, 8, 9] 3 0 15) .key (run .key 3 0 15)
        ∧ (token .key [2, 8, 9] 3 0 15).frameBytes < (run .key 3 0 15).op + [8, 9].length)
    ∧ AtToken (token .key [2, 8, 9] 3 0 14) .key (run .key 3 0 14)
      ∧ (run .key 3 0 14).op + [8, 9].length ≤ (token .key [2, 8, 9] 3 0 14).frameBytes :=
  ⟨⟨atToken_token .key [2, 8] 2 0 3 (by decide), by decide⟩, ⟨atToken_token .key [2, 8, 9] 3 0 15 (by decide), by decide⟩,
    atToken_token .key [2, 8, 9] 3 0 14 (by decide), by decide⟩

theorem witness_KRunReplicatesItsValue :
    (AtToken (token .key [0x82] 1 0 3) .key (run .key 1 0 3) ∧ (run .key 1 0 3).len < (run .key 1 0 3).tp + 2)
    ∧ (AtToken (token .key [0x82, 7] 2 0 15) .key (run .key 2 0 15)
        ∧ (token .key [0x82, 7] 2 0 15).frameBytes < (run .key 2 0 15).op + (List.replicate (2 : BitVec 7).toNat (7 : Byte)).length)
    ∧ AtToken (token .key [0x82, 7] 2 0 14) .key (run .key 2 0 14)
      ∧ (run .key 2 0 14).op + (List.replicate (2 : BitVec 7).toNat (7 : Byte)).length ≤ (token .key [0x82, 7] 2 0 14).frameBytes :=
  ⟨⟨atToken_token .key [0x82] 1 0 3 (by decide), by decide⟩, ⟨atToken_token .key [0x82, 7] 2 0 15 (by decide), by decide⟩,
    atToken_token .key [0x82, 7] 2 0 14 (by decide), by decide⟩

theorem witness_DRunReplicatesItsValue :
    (AtToken (token .delta [0, 2] 2 0 3) .delta (run .delta 2 0 3) ∧ (run .delta 2 0 3).len < (run .delta 2 0 3).tp + 3)
    ∧ (AtToken (token .delta [0, 2, 7] 3 0 15) .delta (run .delta 3 0 15)
        ∧ (token .delta [0, 2, 7] 3 0 15).frameBytes < (run .delta 3 0 15).op + (List.replicate (2 : Byte).toNat (7 : Byte)).length)
    ∧ AtToken (token .delta [0, 2, 7] 3 0 14) .delta (run .delta 3 0 14)
      ∧ (run .delta 3 0 14).op + (List.replicate (2 : Byte).toNat (7 : Byte)).length ≤ (token .delta [0, 2, 7] 3 0 14).frameBytes :=
  ⟨⟨atToken_token .delta [0, 2] 2 0 3 (by decide), by decide⟩, ⟨atToken_token .delta [0, 2, 7] 3 0 15 (by decide), by decide⟩,
    atToken_token .delta [0, 2, 7] 3 0 14 (by decide), by decide⟩

theorem witness_DLitCopiesItsBytes :
    (AtToken (token .delta [0x82, 8] 2 0 3) .delta (run .delta 2 0 3)
        ∧ (run .delta 2 0 3).len < (run .delta 2 0 3).tp + (1 + [8, 9].length))
    ∧ (AtToken (token .delta [0x82, 8, 9] 3 0 15) .delta (run .delta 3 0 15)
        ∧ (token .delta [0x82, 8, 9] 3 0 15).frameBytes < (run .delta 3 0 15).op + [8, 9].length)
    ∧ AtToken (token .delta [0x82, 8, 9] 3 0 14) .delta (run .delta 3 0 14)
      ∧ (run .delta 3 0 14).op + [8, 9].length ≤ (token .delta [0x82, 8, 9] 3 0 14).frameBytes :=
  ⟨⟨atToken_token .delta [0x82, 8] 2 0 3 (by decide), by decide⟩, ⟨atToken_token .delta [0x82, 8, 9] 3 0 15 (by decide), by decide⟩,
    atToken_token .delta [0x82, 8, 9] 3 0 14 (by decide), by decide⟩

/-- Each reserved token with its last byte missing, and whole. -/
theorem witness_ReservedTokensOnlyPass :
    (AtToken (token .key [0x80] 1 0 3) .key (run .key 1 0 3) ∧ (run .key 1 0 3).len < (run .key 1 0 3).tp + 2)
    ∧ (AtToken (token .key [0x80, 5] 2 0 3) .key (run .key 2 0 3) ∧ (run .key 2 0 3).tp + 2 ≤ (run .key 2 0 3).len)
    ∧ (AtToken (token .delta [0] 1 0 3) .delta (run .delta 1 0 3) ∧ (run .delta 1 0 3).len < (run .delta 1 0 3).tp + 2)
    ∧ (AtToken (token .delta [0, 0] 2 0 3) .delta (run .delta 2 0 3) ∧ (run .delta 2 0 3).tp + 2 ≤ (run .delta 2 0 3).len)
    ∧ (AtToken (token .delta [] 0 0 3) .delta (run .delta 0 0 3) ∧ (run .delta 0 0 3).len < (run .delta 0 0 3).tp + 1)
    ∧ AtToken (token .delta [0x80] 1 0 3) .delta (run .delta 1 0 3) ∧ (run .delta 1 0 3).tp + 1 ≤ (run .delta 1 0 3).len :=
  ⟨⟨atToken_token .key [0x80] 1 0 3 (by decide), by decide⟩, ⟨atToken_token .key [0x80, 5] 2 0 3 (by decide), by decide⟩,
    ⟨atToken_token .delta [0] 1 0 3 (by decide), by decide⟩, ⟨atToken_token .delta [0, 0] 2 0 3 (by decide), by decide⟩,
    ⟨atToken_token .delta [] 0 0 3 (by decide), by decide⟩, atToken_token .delta [0x80] 1 0 3 (by decide), by decide⟩

theorem witness_DSkipKeepsTheFrame :
    (AtToken (token .delta [2] 1 0 15) .delta (run .delta 1 0 15) ∧ (run .delta 1 0 15).tp + 1 ≤ (run .delta 1 0 15).len
        ∧ (token .delta [2] 1 0 15).frameBytes < (run .delta 1 0 15).op + (2 : BitVec 7).toNat)
    ∧ AtToken (token .delta [2] 1 0 14) .delta (run .delta 1 0 14) ∧ (run .delta 1 0 14).tp + 1 ≤ (run .delta 1 0 14).len
      ∧ (run .delta 1 0 14).op + (2 : BitVec 7).toNat ≤ (token .delta [2] 1 0 14).frameBytes :=
  ⟨⟨atToken_token .delta [2] 1 0 15 (by decide), by decide⟩, atToken_token .delta [2] 1 0 14 (by decide), by decide⟩

theorem witness_MissingTokenBytesFault :
    (AtToken (token .delta [2] 1 1 2) .delta (run .delta 1 1 2) ∧ (run .delta 1 1 2).len ≤ (run .delta 1 1 2).tp)
    ∧ AtToken (token .delta [0, 4] 2 0 0) .delta (run .delta 2 0 0) ∧ (run .delta 2 0 0).tp < (run .delta 2 0 0).len
      ∧ decode (.token .delta) ((token .delta [0, 4] 2 0 0).istream.readBytes (0 + 0) (2 - 0)) = .error .missingByte :=
  ⟨⟨atToken_token .delta [2] 1 1 2 (by decide), by decide⟩, atToken_token .delta [0, 4] 2 0 0 (by decide), by decide⟩

theorem witness_EndRecordEndsTheStream : (record [0x00, 0xFF]).work = .record := by rfl

theorem witness_DecChunkStopsAtTheSentinel :
    (stream [0x00, 0xFF]).work = .idle ∧ (stream [0x00, 0xFF]).fault = false ∧ (stream [0x00, 0xFF]).eos = false
      ∧ (stream [0x00, 0xFF]).rp + 2 ≤ (stream [0x00, 0xFF]).ilen
      ∧ (stream [0x00, 0xFF]).istream.read ((stream [0x00, 0xFF]).rp + 1) = 0xFF := by decide

theorem witness_ShortChunkFaultsOrRepeats :
    ({ record [0x02, 0x00] with params := smallRepeat }.work = .record ∧ (2 : Half) < 3 ∧ smallRepeat.emptyChunk = .repeatFrame)
    ∧ ((record [0x02, 0x00]).work = .record ∧ ¬ ((2 : Half) = 2 ∧ (record [0x02, 0x00]).params.emptyChunk = .repeatFrame))
    ∧ (1 : Half) < 3 ∧ ¬ ((1 : Half) = 2 ∧ smallRepeat.emptyChunk = .repeatFrame) := by decide

/-- A keyframe chunk without a palette whose tokens fill the frame exactly, and one byte after them. -/
theorem witness_ChunkKeyRunsItsTokens :
    (record [0x07, 0x00, 0x41, 0x90, 0x33, 0x00, 0xDE]).work = .record ∧ (Instr.chunkKey 7 0x41).wellFormed = true
      ∧ (record [0x07, 0x00, 0x41, 0x90, 0x33, 0x00, 0xDE]).rp + (7 : Half).toNat
          ≤ (record [0x07, 0x00, 0x41, 0x90, 0x33, 0x00, 0xDE]).ilen
      ∧ ((0x41 : Byte).getLsbD 7 = true → 35 ≤ (7 : Half).toNat)
      ∧ (∀ i ∈ [Instr.kRun 16 0x33], i.format = .token .key ∧ i.wellFormed = true ∧ i ≠ .kEnd)
      ∧ tokensCount [.kRun 16 0x33] ≤ (record [0x07, 0x00, 0x41, 0x90, 0x33, 0x00, 0xDE]).frameBytes
      ∧ (record [0x07, 0x00, 0x41, 0x90, 0x33, 0x00, 0xDE]).istream.readBytes (0 + 3) (7 - 3)
          = [Instr.kRun 16 0x33].flatMap Instr.encode ++ 0x00 :: [0xDE] := by decide

/-- The same with a palette, of the smallest size that holds one: no token before K.END would fit in 35 bytes. -/
theorem witness_ChunkKeyRunsItsTokens_palette :
    (record ([0x24, 0x00, 0xC1] ++ List.replicate 32 0x11 ++ [0x00])).work = .record ∧ (Instr.chunkKey 36 0xC1).wellFormed = true
      ∧ (record ([0x24, 0x00, 0xC1] ++ List.replicate 32 0x11 ++ [0x00])).rp + (36 : Half).toNat
          ≤ (record ([0x24, 0x00, 0xC1] ++ List.replicate 32 0x11 ++ [0x00])).ilen
      ∧ ((0xC1 : Byte).getLsbD 7 = true ∧ 35 ≤ (36 : Half).toNat)
      ∧ tokensCount [] ≤ (record ([0x24, 0x00, 0xC1] ++ List.replicate 32 0x11 ++ [0x00])).frameBytes
      ∧ (record ([0x24, 0x00, 0xC1] ++ List.replicate 32 0x11 ++ [0x00])).istream.readBytes (0 + 35) (36 - 35)
          = ([] : List Instr).flatMap Instr.encode ++ 0x00 :: [] := by decide

/-- A delta chunk with two tokens that bring `op` to exactly `N`, and a byte after them. -/
theorem witness_ChunkDeltaRunsItsTokens :
    (record [0x06, 0x00, 0x3E, 0x08, 0x08, 0xAD]).work = .record ∧ (Instr.chunkDelta 6 0x3E).wellFormed = true
      ∧ (record [0x06, 0x00, 0x3E, 0x08, 0x08, 0xAD]).rp + (6 : Half).toNat ≤ (record [0x06, 0x00, 0x3E, 0x08, 0x08, 0xAD]).ilen
      ∧ ((0x3E : Byte).getLsbD 7 = true → 35 ≤ (6 : Half).toNat)
      ∧ (∀ i ∈ [Instr.dSkip 8, .dSkip 8], i.format = .token .delta ∧ i.wellFormed = true)
      ∧ tokensCount [.dSkip 8, .dSkip 8] = (record [0x06, 0x00, 0x3E, 0x08, 0x08, 0xAD]).frameBytes
      ∧ (record [0x06, 0x00, 0x3E, 0x08, 0x08, 0xAD]).istream.readBytes (0 + 3) (6 - 3)
          = [Instr.dSkip 8, .dSkip 8].flatMap Instr.encode ++ [0xAD] := by decide

/-- The part of the hypotheses of ChunkDeltaRunsItsTokens about every token of the list. -/
theorem witness_ChunkDeltaRunsItsTokens_before (before after : List Instr) (i : Instr)
    (h : [Instr.dSkip 8, .dSkip 8] = before ++ i :: after) : tokensCount before < 16 := by
  match before, h with
  | [], _ => decide
  | [_], h => cases h; decide
  | _ :: _ :: [], h => cases h
  | _ :: _ :: _ :: _, h => cases h

theorem witness_TruncatedStreamFaults :
    ((stream [0xFF]).work = .idle ∧ (stream [0xFF]).fault = false ∧ (stream [0xFF]).eos = false
        ∧ (stream [0xFF]).ilen < (stream [0xFF]).rp + 2)
    ∧ (stream [0x03, 0x00]).rp + 2 ≤ (stream [0x03, 0x00]).ilen
      ∧ (3 : Half) = unLE16 ((stream [0x03, 0x00]).istream.read 0) ((stream [0x03, 0x00]).istream.read (0 + 1))
      ∧ (3 : Half) ≤ 3 ∧ (3 : Half) < 0xFF00 ∧ (stream [0x03, 0x00]).ilen < (stream [0x03, 0x00]).rp + (3 : Half).toNat := by decide

theorem witness_MalformedChunkFaults :
    ((stream [0x02, 0x00]).work = .idle ∧ (stream [0x02, 0x00]).fault = false ∧ (stream [0x02, 0x00]).eos = false
        ∧ (stream [0x02, 0x00]).rp + 2 ≤ (stream [0x02, 0x00]).ilen
        ∧ (2 : Half) = unLE16 ((stream [0x02, 0x00]).istream.read 0) ((stream [0x02, 0x00]).istream.read (0 + 1))
        ∧ (2 : Half) < 3 ∧ ¬ ((2 : Half) = 2 ∧ (stream [0x02, 0x00]).params.emptyChunk = .repeatFrame))
    ∧ (3 : Half) = unLE16 ((stream [0x03, 0x00, 0x81]).istream.read 0) ((stream [0x03, 0x00, 0x81]).istream.read (0 + 1))
      ∧ (3 : Half) ≤ 3 ∧ (3 : Half) < 35 ∧ (stream [0x03, 0x00, 0x81]).rp + (3 : Half).toNat ≤ (stream [0x03, 0x00, 0x81]).ilen
      ∧ ((stream [0x03, 0x00, 0x81]).istream.read (0 + 2)).getLsbD 7 = true := by decide

/-- The largest size that is too small for an announced palette. -/
theorem witness_MalformedChunkFaults_largest :
    (34 : Half) = unLE16 0x22 0x00 ∧ (34 : Half) < 35
      ∧ (stream ([0x22, 0x00, 0x81] ++ List.replicate 31 0)).rp + (34 : Half).toNat
          ≤ (stream ([0x22, 0x00, 0x81] ++ List.replicate 31 0)).ilen := by decide

theorem witness_DecChunkFaultsArePrecise :
    (stream []).fault = false ∧ exec .decChunk (stream []) = .next ((stream []).faulted .truncatedStream)
      ∧ ((stream []).faulted .truncatedStream).fault = true := ⟨rfl, rfl, rfl⟩

theorem witness_DecChunkAlwaysCompletes : (stream [0x03, 0x00, 0x01]).work = .idle := by rfl

theorem witness_DecChunkIdleAfterTheEnd :
    ({ blank with eos := true }.work = .idle ∧ { blank with eos := true }.eos = true)
    ∧ { blank with fault := true, cause := 1 }.work = .idle ∧ { blank with fault := true, cause := 1 }.fault = true :=
  ⟨⟨rfl, rfl⟩, rfl, rfl⟩

theorem witness_DecChunkWritesInsideTheFrame :
    exec .decChunk (stream [0x04, 0x00, 0x41, 0x00]) = .next ((stream [0x04, 0x00, 0x41, 0x00]).finishRecord 4)
      ∧ (stream [0x04, 0x00, 0x41, 0x00]).frameBytes ≤ 16 := ⟨rfl, by decide⟩

/-- A store that differs from ISTREAM at the first byte past ILEN. -/
theorem witness_DecChunkReadsOnlyTheStreamAhead :
    (∀ a, (stream [0x04, 0x00, 0x41, 0x00]).rp ≤ a → a < (stream [0x04, 0x00, 0x41, 0x00]).ilen →
        (Memory.ofBytes [0x04, 0x00, 0x41, 0x00, 0x99]).read a = (stream [0x04, 0x00, 0x41, 0x00]).istream.read a)
      ∧ exec .decChunk (stream [0x04, 0x00, 0x41, 0x00]) = .next ((stream [0x04, 0x00, 0x41, 0x00]).finishRecord 4) := by
  refine ⟨fun a _ h => ?_, rfl⟩
  have h : a < 4 := h
  revert a
  decide

/-- The first frame, and a second frame after it, each meet the conditions under which ENC_FRAME runs; the last with the smallest
capacity that suffices. -/
theorem witness_EncFrameAppendsOneChunk :
    (blank.work = .idle ∧ blank.fault = false ∧ blank.encEnded = false ∧ blank.inW = 320 ∧ blank.inH = 200
        ∧ blank.outRoom (2 * blank.frameBytes + 38) = true ∧ blank.encFirst = true)
    ∧ ({ blank with encEnded := true }.encEnded = true ∧ { blank with inW := 319 }.inW ≠ 320)
    ∧ ({ blank with params := { small with ocap := some 70 } }.outRoom (2 * 16 + 38) = true)
    ∧ ({ blank with params := { small with ocap := some 69 } }.outRoom (2 * 16 + 38) = false)
    ∧ { blank with encFirst := false, palEncValid := true }.work = .idle
      ∧ { blank with encFirst := false, palEncValid := true }.outRoom (2 * 16 + 38) = true := by decide

theorem witness_EncFrameTypeByteIsOneOfThree :
    blank.palEncValid = !blank.encFirst
      ∧ { blank with encFirst := false, palEncValid := true }.palEncValid
          = !{ blank with encFirst := false, palEncValid := true }.encFirst
      ∧ palPack { blank with encFirst := false, palEncValid := true }.palIn
          = { blank with encFirst := false, palEncValid := true }.palEncLast := by decide

theorem witness_EncodeCommandsFault :
    ({ blank with encEnded := true }.work = .idle ∧ { blank with encEnded := true }.fault = false)
    ∧ (blank.encEnded = false ∧ { blank with inW := 321 }.inW ≠ 320) ∧ { blank with inH := 199 }.inH ≠ 200 := by decide

theorem witness_EncEndAppendsTheSentinel :
    (blank.work = .idle ∧ blank.outRoom 2 = true ∧ blank.fault = false ∧ blank.encEnded = false)
    ∧ { blank with encEnded := true }.outRoom 2 = true ∧ { blank with params := { small with ocap := some 2 } }.outRoom 2 = true := by
  decide

theorem witness_PalPackPacksTheInput :
    blank.work = .idle ∧ blank.fault = false ∧ { blank with fault := true, cause := 1 }.fault = true := by decide

theorem witness_PalUnpackExpandsTheLevels :
    blank.work = .idle ∧ blank.fault = false ∧ { blank with fault := true, cause := 1 }.fault = true := by decide

theorem witness_AbortRecordsTheCause :
    blank.work = .idle ∧ blank.fault = false ∧ { blank with fault := true, cause := 1 }.fault = true
      ∧ (3 : Nibble) ≠ 4 ∧ (6 : Nibble) ≠ 5 := by decide

theorem witness_ResetRestoresTheTable :
    exec .reset { blank with fault := true, cause := 1 } = .next blank ∧ blank = State.resetWith blank.params blank.host := ⟨rfl, rfl⟩

theorem witness_ResetAlwaysCompletes :
    { blank with host := [.command 1 0] }.work = .idle ∧ { blank with host := [.command 1 0] }.host = .command 1 0 :: [] := by decide

theorem witness_ReservedCommandsAreIllegal :
    blank.work = .idle ∧ blank.fault = false
      ∧ { blank with host := [.command 8 3] }.host = .command 8 3 :: [] ∧ (8 : Nibble) ≤ 8 := by decide

theorem witness_FaultsAreSticky :
    { blank with fault := true, cause := 1 }.work = .idle ∧ { blank with fault := true, cause := 1 }.fault = true
      ∧ Instr.decChunk.format = .command ∧ Instr.decChunk ≠ .reset
      ∧ ((2 : Nibble) ≠ 1 ∧ { blank with fault := true, cause := 1, host := [.command 2 0] }.host = .command 2 0 :: [])
      ∧ hostAccess (.writeInW 640) { blank with fault := false, cause := 1 } = .next { blank with cause := 1, inW := 640 } :=
  ⟨rfl, rfl, rfl, by decide, ⟨by decide, rfl⟩, rfl⟩

theorem witness_StepRunsTheDecodedInstruction :
    (blank.work = .idle ∧ blank.host = [])
    ∧ decode .command [commandByte 7 4] = .ok (.abort 4, [])
    ∧ decode .record ((record [0x00, 0xFF]).istream.readBytes (record [0x00, 0xFF]).rp
        (min ((record [0x00, 0xFF]).ilen - (record [0x00, 0xFF]).rp) 3)) = .ok (.endStream 0xFF00, [])
    ∧ (run .delta 1 0 14).complete 16 = false
    ∧ decode (.token .delta) ((token .delta [2] 1 0 14).istream.readBytes (0 + 0) (min (1 - 0) 128)) = .ok (.dSkip 2, [])
    ∧ (stream [2, 0]).work = .idle ∧ (stream [2, 0]).fault = false ∧ (stream [2, 0]).eos = false := by decide

theorem witness_HostAccessesOnlyHostStores :
    { blank with host := [.writeInW 640] }.host = .writeInW 640 :: []
      ∧ (∀ code operand, HostAction.writeInW 640 ≠ .command code operand)
      ∧ step { blank with host := [.writeInW 640] } = .next { blank with inW := 640 } :=
  ⟨rfl, by intros; simp, rfl⟩

theorem witness_HostWritesOneByte_load :
    { blank with host := [.loadPixels (List.replicate 32 3)] }.host = .loadPixels (List.replicate 32 3) :: []
      ∧ pixPack (List.replicate 32 3) = some (List.replicate 16 0x33) ∧ (List.replicate 16 (0x33 : Byte)).length = blank.frameBytes
      ∧ pixPack [1, 2] = some [0x12] ∧ ([0x12] : List Byte).length ≠ blank.frameBytes := by decide

theorem witness_HostWritesOneByte :
    ({ blank with host := [.writeCur 15 7] }.host = .writeCur 15 7 :: [] ∧ 15 < blank.frameBytes)
    ∧ ({ blank with host := [.writeCur 16 7] }.host = .writeCur 16 7 :: [] ∧ blank.frameBytes ≤ 16)
    ∧ { blank with host := [.writeIstream 3 7] }.host = .writeIstream 3 7 :: [] ∧ blank.params.icap = none := by decide

theorem witness_HostWritesRegisters :
    blank.work = .idle ∧ { blank with host := [.writeInH 1] }.host = .writeInH 1 :: []
      ∧ ({ blank with host := [.writePalPk 31 7] }.host = .writePalPk 31 7 :: [] ∧ 31 < 32)
      ∧ ({ blank with host := [.writePalIn (4 * 15 + 3) 7] }.host = .writePalIn (4 * 15 + 3) 7 :: [] ∧ 15 < 16)
      ∧ blank.params.icap = none := by decide

theorem witness_EngineNeverWritesHostStores :
    Instr.encEnd ≠ .reset ∧ Instr.encEnd ≠ .palPack ∧ (∃ t, exec .encEnd blank = .next t)
      ∧ Instr.palPack ≠ .reset ∧ ∃ t, exec .palPack blank = .next t :=
  ⟨by decide, by decide, ⟨_, rfl⟩, by decide, _, rfl⟩

/-- For each clause a command that answers a next state; for the clauses about two states, two that differ in the other half. -/
theorem witness_HalvesAreIndependent :
    ((∃ t, exec .encFrame { blank with inW := 1 } = .next t) ∧ (∃ t, exec .encEnd blank = .next t)
      ∧ ∃ t, exec .palPack blank = .next t)
    ∧ (∃ t, exec .decChunk (stream [0x00, 0xFF]) = .next t)
    ∧ ((∃ t, exec (.abort 4) blank = .next t) ∧ (∃ t, exec .cmdRsvd0 blank = .next t) ∧ ∃ t, exec (.cmdRsvd8 7) blank = .next t)
    ∧ (SameEncoderHalf blank (stream [0x00, 0xFF]) ∧ SharedByHalves blank (stream [0x00, 0xFF]) ∧ blank.disp ≠ (stream [0x00, 0xFF]).disp)
    ∧ (SameDecoderHalf (stream [0x00, 0xFF]) { stream [0x00, 0xFF] with inW := 1 }
      ∧ SharedByHalves (stream [0x00, 0xFF]) { stream [0x00, 0xFF] with inW := 1 })
    ∧ blank.fault = false ∧ ∃ t, exec .palUnpack blank = .next t :=
  ⟨⟨⟨_, rfl⟩, ⟨_, rfl⟩, _, rfl⟩, ⟨_, rfl⟩, ⟨⟨_, rfl⟩, ⟨_, rfl⟩, _, rfl⟩,
    ⟨by simp only [SameEncoderHalf]; decide, ⟨rfl, rfl, rfl⟩, by decide⟩,
    ⟨by simp only [SameDecoderHalf]; decide, ⟨rfl, rfl, rfl⟩⟩, rfl, _, rfl⟩

theorem witness_ParametersNeverChange : step { blank with host := [.command 3 0] } = exec .encEnd blank
    ∧ ∃ t, exec .encEnd blank = .next t := ⟨rfl, _, rfl⟩

/-- A state between two frames, with a command on the port, has the invariant and a next state. -/
theorem witness_EveryStepKeepsTheInvariant :
    State.Inv { blank with encFirst := false, palEncValid := true, wp := 0, host := [.command 3 0] }
      ∧ ∃ t, step { blank with encFirst := false, palEncValid := true, wp := 0, host := [.command 3 0] } = .next t := by
  refine ⟨⟨⟨rfl, rfl⟩, ⟨rfl, rfl⟩, ⟨rfl, rfl⟩, fun f h => ?_, rfl, ⟨rfl, rfl⟩, rfl, fun _ => rfl, fun h => ?_, fun _ => rfl, rfl,
    fun h => ?_, by decide, fun c h => ?_, rfl, rfl⟩, _, rfl⟩
  · cases h
  · cases h
  · cases h
  · cases h

theorem witness_DeltaEncodeShape : ([1, 2, 3] : List Byte).length = ([1, 2, 4] : List Byte).length := by decide

/-- KeyEncode of a frame of one value, in a keyframe chunk without a palette. -/
theorem witness_KeyframeRoundTrip :
    (stream [0x06, 0x00, 0x41, 0x90, 0x33, 0x00]).work = .idle ∧ (0x41 : Byte).getLsbD 6 = true
      ∧ (List.replicate 16 (0x33 : Byte)).length = (stream [0x06, 0x00, 0x41, 0x90, 0x33, 0x00]).frameBytes
      ∧ ([] : List Byte).length = (if (0x41 : Byte).getLsbD 7 then 32 else 0)
      ∧ 0 + (3 + 0 + (keyEncode (List.replicate 16 0x33)).length) ≤ (stream [0x06, 0x00, 0x41, 0x90, 0x33, 0x00]).ilen
      ∧ (stream [0x06, 0x00, 0x41, 0x90, 0x33, 0x00]).istream.readBytes 0 (3 + 0 + (keyEncode (List.replicate 16 0x33)).length)
          = le16 (BitVec.ofNat 16 (3 + 0 + (keyEncode (List.replicate 16 0x33)).length)) ++ [0x41] ++ []
              ++ keyEncode (List.replicate 16 0x33) := by decide

/-- DeltaEncode of `D0` against itself, in a delta chunk without a palette. -/
theorem witness_DeltaRoundTrip :
    (stream [0x04, 0x00, 0x01, 0x10]).work = .idle ∧ (0x01 : Byte).getLsbD 6 = false
      ∧ d0.length = (stream [0x04, 0x00, 0x01, 0x10]).frameBytes
      ∧ ([] : List Byte).length = (if (0x01 : Byte).getLsbD 7 then 32 else 0)
      ∧ (stream [0x04, 0x00, 0x01, 0x10]).disp.readBytes 0 16 = d0
      ∧ 0 + (3 + 0 + (deltaEncode d0 d0).length) ≤ (stream [0x04, 0x00, 0x01, 0x10]).ilen
      ∧ (stream [0x04, 0x00, 0x01, 0x10]).istream.readBytes 0 (3 + 0 + (deltaEncode d0 d0).length)
          = le16 (BitVec.ofNat 16 (3 + 0 + (deltaEncode d0 d0).length)) ++ [0x01] ++ [] ++ deltaEncode d0 d0 := by decide

/-- The encoder's state before a second frame, the chunk it appends, and a decoder that shows the first frame. -/
theorem witness_EncodedChunkDecodesToTheFrame :
    (let s := { blank with encFirst := false, palEncValid := true, prev := Memory.ofBytes d0, cur := Memory.ofBytes d0 }
     let d := { stream [0x04, 0x00, 0x01, 0x10] with palDec := zeroPacked }
     exec .encFrame s = .next s.afterFrame ∧ d.work = .idle ∧ d.fault = false ∧ d.eos = false ∧ d.params.frame = s.params.frame
      ∧ d.rp + (s.afterFrame.wp - s.wp) ≤ d.ilen
      ∧ d.istream.readBytes d.rp (s.afterFrame.wp - s.wp) = s.afterFrame.ostream.readBytes s.wp (s.afterFrame.wp - s.wp)
      ∧ d.disp.readBytes 0 s.frameBytes = s.prev.readBytes 0 s.frameBytes ∧ d.palDec = s.palEncLast) :=
  ⟨rfl, rfl, rfl, rfl, rfl, by decide, by decide, by decide, by decide⟩

theorem witness_StreamRoundTrip :
    small.ocap = none ∧ smallRepeat.frame = small.frame
      ∧ ∀ f ∈ [(zeroColours, d0), (zeroColours, List.replicate 16 7)], f.2.length = small.frame.bytes := by decide

/-- The input stream store may be exactly as long as the stream: one frame, 3 + 32 + 18 bytes, and the sentinel. -/
theorem witness_StreamRoundTrip_capacity :
    (encodeStream small [(zeroColours, d0)]).map List.length = some 55
      ∧ ∀ cap, { small with icap := some 55 }.icap = some cap → 55 ≤ cap := ⟨by decide, by simp⟩

/-- A keyframe chunk whose tokens fill the frame and whose K.END is missing (spec/95, section 3). -/
theorem witness_TokenFaultsKeepEarlierWrites_missing :
    (let s := stream [0x05, 0x00, 0x41, 0x90, 0x07]
     s.work = .idle ∧ s.fault = false ∧ s.eos = false ∧ (5 : Half) = unLE16 (s.istream.read s.rp) (s.istream.read (s.rp + 1))
      ∧ (3 : Half) ≤ 5 ∧ (5 : Half) < 0xFF00 ∧ s.rp + (5 : Half).toNat ≤ s.ilen ∧ (0x41 : Byte) = s.istream.read (s.rp + 2)
      ∧ (0x41 : Byte).getLsbD 7 = false
      ∧ (∀ i ∈ [Instr.kRun 16 7], i.format = .token .key ∧ i.wellFormed = true ∧ i ≠ .kEnd)
      ∧ tokensCount [.kRun 16 7] ≤ s.frameBytes
      ∧ s.istream.readBytes (s.rp + 3) ((5 : Half).toNat - 3) = [Instr.kRun 16 7].flatMap Instr.encode ++ []
      ∧ decode (.token .key) [] = .error .missingByte) := by decide

/-- A delta chunk with a literal of 2 and then a skip one longer than the room left (spec/95, section 6). -/
theorem witness_TokenFaultsKeepEarlierWrites_overrun :
    (let s := stream [0x07, 0x00, 0x01, 0x82, 0xA1, 0xA2, 0x0F]
     s.work = .idle ∧ s.fault = false ∧ s.eos = false ∧ (7 : Half) = unLE16 (s.istream.read s.rp) (s.istream.read (s.rp + 1))
      ∧ (3 : Half) ≤ 7 ∧ (7 : Half) < 0xFF00 ∧ s.rp + (7 : Half).toNat ≤ s.ilen ∧ (0x01 : Byte) = s.istream.read (s.rp + 2)
      ∧ (0x01 : Byte).getLsbD 7 = false
      ∧ (∀ i ∈ [Instr.dLit [0xA1, 0xA2]], i.format = .token .delta ∧ i.wellFormed = true ∧ i ≠ .kEnd)
      ∧ tokensCount [.dLit [0xA1, 0xA2]] < s.frameBytes
      ∧ s.istream.readBytes (s.rp + 3) ((7 : Half).toNat - 3) = [Instr.dLit [0xA1, 0xA2]].flatMap Instr.encode ++ [0x0F]
      ∧ decode (.token .delta) [0x0F] = .ok (.dSkip 15, [])
      ∧ s.frameBytes - tokensCount [.dLit [0xA1, 0xA2]] < tokenCount (.dSkip 15)) := by decide

/-- The smallest chunk that holds a palette and the token stream that is missing after it (spec/95, section 9). -/
theorem witness_TokenFaultsKeepEarlierWrites_palette :
    (35 : Half) = unLE16 0x23 0x00 ∧ (0x81 : Byte).getLsbD 7 = true ∧ 35 ≤ (35 : Half).toNat
      ∧ (stream ([0x23, 0x00, 0x81] ++ List.replicate 32 0x11)).rp + (35 : Half).toNat
          ≤ (stream ([0x23, 0x00, 0x81] ++ List.replicate 32 0x11)).ilen
      ∧ (stream ([0x23, 0x00, 0x81] ++ List.replicate 32 0x11)).istream.readBytes (0 + 35) (35 - 35)
          = ([] : List Instr).flatMap Instr.encode ++ []
      ∧ decode (.token .delta) [] = .error .missingByte := by decide

/-- Capacities that are short by one byte. -/
theorem witness_FiniteCapacitiesAreRefused :
    (let s := { blank with params := { small with ocap := some 69 } }
     s.work = .idle ∧ s.fault = false ∧ s.encEnded = false ∧ s.params.ocap = some 69 ∧ s.inW = 320 ∧ s.inH = 200
      ∧ 69 < s.wp + (2 * s.frameBytes + 38))
    ∧ (let s := { blank with params := { small with ocap := some 1 } }
       s.params.ocap = some 1 ∧ 1 < s.wp + 2)
    ∧ { small with icap := some 3 }.icap = some 3 ∧ 3 < ([0x04, 0x00, 0x01, 0x10] : List Byte).length := by decide

theorem witness_PixelViewsAreInverse : 0 < ([0x12] : List Byte).length ∧ pixPack [1, 2, 15, 0] = some [0x12, 0xF0] ∧ pixPack [16, 0] = none ∧ pixPack [1] = none := by
  decide

theorem witness_PixelLayoutIsRowMajor : 319 < 320 ∧ 199 < 200 := by decide

end Sys2Proof.Tests
end

/-! The scope of the model: taking a fault, the completion of DEC_CHUNK, and the open parameters. First what the decoder reads in each
format, then that no record or token it reads is refused, then that no operation touches `params`. -/

namespace Sys2Proof

/-! ### The format of what the decoder reads -/

theorem decodeLiteral_ok {mk : List Byte → Instr} {n : Nat} {bytes rest : List Byte} {i : Instr}
    (h : decodeLiteral mk n bytes = .ok (i, rest)) : ∃ data, i = mk data := by
  unfold decodeLiteral at h
  split at h
  · cases h
  · exact ⟨_, by cases h; rfl⟩

theorem decodeKey_format {bytes rest : List Byte} {i : Instr} (h : decodeKey bytes = .ok (i, rest)) : i.format = .token .key := by
  unfold decodeKey at h
  split at h
  · cases h
  · split at h
    · cases h; rfl
    · split at h
      · obtain ⟨data, rfl⟩ := decodeLiteral_ok h
        rfl
      · split at h
        · cases h
        · split at h <;> cases h <;> rfl

theorem decodeDelta_format {bytes rest : List Byte} {i : Instr} (h : decodeDelta bytes = .ok (i, rest)) :
    i.format = .token .delta := by
  unfold decodeDelta at h
  split at h
  · cases h
  · split at h
    · split at h
      · cases h
      · split at h
        · cases h; rfl
        · split at h <;> cases h
          rfl
    · split at h
      · cases h; rfl
      · split at h
        · obtain ⟨data, rfl⟩ := decodeLiteral_ok h
          rfl
        · cases h; rfl

theorem decodeRecord_format {bytes rest : List Byte} {i : Instr} (h : decodeRecord bytes = .ok (i, rest)) : i.format = .record := by
  unfold decodeRecord at h
  split at h
  · simp only at h
    split at h
    · cases h; rfl
    · split at h
      · cases h; rfl
      · split at h
        · cases h
        · split at h <;> cases h <;> rfl
  · cases h

theorem commandOf_format (code operand : Nibble) : (commandOf code operand).format = .command := by
  unfold commandOf
  split <;> rfl

theorem decodeCommand_format {bytes rest : List Byte} {i : Instr} (h : decodeCommand bytes = .ok (i, rest)) :
    i.format = .command := by
  unfold decodeCommand at h
  split at h
  · cases h
  · cases h
    exact commandOf_format _ _

/-- The decoder of a format reads only instructions of that format. -/
theorem decode_format {f : Format} {bytes rest : List Byte} {i : Instr} (h : decode f bytes = .ok (i, rest)) : i.format = f := by
  cases f with
  | command => exact decodeCommand_format h
  | record => exact decodeRecord_format h
  | token g =>
    cases g with
    | key => exact decodeKey_format h
    | delta => exact decodeDelta_format h

end Sys2Proof

namespace Sys2Proof.Machine

/-! ### Taking a fault -/

/-- The causes in the order of the table of R260 have the codes 1 to 8. -/
theorem causeCodes_eq :
    [Cause.geometryMismatch, .truncatedStream, .malformedChunk, .sourceReadFailure, .sinkWriteFailure, .payloadOverrun, .frameOverrun,
      .illegalCommand].map Cause.code = [1, 2, 3, 4, 5, 6, 7, 8] := rfl

/-- Settles O37: every cause faults in the same way, and the codes are those of the table. -/
theorem faultEntryRecordsTheCause : Obligations.FaultEntryRecordsTheCause := by
  intro s
  rw [← causeCodes_eq, List.map_map]
  exact List.map_congr_left fun c _ => raise_eq c s

/-! ### The dispatch of `exec` by format -/

theorem exec_eq_execToken {i : Instr} {g : Grammar} (hf : i.format = .token g) (s : State) : exec i s = execToken i s := by
  cases i <;> cases hf <;> rfl

theorem exec_eq_execRecord {i : Instr} (hf : i.format = .record) (s : State) : exec i s = execRecord i s := by
  cases i <;> cases hf <;> rfl

/-! ### A token that is read where its grammar is in force is not refused -/

theorem passToken_next (s : State) (c : TokenRun) (len : Nat) : ∃ t, passToken s c len = .next t := by
  unfold passToken
  split <;> exact ⟨_, rfl⟩

theorem endToken_next (s : State) (c : TokenRun) (len : Nat) : ∃ t, endToken s c len = .next t := by
  unfold endToken
  split <;> exact ⟨_, rfl⟩

theorem storeToken_next (s : State) (c : TokenRun) (len : Nat) (bytes : List Byte) : ∃ t, storeToken s c len bytes = .next t := by
  unfold storeToken
  split
  · exact ⟨_, rfl⟩
  · split <;> exact ⟨_, rfl⟩

theorem skipToken_next (s : State) (c : TokenRun) (len cnt : Nat) : ∃ t, skipToken s c len cnt = .next t := by
  unfold skipToken
  split
  · exact ⟨_, rfl⟩
  · split <;> exact ⟨_, rfl⟩

theorem inTokens_next {g : Grammar} {s : State} {c : TokenRun} {body : TokenRun → Result} (hw : s.work = .tokens c)
    (hc : c.complete s.frameBytes = false) (hg : Format.token c.grammar = .token g) (hb : ∃ t, body c = .next t) :
    ∃ t, inTokens g s body = .next t := by
  rw [inTokens_run g s c body hw (Format.token.inj hg) hc]
  exact hb

theorem execToken_next {i : Instr} {s : State} {c : TokenRun} (hw : s.work = .tokens c) (hc : c.complete s.frameBytes = false)
    (hf : i.format = .token c.grammar) : ∃ t, execToken i s = .next t := by
  cases i with
  | kEnd => exact inTokens_next hw hc hf.symm (endToken_next s c _)
  | kLit data => exact inTokens_next hw hc hf.symm (storeToken_next s c _ _)
  | kRun0 v => exact inTokens_next hw hc hf.symm (passToken_next s c _)
  | kRun cnt v => exact inTokens_next hw hc hf.symm (storeToken_next s c _ _)
  | dRun0 => exact inTokens_next hw hc hf.symm (passToken_next s c _)
  | dRun cnt v => exact inTokens_next hw hc hf.symm (storeToken_next s c _ _)
  | dSkip cnt => exact inTokens_next hw hc hf.symm (skipToken_next s c _ _)
  | dLit0 => exact inTokens_next hw hc hf.symm (passToken_next s c _)
  | dLit data => exact inTokens_next hw hc hf.symm (storeToken_next s c _ _)
  | _ => cases hf

theorem tokenTurn_next {s : State} {c : TokenRun} (hw : s.work = .tokens c) : ∃ t, tokenTurn c s = .next t := by
  unfold tokenTurn
  split
  · exact ⟨_, rfl⟩
  · rename_i hc
    split
    · rename_i i rest hd
      exact execToken_next hw (by simpa using hc) (decode_format hd)
    · exact ⟨_, rfl⟩

/-! ### The loop and the records complete -/

theorem runTokens_next (fuel : Nat) (s : State) : ∃ t, runTokens fuel s = .next t := by
  induction fuel generalizing s with
  | zero => unfold runTokens; split <;> exact ⟨_, rfl⟩
  | succ fuel ih =>
    cases hw : s.work with
    | tokens c =>
      obtain ⟨u, hu⟩ := tokenTurn_next hw
      rw [runTokens_succ fuel s u c hw hu]
      exact ih u
    | idle => exact ⟨s, runTokens_idle _ s hw⟩
    | record => exact ⟨s, by rw [runTokens, hw]⟩

/-- The loop over a chunk's tokens, once started, ends between two commands: every way out of it is a fault or the end of the record. -/
theorem runTokens_completes {s : State} {c : TokenRun} (fuel : Nat) (hw : s.work = .tokens c) :
    ∃ t, runTokens fuel s = .next t ∧ t.work = .idle := by
  obtain ⟨t, ht⟩ := runTokens_next fuel s
  refine ⟨t, ht, ?_⟩
  rcases runTokens_induction (P := fun _ => True) (fun _ _ _ _ _ _ _ => trivial) trivial ht with
    ⟨-, hn⟩ | ⟨u, d, -, -, rfl | rfl | ⟨-, rfl⟩⟩
  · exact absurd hw (hn c)
  · exact State.faulted_work u _
  · exact State.faulted_work u _
  · exact State.finishRecord_work u _

theorem execChunk_completes {s : State} (g : Grammar) (size : Half) (type : Byte) (hw : s.work = .record) :
    ∃ t, execChunk g size type s = .next t ∧ t.work = .idle := by
  rw [execChunk, atRecord_run s _ hw]
  rcases openChunk_cases s g size type with ⟨-, ho⟩ | ⟨-, -, -, ho⟩ | ⟨-, -, -, ho⟩ | ⟨-, -, ho⟩ <;> rw [ho]
  · exact ⟨_, rfl, rfl⟩
  · exact ⟨_, rfl, rfl⟩
  · exact runTokens_completes _ (State.startTokens_work _ _ _ _ _)
  · exact runTokens_completes _ (State.startTokens_work _ _ _ _ _)

theorem execRecord_completes {i : Instr} {s : State} (hf : i.format = .record) (hw : s.work = .record) :
    ∃ t, execRecord i s = .next t ∧ t.work = .idle := by
  cases i with
  | endStream size => exact ⟨_, atRecord_run s _ hw, rfl⟩
  | chunkShort size =>
    rw [execRecord_chunkShort, execChunkShort, atRecord_run s _ hw]
    split <;> exact ⟨_, rfl, rfl⟩
  | chunkKey size type => exact execChunk_completes .key size type hw
  | chunkDelta size type => exact execChunk_completes .delta size type hw
  | _ => cases hf

theorem recordTurn_completes {s : State} (hw : s.work = .record) : ∃ t, recordTurn s = .next t ∧ t.work = .idle := by
  unfold recordTurn
  split
  · rename_i i rest hd
    exact execRecord_completes (decode_format hd) hw
  · exact ⟨_, rfl, rfl⟩

theorem exec_decChunk (s : State) :
    exec .decChunk s = command s fun s => if s.eos then .next s else recordTurn { s with work := .record } := rfl

/-- Settles O21: without effect under FAULT or EOS, else the turn of the record at RP, which completes. -/
theorem decChunkAlwaysCompletes : Obligations.DecChunkAlwaysCompletes := by
  intro s hw
  rw [exec_decChunk]
  by_cases hf : s.fault = true
  · exact ⟨s, command_sticky s _ hw hf, hw⟩
  · rw [command_run s _ hw (by simpa using hf)]
    split
    · exact ⟨s, rfl, hw⟩
    · exact recordTurn_completes rfl

/-! ### No operation changes the open parameters -/

theorem raise_params {c : Cause} {s t : State} (h : raise c s = .next t) : t.params = s.params := by
  cases h
  rfl

theorem command_params {s t : State} {body : State → Result} (h : command s body = .next t)
    (hb : body s = .next t → t.params = s.params) : t.params = s.params := by
  obtain ⟨-, ⟨-, rfl⟩ | ⟨-, h⟩⟩ := command_cases h
  · rfl
  · exact hb h

theorem hostAccess_params {act : HostAction} {s t : State} (h : hostAccess act s = .next t) : t.params = s.params := by
  rcases hostAccess_cases h with rfl | ⟨_, _, _, rfl⟩ | ⟨_, _, rfl⟩ | ⟨_, rfl⟩ | ⟨_, rfl⟩ | ⟨_, rfl⟩ | ⟨_, rfl⟩ | ⟨_, _, _, rfl⟩
    | ⟨_, _, rfl⟩ <;> rfl

theorem execToken_params {i : Instr} {s t : State} (h : execToken i s = .next t) : t.params = s.params := by
  rw [execToken_frame h]

theorem runTokens_params {fuel : Nat} {s t : State} (h : runTokens fuel s = .next t) : t.params = s.params := by
  have move : ∀ u c v, u.params = s.params → u.work = .tokens c → c.complete u.frameBytes = false → TokenMoves u c v →
      v.params = s.params := by
    rintro u c v hu - - ⟨d, m, rfl, -⟩
    exact hu
  rcases runTokens_induction move rfl h with ⟨rfl, -⟩ | ⟨u, c, hu, -, rfl | rfl | ⟨-, rfl⟩⟩
  · rfl
  · exact hu
  · exact hu
  · exact hu

theorem execChunk_params {g : Grammar} {size : Half} {type : Byte} {s t : State} (h : execChunk g size type s = .next t) :
    t.params = s.params := by
  obtain ⟨-, h⟩ := atRecord_cases h
  rcases openChunk_cases s g size type with ⟨-, ho⟩ | ⟨-, -, -, ho⟩ | ⟨-, -, -, ho⟩ | ⟨-, -, ho⟩ <;> rw [ho] at h
  · exact raise_params h
  · exact raise_params h
  · exact (runTokens_params h).trans (State.startTokens_params _ _ _ _ _)
  · exact (runTokens_params h).trans (State.startTokens_params _ _ _ _ _)

theorem execRecord_params {i : Instr} {s t : State} (h : execRecord i s = .next t) : t.params = s.params := by
  cases i with
  | endStream size =>
    obtain ⟨-, h⟩ := atRecord_cases h
    cases h
    rfl
  | chunkShort size =>
    obtain ⟨-, h⟩ := atRecord_cases h
    split at h
    · cases h; rfl
    · exact raise_params h
  | chunkKey size type => exact execChunk_params h
  | chunkDelta size type => exact execChunk_params h
  | _ => cases h

theorem recordTurn_params {s t : State} (h : recordTurn s = .next t) : t.params = s.params := by
  unfold recordTurn at h
  split at h
  · exact execRecord_params h
  · exact raise_params h

theorem execEncFrame_params {s t : State} (h : execEncFrame s = .next t) : t.params = s.params := by
  refine command_params h fun h => ?_
  split at h
  · exact raise_params h
  · split at h
    · exact raise_params h
    · split at h <;> cases h
      rfl

theorem execEncEnd_params {s t : State} (h : execEncEnd s = .next t) : t.params = s.params := by
  refine command_params h fun h => ?_
  split at h
  · exact raise_params h
  · split at h <;> cases h
    rfl

theorem execDecChunk_params {s t : State} (h : execDecChunk s = .next t) : t.params = s.params := by
  refine command_params h fun h => ?_
  split at h
  · cases h; rfl
  · exact (recordTurn_params h).trans rfl

theorem execAbort_params {cause : Nibble} {s t : State} (h : execAbort cause s = .next t) : t.params = s.params := by
  refine command_params h fun h => ?_
  split at h
  · exact raise_params h
  · split at h <;> exact raise_params h

theorem execPalPack_params {s t : State} (h : execPalPack s = .next t) : t.params = s.params := by
  refine command_params h fun h => ?_
  cases h
  rfl

theorem execPalUnpack_params {s t : State} (h : execPalUnpack s = .next t) : t.params = s.params := by
  refine command_params h fun h => ?_
  cases h
  rfl

theorem exec_command_params {i : Instr} {s t : State} (hf : i.format = .command) (h : exec i s = .next t) :
    t.params = s.params := by
  cases i with
  | reset => cases h; exact State.afterReset_params s
  | encFrame => exact execEncFrame_params h
  | encEnd => exact execEncEnd_params h
  | decChunk => exact execDecChunk_params h
  | palPack => exact execPalPack_params h
  | palUnpack => exact execPalUnpack_params h
  | abort cause => exact execAbort_params h
  | cmdRsvd0 => exact command_params h raise_params
  | cmdRsvd8 low => exact command_params h raise_params
  | _ => cases hf

theorem exec_params {i : Instr} {s t : State} (h : exec i s = .next t) : t.params = s.params := by
  cases hf : i.format with
  | command => exact exec_command_params hf h
  | record => exact execRecord_params (exec_eq_execRecord hf s ▸ h)
  | token g => exact execToken_params (exec_eq_execToken hf s ▸ h)

/-- Settles O45, by the branches of `step`: the host's action, the record or the token. -/
theorem parametersNeverChange : Obligations.ParametersNeverChange := by
  intro s t h
  unfold step at h
  split at h
  case h_1 =>
    split at h
    · cases h; rfl
    · split at h
      · exact (exec_params h).trans rfl
      · cases h; rfl
    · exact (hostAccess_params h).trans rfl
  case h_2 =>
    split at h
    · exact exec_params h
    · exact raise_params h
  case h_3 =>
    split at h
    · cases h; rfl
    · split at h
      · exact exec_params h
      · exact raise_params h

end Sys2Proof.Machine

/-! The state of the block: what a step runs, what the host can write, what no instruction writes, the independence of the two halves,
and the invariant. -/

namespace Sys2Proof.Machine

/-! ### What a step runs -/

theorem fetchCommand_eq (code operand : Nibble) : fetchCommand code operand = .ok (commandOf code operand, []) := by
  simp only [fetchCommand, decode, decodeCommand, commandByte_code, commandByte_operand]

/-- With nothing to do the block is idle. -/
theorem step_noAction {s : State} (hw : s.work = .idle) (hh : s.host = []) : step s = .next s := by
  simp only [step, hw, hh]

/-- A command on the port is executed, taken off the script. -/
theorem step_command {s : State} {code operand : Nibble} {rest : List HostAction} (hw : s.work = .idle)
    (hh : s.host = .command code operand :: rest) : step s = exec (commandOf code operand) { s with host := rest } := by
  simp only [step, hw, hh, fetchCommand_eq]

/-- Any other action of the host is made, taken off the script. -/
theorem step_access {s : State} {act : HostAction} {rest : List HostAction} (hw : s.work = .idle) (hh : s.host = act :: rest)
    (ha : ∀ code operand, act ≠ .command code operand) : step s = hostAccess act { s with host := rest } := by
  cases act with
  | command code operand => exact absurd rfl (ha code operand)
  | _ => simp only [step, hw, hh]

/-- A step about to read a record is the turn of DEC_CHUNK. -/
theorem step_record {s : State} (hw : s.work = .record) : step s = recordTurn s := by
  cases hd : s.fetchRecord with
  | ok p =>
    obtain ⟨i, rest⟩ := p
    simp only [step, hw, recordTurn, hd]
    exact exec_eq_execRecord (decode_format hd) s
  | error e =>
    cases e
    simp only [step, hw, recordTurn, hd]

/-- A step inside a chunk is one turn of the loop over its tokens. -/
theorem step_tokens {s : State} {c : TokenRun} (hw : s.work = .tokens c) : step s = tokenTurn c s := by
  by_cases hc : c.complete s.frameBytes = true
  · simp only [step, hw, tokenTurn, hc, if_true]
  cases hd : s.fetchToken c with
  | ok p =>
    obtain ⟨i, rest⟩ := p
    simp only [step, hw, tokenTurn, hc, hd]
    exact exec_eq_execToken (decode_format hd) s
  | error e =>
    cases e
    simp only [step, hw, tokenTurn, hc, hd]

/-- Between commands, without a fault and before the end of the stream, DEC_CHUNK is the turn of the record at RP. -/
theorem exec_decChunk_run {s : State} (hw : s.work = .idle) (hf : s.fault = false) (he : s.eos = false) :
    exec .decChunk s = recordTurn { s with work := .record } := by
  rw [exec_decChunk, command_run s _ hw hf, he]
  rfl

/-- Settles O39: each clause is one branch of the step. -/
theorem stepRunsTheDecodedInstruction : Obligations.StepRunsTheDecodedInstruction := by
  intro s
  refine ⟨step_noAction, fun code operand rest i hw hh hd => ?_, fun i tail hw hd => ?_, fun c i tail hw hc hd => ?_,
    fun hw hf he => ?_⟩
  · obtain rfl : commandOf code operand = i := by simpa using (fetchCommand_eq code operand).symm.trans hd
    exact step_command hw hh
  · have hfetch : s.fetchRecord = .ok (i, tail) := hd
    simp only [step, hw, hfetch]
  · have hfetch : s.fetchToken c = .ok (i, tail) := hd
    simp only [step, hw, hc, hfetch, Bool.false_eq_true, if_false]
  · rw [exec_decChunk_run hw hf he, step_record rfl]

/-! ### The registers the host reads -/

/-- The bits of a vector with one flag put below it. -/
theorem getLsbD_append_ofBool {w : Nat} (x : BitVec w) (b : Bool) (k : Nat) :
    (x ++ BitVec.ofBool b).getLsbD k = if k = 0 then b else x.getLsbD (k - 1) := by
  rw [BitVec.getLsbD_append]
  cases k with
  | zero => simp
  | succ k => simp

theorem status_getLsbD (s : State) (k : Nat) :
    s.status.getLsbD k = if k = 0 then s.fault else if k = 1 then s.eos else if k = 2 then s.encFirst else if k = 3 then s.encEnded
      else if k = 4 then s.palEncValid else false := by
  change BitVec.getLsbD (w := 3 + 1 + 1 + 1 + 1 + 1) _ k = _
  simp only [State.status, getLsbD_append_ofBool]
  match k with
  | 0 | 1 | 2 | 3 | 4 => rfl
  | k + 5 => simp

theorem causeReg_toNat (s : State) : s.causeReg.toNat = s.cause.toNat :=
  (BitVec.toNat_append (0 : Nibble) s.cause).trans (by simp)

/-- Settles O38. -/
theorem statusShowsTheFlags : Obligations.StatusShowsTheFlags :=
  ⟨fun s => ⟨status_getLsbD s, causeReg_toNat s, fun _ => ⟨rfl, rfl⟩⟩, rfl, rfl⟩

/-! ### What the host writes -/

/-- Settles O40: an access changes one of the host-writable stores of R49, or nothing. -/
theorem hostAccessesOnlyHostStores : Obligations.HostAccessesOnlyHostStores := by
  intro s t act rest hw hh ha h
  rw [step_access hw hh ha] at h
  rcases hostAccess_cases h with rfl | ⟨_, _, _, rfl⟩ | ⟨_, _, rfl⟩ | ⟨_, rfl⟩ | ⟨_, rfl⟩ | ⟨_, rfl⟩ | ⟨_, rfl⟩ | ⟨_, _, _, rfl⟩
    | ⟨_, _, rfl⟩ <;> rfl

theorem hostAccess_writeCur (a : Nat) (b : Byte) (s : State) :
    hostAccess (.writeCur a b) s
      = if a < s.frameBytes then .next { s with cur := s.cur.write a b } else .fault .noSuchOffset := rfl

theorem hostAccess_loadPixels {indices frame : List Byte} (h : pixPack indices = some frame) (s : State) :
    hostAccess (.loadPixels indices) s
      = if frame.length = s.frameBytes then .next { s with cur := s.cur.writeBytes 0 frame } else .refused .pixPackUndefined := by
  simp only [hostAccess, h]

theorem hostAccess_writeIstream (a : Nat) (b : Byte) (s : State) :
    hostAccess (.writeIstream a b) s
      = if s.inCapacity (a + 1) then .next { s with istream := s.istream.write a b } else .refused .istreamCapacity := rfl

theorem hostAccess_writeIlen (n : Nat) (s : State) :
    hostAccess (.writeIlen n) s = if s.inCapacity n then .next { s with ilen := n } else .refused .istreamCapacity := rfl

theorem hostAccess_writePalPk {k : Nat} (h : k < 32) (b : Byte) (s : State) :
    hostAccess (.writePalPk k b) s = .next { s with palPk := s.palPk.set k b } := by
  simp only [hostAccess, h, dite_true]

theorem hostAccess_writePalIn {a : Nat} (h : a < 64) (b : Byte) (s : State) :
    hostAccess (.writePalIn a b) s = .next { s with palIn := setColourByte s.palIn a b h } := by
  simp only [hostAccess, h, dite_true]

/-- An unbounded input stream store has room for everything. -/
theorem inCapacity_unbounded {s : State} (h : s.params.icap = none) (n : Nat) : s.inCapacity n = true := by
  rw [State.inCapacity_iff, h]
  simp

/-- One written byte reads back, and every other byte is as before. -/
theorem Memory.write_reads (m : Memory) (a : Nat) (b : Byte) :
    (m.write a b).read a = b ∧ ∀ x, x ≠ a → (m.write a b).read x = m.read x :=
  ⟨by simp [Memory.read_write], fun x hx => by simp [Memory.read_write, hx]⟩

/-- Settles O41. -/
theorem hostWritesOneByte : Obligations.HostWritesOneByte := by
  intro s a b rest hw
  refine ⟨fun hh ha => ?_, fun hh ha => ?_, fun hh hc => ?_, fun indices frame hh hp => ⟨fun hl => ?_, fun hl => ?_⟩⟩
  all_goals rw [step_access hw hh (by simp)]
  · obtain ⟨same, other⟩ := Memory.write_reads s.cur a b
    exact ⟨_, (hostAccess_writeCur _ _ _).trans (if_pos ha), same, other, rfl⟩
  · exact (hostAccess_writeCur _ _ _).trans (if_neg (Nat.not_lt.mpr ha))
  · obtain ⟨same, other⟩ := Memory.write_reads s.istream a b
    exact ⟨_, (hostAccess_writeIstream _ _ _).trans (if_pos (inCapacity_unbounded hc _)), same, other, rfl⟩
  · refine ⟨_, (hostAccess_loadPixels hp _).trans (if_pos hl), ?_, fun x hx => ?_, rfl⟩
    · rw [← hl]
      exact Memory.readBytes_writeBytes _ _ _
    · exact Memory.read_writeBytes_outside _ _ _ _ (.inr (by omega))
  · exact (hostAccess_loadPixels hp _).trans (if_neg hl)

/-! The four bytes of a colour of PAL_IN, in the order of R57. -/

theorem setColourByte_r (u : UnpackedPalette) (k : Nat) (b : Byte) (hk : k < 16) (h : 4 * k < 64) :
    setColourByte u (4 * k) b h = u.set k { u[k] with r := b } := by
  have hq : 4 * k / 4 = k := by omega
  have hr : 4 * k % 4 = 0 := by omega
  simp only [setColourByte, hq, hr]

theorem setColourByte_g (u : UnpackedPalette) (k : Nat) (b : Byte) (hk : k < 16) (h : 4 * k + 1 < 64) :
    setColourByte u (4 * k + 1) b h = u.set k { u[k] with g := b } := by
  have hq : (4 * k + 1) / 4 = k := by omega
  have hr : (4 * k + 1) % 4 = 1 := by omega
  simp only [setColourByte, hq, hr]

theorem setColourByte_b (u : UnpackedPalette) (k : Nat) (b : Byte) (hk : k < 16) (h : 4 * k + 2 < 64) :
    setColourByte u (4 * k + 2) b h = u.set k { u[k] with b := b } := by
  have hq : (4 * k + 2) / 4 = k := by omega
  have hr : (4 * k + 2) % 4 = 2 := by omega
  simp only [setColourByte, hq, hr]

theorem setColourByte_a (u : UnpackedPalette) (k : Nat) (b : Byte) (hk : k < 16) (h : 4 * k + 3 < 64) :
    setColourByte u (4 * k + 3) b h = u.set k { u[k] with a := b } := by
  have hq : (4 * k + 3) / 4 = k := by omega
  have hr : (4 * k + 3) % 4 = 3 := by omega
  simp only [setColourByte, hq, hr]

/-- Settles O42. -/
theorem hostWritesRegisters : Obligations.HostWritesRegisters := by
  intro s rest b v n hw
  refine ⟨fun hh => ?_, fun hh => ?_, fun hh hc => ?_, fun k hk hh => ?_,
    fun k hk => ⟨fun hh => ?_, fun hh => ?_, fun hh => ?_, fun hh => ?_⟩⟩
  all_goals rw [step_access hw hh (by simp)]
  · rfl
  · rfl
  · exact (hostAccess_writeIlen _ _).trans (if_pos (inCapacity_unbounded hc _))
  · exact hostAccess_writePalPk hk _ _
  · rw [hostAccess_writePalIn (by omega), setColourByte_r _ _ _ hk]
  · rw [hostAccess_writePalIn (by omega), setColourByte_g _ _ _ hk]
  · rw [hostAccess_writePalIn (by omega), setColourByte_b _ _ _ hk]
  · rw [hostAccess_writePalIn (by omega), setColourByte_a _ _ _ hk]

end Sys2Proof.Machine

namespace Sys2Proof.Machine

/-! ### What each command can do -/

/-- Every command but RESET is dispatched by `command`. -/
theorem exec_eq_command {i : Instr} (hf : i.format = .command) (hr : i ≠ .reset) : ∃ body, ∀ s, exec i s = command s body := by
  cases i with
  | encFrame | encEnd | decChunk | palPack | palUnpack | abort cause | cmdRsvd0 | cmdRsvd8 low => exact ⟨_, fun _ => rfl⟩
  | reset => exact absurd rfl hr
  | _ => cases hf

/-- Under FAULT a command that answers a next state has no effect. -/
theorem exec_sticky {i : Instr} {s t : State} (hf : i.format = .command) (hr : i ≠ .reset) (h : exec i s = .next t)
    (hs : s.fault = true) : s.work = .idle ∧ t = s := by
  obtain ⟨body, hb⟩ := exec_eq_command hf hr
  rw [hb] at h
  obtain ⟨hw, ⟨-, rfl⟩ | ⟨hn, -⟩⟩ := command_cases h
  · exact ⟨hw, rfl⟩
  · exact absurd (hs.symm.trans hn) (by decide)

/-- The same for another state under FAULT, between commands. -/
theorem exec_sticky_run {i : Instr} {s : State} (hf : i.format = .command) (hr : i ≠ .reset) (hw : s.work = .idle)
    (hs : s.fault = true) : exec i s = .next s := by
  obtain ⟨body, hb⟩ := exec_eq_command hf hr
  rw [hb, command_sticky s body hw hs]

theorem execEncFrame_cases {s t : State} (h : execEncFrame s = .next t) :
    s.work = .idle ∧ (t = s ∨ (∃ c, t = s.faulted c)
      ∨ s.encEnded = false ∧ s.outRoom (2 * s.frameBytes + 38) = true ∧ t = s.afterFrame) := by
  obtain ⟨hw, ⟨-, rfl⟩ | ⟨-, h⟩⟩ := command_cases h
  · exact ⟨hw, .inl rfl⟩
  refine ⟨hw, .inr ?_⟩
  split at h
  · cases h; exact .inl ⟨_, rfl⟩
  next he =>
    split at h
    · cases h; exact .inl ⟨_, rfl⟩
    split at h
    next hr => cases h; exact .inr ⟨by simpa using he, hr, rfl⟩
    · cases h

theorem execEncEnd_cases {s t : State} (h : execEncEnd s = .next t) :
    s.work = .idle ∧ (t = s ∨ (∃ c, t = s.faulted c)
      ∨ s.encEnded = false ∧ s.outRoom 2 = true
        ∧ t = { s.appendOut (Instr.encode (.endStream Config.sentinelEmit)) with encEnded := true }) := by
  obtain ⟨hw, ⟨-, rfl⟩ | ⟨-, h⟩⟩ := command_cases h
  · exact ⟨hw, .inl rfl⟩
  refine ⟨hw, .inr ?_⟩
  split at h
  · cases h; exact .inl ⟨_, rfl⟩
  next he =>
    split at h
    next hr => cases h; exact .inr ⟨by simpa using he, hr, rfl⟩
    · cases h

theorem execPalPack_cases {s t : State} (h : execPalPack s = .next t) :
    s.work = .idle ∧ (t = s ∨ t = { s with palPk := palPack s.palIn }) := by
  obtain ⟨hw, ⟨-, rfl⟩ | ⟨-, h⟩⟩ := command_cases h
  · exact ⟨hw, .inl rfl⟩
  · cases h; exact ⟨hw, .inr rfl⟩

theorem execPalUnpack_cases {s t : State} (h : execPalUnpack s = .next t) :
    s.work = .idle ∧ (t = s ∨ s.fault = false ∧ t = { s with palOut := palUnpack s.palPk }) := by
  obtain ⟨hw, ⟨-, rfl⟩ | ⟨hf, h⟩⟩ := command_cases h
  · exact ⟨hw, .inl rfl⟩
  · cases h; exact ⟨hw, .inr ⟨hf, rfl⟩⟩

theorem execPalUnpack_run {s t : State} (hf : s.fault = false) (h : execPalUnpack s = .next t) :
    t = { s with palOut := palUnpack s.palPk } := by
  obtain ⟨-, ⟨hn, -⟩ | ⟨-, h⟩⟩ := command_cases h
  · exact absurd (hf.symm.trans hn) (by decide)
  · cases h; rfl

theorem execDecChunk_cases {s t : State} (h : execDecChunk s = .next t) :
    s.work = .idle ∧ (t = s ∨ recordTurn { s with work := .record } = .next t) := by
  obtain ⟨hw, ⟨-, rfl⟩ | ⟨-, h⟩⟩ := command_cases h
  · exact ⟨hw, .inl rfl⟩
  refine ⟨hw, ?_⟩
  split at h
  · cases h; exact .inl rfl
  · exact .inr h

/-- ABORT and the reserved codes, which can only take a fault. -/
def OnlyFaults (i : Instr) : Prop := (∃ cause, i = .abort cause) ∨ i = .cmdRsvd0 ∨ ∃ low, i = .cmdRsvd8 low

theorem command_raise_cases {s t : State} {body : State → Result} (hb : ∃ c, body s = raise c s)
    (h : command s body = .next t) : s.work = .idle ∧ (t = s ∨ ∃ c, t = s.faulted c) := by
  obtain ⟨hw, ⟨-, rfl⟩ | ⟨-, h⟩⟩ := command_cases h
  · exact ⟨hw, .inl rfl⟩
  · obtain ⟨c, hc⟩ := hb
    cases hc.symm.trans h
    exact ⟨hw, .inr ⟨c, rfl⟩⟩

theorem execAbort_cases {cause : Nibble} {s t : State} (h : execAbort cause s = .next t) :
    s.work = .idle ∧ (t = s ∨ ∃ c, t = s.faulted c) := by
  refine command_raise_cases ?_ h
  split
  · exact ⟨_, rfl⟩
  · split <;> exact ⟨_, rfl⟩

theorem exec_onlyFaults_cases {i : Instr} {s t : State} (hi : OnlyFaults i) (h : exec i s = .next t) :
    s.work = .idle ∧ (t = s ∨ ∃ c, t = s.faulted c) := by
  rcases hi with ⟨cause, rfl⟩ | rfl | ⟨low, rfl⟩
  · exact execAbort_cases h
  · exact command_raise_cases (body := raise .illegalCommand) ⟨_, rfl⟩ h
  · exact command_raise_cases (body := raise .illegalCommand) ⟨_, rfl⟩ h

/-! ### What holds across all that DEC_CHUNK does -/

/-- The update at the end of a record, with the palette handed out left open. -/
def State.handedOut (s : State) (rp : Nat) (p : UnpackedPalette) : State :=
  { s with rp := rp, work := .idle, palOut := p, out := s.out ++ [⟨p, s.disp⟩], framesOut := s.framesOut + 1 }

theorem State.finishRecord_eq (s : State) (size : Nat) :
    s.finishRecord size = s.handedOut (s.rp + size) (palUnpack s.palDec) := rfl

/-- A property that each of the updates DEC_CHUNK is made of keeps. -/
structure DecoderClosed (P : State → Prop) : Prop where
  work : ∀ s w, P s → P { s with work := w }
  palette : ∀ s p, P s → P { s with palDec := p }
  store : ∀ s a bytes, a + bytes.length ≤ s.frameBytes → P s → P { s with disp := s.disp.writeBytes a bytes }
  endStream : ∀ s rp, P s → P { s with eos := true, rp := rp }
  handedOut : ∀ s rp p, P s → P (s.handedOut rp p)
  faulted : ∀ s c, P s → P (s.faulted c)

namespace DecoderClosed

variable {P : State → Prop}

theorem finishRecord (hP : DecoderClosed P) {s : State} (hs : P s) (size : Nat) : P (s.finishRecord size) := by
  rw [State.finishRecord_eq]
  exact hP.handedOut _ _ _ hs

theorem tokenMoves (hP : DecoderClosed P) {s t : State} {c : TokenRun} (hs : P s) (h : TokenMoves s c t) : P t := by
  obtain ⟨d, m, rfl, -, -, -, -, -, -, -, rfl | ⟨bytes, hb, -, rfl⟩⟩ := h
  · exact hP.work _ _ hs
  · exact hP.work _ _ (hP.store _ _ _ hb hs)

theorem execToken (hP : DecoderClosed P) {i : Instr} {s t : State} (hs : P s) (h : execToken i s = .next t) : P t := by
  obtain ⟨c, -, -, rfl | rfl | hm⟩ := execToken_result h
  · exact hP.faulted _ _ hs
  · exact hP.faulted _ _ hs
  · exact hP.tokenMoves hs hm

theorem runTokens (hP : DecoderClosed P) {fuel : Nat} {s t : State} (hs : P s) (h : runTokens fuel s = .next t) : P t := by
  rcases runTokens_induction (fun _ _ _ hu _ _ hm => hP.tokenMoves hu hm) hs h with ⟨rfl, -⟩ | ⟨u, c, hu, -, rfl | rfl | ⟨-, rfl⟩⟩
  · exact hs
  · exact hP.faulted _ _ hu
  · exact hP.faulted _ _ hu
  · exact hP.finishRecord hu _

theorem execChunk (hP : DecoderClosed P) {g : Grammar} {size : Half} {type : Byte} {s t : State} (hs : P s)
    (h : execChunk g size type s = .next t) : P t := by
  obtain ⟨-, h⟩ := atRecord_cases h
  rcases openChunk_cases s g size type with ⟨-, ho⟩ | ⟨-, -, -, ho⟩ | ⟨-, -, -, ho⟩ | ⟨-, -, ho⟩ <;> rw [ho] at h
  · cases h; exact hP.faulted _ _ hs
  · cases h; exact hP.faulted _ _ hs
  · exact hP.runTokens (hP.work _ _ (hP.palette _ _ hs)) h
  · exact hP.runTokens (hP.work _ _ hs) h

theorem execRecord (hP : DecoderClosed P) {i : Instr} {s t : State} (hs : P s) (h : execRecord i s = .next t) : P t := by
  cases i with
  | endStream size =>
    obtain ⟨-, h⟩ := atRecord_cases h
    cases h
    exact hP.work _ .idle (hP.endStream _ _ hs)
  | chunkShort size =>
    obtain ⟨-, h⟩ := atRecord_cases h
    split at h <;> cases h
    · exact hP.finishRecord hs _
    · exact hP.faulted _ _ hs
  | chunkKey size type => exact hP.execChunk hs h
  | chunkDelta size type => exact hP.execChunk hs h
  | _ => cases h

theorem recordTurn (hP : DecoderClosed P) {s t : State} (hs : P s) (h : recordTurn s = .next t) : P t := by
  unfold Machine.recordTurn at h
  split at h
  · exact hP.execRecord hs h
  · cases h; exact hP.faulted _ _ hs

theorem exec_decChunk (hP : DecoderClosed P) {s t : State} (hs : P s) (h : exec .decChunk s = .next t) : P t := by
  obtain ⟨-, rfl | h⟩ := execDecChunk_cases h
  · exact hs
  · exact hP.recordTurn (hP.work _ _ hs) h

end DecoderClosed

/-! ### The stores of the host -/

/-- The host-writable stores but PAL_PK (R49), and the host's script. -/
def State.hostStores (s : State) : Memory × UnpackedPalette × Half × Half × Memory × Nat × List HostAction :=
  (s.cur, s.palIn, s.inW, s.inH, s.istream, s.ilen, s.host)

/-- DEC_CHUNK and what it is made of write no host-writable store. -/
theorem hostStores_decoderClosed (s : State) : DecoderClosed fun t => t.hostStores = s.hostStores ∧ t.palPk = s.palPk where
  work := fun _ _ h => h
  palette := fun _ _ h => h
  store := fun _ _ _ _ h => h
  endStream := fun _ _ h => h
  handedOut := fun _ _ _ h => h
  faulted := fun _ _ h => h

theorem exec_command_hostStores {i : Instr} {s t : State} (hf : i.format = .command) (hr : i ≠ .reset) (h : exec i s = .next t) :
    t.hostStores = s.hostStores ∧ (i ≠ .palPack → t.palPk = s.palPk) := by
  cases i with
  | reset => exact absurd rfl hr
  | encFrame =>
    obtain ⟨-, rfl | ⟨_, rfl⟩ | ⟨-, -, rfl⟩⟩ := execEncFrame_cases h <;> exact ⟨rfl, fun _ => rfl⟩
  | encEnd =>
    obtain ⟨-, rfl | ⟨_, rfl⟩ | ⟨-, -, rfl⟩⟩ := execEncEnd_cases h <;> exact ⟨rfl, fun _ => rfl⟩
  | decChunk =>
    obtain ⟨hstores, hpk⟩ := (hostStores_decoderClosed s).exec_decChunk ⟨rfl, rfl⟩ h
    exact ⟨hstores, fun _ => hpk⟩
  | palPack =>
    obtain ⟨-, rfl | rfl⟩ := execPalPack_cases h
    · exact ⟨rfl, fun _ => rfl⟩
    · exact ⟨by simp only [State.hostStores], fun hn => absurd rfl hn⟩
  | palUnpack =>
    obtain ⟨-, rfl | ⟨-, rfl⟩⟩ := execPalUnpack_cases h <;> exact ⟨by simp only [State.hostStores], fun _ => rfl⟩
  | abort _ | cmdRsvd0 | cmdRsvd8 _ =>
    obtain ⟨-, rfl | ⟨_, rfl⟩⟩ := exec_onlyFaults_cases (by simp [OnlyFaults]) h <;> exact ⟨rfl, fun _ => rfl⟩
  | _ => cases hf

theorem exec_hostStores {i : Instr} {s t : State} (hr : i ≠ .reset) (h : exec i s = .next t) :
    t.hostStores = s.hostStores ∧ (i ≠ .palPack → t.palPk = s.palPk) := by
  cases hf : i.format with
  | command => exact exec_command_hostStores hf hr h
  | record =>
    obtain ⟨hstores, hpk⟩ := (hostStores_decoderClosed s).execRecord ⟨rfl, rfl⟩ (exec_eq_execRecord hf s ▸ h)
    exact ⟨hstores, fun _ => hpk⟩
  | token g =>
    obtain ⟨hstores, hpk⟩ := (hostStores_decoderClosed s).execToken ⟨rfl, rfl⟩ (exec_eq_execToken hf s ▸ h)
    exact ⟨hstores, fun _ => hpk⟩

/-- Settles O43, by the formats of the instruction. -/
theorem engineNeverWritesHostStores : Obligations.EngineNeverWritesHostStores := by
  intro i s t hr h
  obtain ⟨hstores, hpk⟩ := exec_hostStores hr h
  simp only [State.hostStores, Prod.mk.injEq] at hstores
  obtain ⟨hcur, hpalIn, hinW, hinH, histream, hilen, hhost⟩ := hstores
  exact ⟨hcur, hpalIn, hinW, hinH, histream, hilen, hhost, hpk⟩

end Sys2Proof.Machine

namespace Sys2Proof.Machine

/-! ### The independence of the two halves

`withEncoderOf` and `withDecoderOf` exchange one half of a state for that of another, with the script and, while no fault is recorded, the
cause. A command of one half commutes with the exchange of the other half; exchanging a half for itself, this says that the command
leaves the other half alone. -/

/-- A result with a function applied to its next state. -/
def mapNext (f : State → State) (r : Result) : Result :=
  match r with
  | .next s => .next (f s)
  | .fault e => .fault e
  | .refused e => .refused e

@[simp] theorem mapNext_next (f : State → State) (s : State) : mapNext f (.next s) = .next (f s) := rfl
@[simp] theorem mapNext_fault (f : State → State) (e : Fault) : mapNext f (.fault e) = .fault e := rfl
@[simp] theorem mapNext_refused (f : State → State) (e : Refusal) : mapNext f (.refused e) = .refused e := rfl

/-- A command commutes with a function that keeps FAULT and the phase, if its body does. -/
theorem command_mapNext {f : State → State} {s : State} {body : State → Result} (hw : (f s).work = s.work)
    (hf : (f s).fault = s.fault) (hb : body (f s) = mapNext f (body s)) : command (f s) body = mapNext f (command s body) := by
  unfold command
  rw [hw, hf]
  split
  · split
    · rfl
    · exact hb
  · rfl
  · rfl

/-! #### Another encoder half -/

/-- `s` with the encoder half of `e` (R22 to R31). -/
def State.withEncoderOf (s e : State) : State :=
  { s with cur := e.cur, prev := e.prev, palIn := e.palIn, inW := e.inW, inH := e.inH, palEncLast := e.palEncLast,
           palEncValid := e.palEncValid, encFirst := e.encFirst, encEnded := e.encEnded, ostream := e.ostream, wp := e.wp,
           palPk := e.palPk, host := e.host, cause := if s.fault then s.cause else e.cause }

theorem State.withEncoderOf_self (s : State) : s.withEncoderOf s = s := by
  simp only [State.withEncoderOf, ite_self]

theorem State.eq_withEncoderOf {s s' : State} (hd : SameDecoderHalf s s') (hs : SharedByHalves s s') (hf : s.fault = false) :
    s' = s.withEncoderOf s' := by
  obtain ⟨histream, hilen, hdisp, hpalDec, hpalOut, hrp, heos, hframes, hout⟩ := hd
  obtain ⟨hfault, hwork, hparams⟩ := hs
  simp only [State.withEncoderOf, hf, Bool.false_eq_true, if_false, ← histream, ← hilen, ← hdisp, ← hpalDec, ← hpalOut, ← hrp, ← heos,
    ← hframes, ← hout, ← hwork, ← hparams]
  rw [← hf, ← hfault]

theorem sameDecoderHalf_withEncoderOf (s e : State) : SameDecoderHalf s (s.withEncoderOf e) :=
  ⟨rfl, rfl, rfl, rfl, rfl, rfl, rfl, rfl, rfl⟩

theorem sameEncoderHalf_of_eq {s t : State} (h : t.withEncoderOf s = t) : SameEncoderHalf s t := by
  rw [← h]
  exact ⟨rfl, rfl, rfl, rfl, rfl, rfl, rfl, rfl, rfl, rfl, rfl, rfl⟩

section
variable (e : State)

theorem passToken_withEncoderOf (s : State) (c : TokenRun) (len : Nat) :
    passToken (s.withEncoderOf e) c len = mapNext (·.withEncoderOf e) (passToken s c len) := by
  unfold passToken
  split <;> rfl

theorem endToken_withEncoderOf (s : State) (c : TokenRun) (len : Nat) :
    endToken (s.withEncoderOf e) c len = mapNext (·.withEncoderOf e) (endToken s c len) := by
  unfold endToken
  split <;> rfl

theorem storeToken_withEncoderOf (s : State) (c : TokenRun) (len : Nat) (bytes : List Byte) :
    storeToken (s.withEncoderOf e) c len bytes = mapNext (·.withEncoderOf e) (storeToken s c len bytes) := by
  unfold storeToken
  split
  · rfl
  · change (if c.op + bytes.length > s.frameBytes then _ else _) = _
    split <;> rfl

theorem skipToken_withEncoderOf (s : State) (c : TokenRun) (len cnt : Nat) :
    skipToken (s.withEncoderOf e) c len cnt = mapNext (·.withEncoderOf e) (skipToken s c len cnt) := by
  unfold skipToken
  split
  · rfl
  · change (if c.op + cnt > s.frameBytes then _ else _) = _
    split <;> rfl

theorem inTokens_withEncoderOf (g : Grammar) (s : State) {body body' : TokenRun → Result}
    (hb : ∀ c, body' c = mapNext (·.withEncoderOf e) (body c)) :
    inTokens g (s.withEncoderOf e) body' = mapNext (·.withEncoderOf e) (inTokens g s body) := by
  have hw : (s.withEncoderOf e).work = s.work := rfl
  have hn : (s.withEncoderOf e).frameBytes = s.frameBytes := rfl
  unfold inTokens
  rw [hw, hn]
  split
  · split
    · exact hb _
    · rfl
  · rfl
  · rfl

theorem execToken_withEncoderOf (i : Instr) (s : State) :
    execToken i (s.withEncoderOf e) = mapNext (·.withEncoderOf e) (execToken i s) := by
  cases i with
  | kEnd => exact inTokens_withEncoderOf e _ s fun c => endToken_withEncoderOf e s c _
  | kLit data => exact inTokens_withEncoderOf e _ s fun c => storeToken_withEncoderOf e s c _ _
  | kRun0 v => exact inTokens_withEncoderOf e _ s fun c => passToken_withEncoderOf e s c _
  | kRun cnt v => exact inTokens_withEncoderOf e _ s fun c => storeToken_withEncoderOf e s c _ _
  | dRun0 => exact inTokens_withEncoderOf e _ s fun c => passToken_withEncoderOf e s c _
  | dRun cnt v => exact inTokens_withEncoderOf e _ s fun c => storeToken_withEncoderOf e s c _ _
  | dSkip cnt => exact inTokens_withEncoderOf e _ s fun c => skipToken_withEncoderOf e s c _ _
  | dLit0 => exact inTokens_withEncoderOf e _ s fun c => passToken_withEncoderOf e s c _
  | dLit data => exact inTokens_withEncoderOf e _ s fun c => storeToken_withEncoderOf e s c _ _
  | _ => rfl

theorem handedOut_withEncoderOf (s : State) (rp : Nat) (p : UnpackedPalette) :
    (s.withEncoderOf e).handedOut rp p = (s.handedOut rp p).withEncoderOf e := rfl

theorem finishRecord_withEncoderOf (s : State) (size : Nat) :
    (s.withEncoderOf e).finishRecord size = (s.finishRecord size).withEncoderOf e := by
  rw [State.finishRecord_eq, State.finishRecord_eq]
  exact handedOut_withEncoderOf e s _ _

theorem tokenTurn_withEncoderOf (c : TokenRun) (s : State) :
    tokenTurn c (s.withEncoderOf e) = mapNext (·.withEncoderOf e) (tokenTurn c s) := by
  have hn : (s.withEncoderOf e).frameBytes = s.frameBytes := rfl
  have hfetch : (s.withEncoderOf e).fetchToken c = s.fetchToken c := rfl
  unfold tokenTurn
  rw [hn, hfetch, finishRecord_withEncoderOf]
  split
  · rfl
  · split
    · exact execToken_withEncoderOf e _ s
    · rfl

theorem runTokens_withEncoderOf (fuel : Nat) (s : State) :
    runTokens fuel (s.withEncoderOf e) = mapNext (·.withEncoderOf e) (runTokens fuel s) := by
  induction fuel generalizing s with
  | zero =>
    have hwork : (s.withEncoderOf e).work = s.work := rfl
    unfold runTokens
    rw [hwork]
    split <;> rfl
  | succ fuel ih =>
    have hwork : (s.withEncoderOf e).work = s.work := rfl
    unfold runTokens
    rw [hwork]
    split
    · rw [tokenTurn_withEncoderOf]
      cases tokenTurn _ s with
      | next u => exact ih u
      | fault r => rfl
      | refused r => rfl
    · rfl
    · rfl

theorem atRecord_withEncoderOf (s : State) {body body' : Result} (hb : body' = mapNext (·.withEncoderOf e) body) :
    atRecord (s.withEncoderOf e) body' = mapNext (·.withEncoderOf e) (atRecord s body) := by
  have hw : (s.withEncoderOf e).work = s.work := rfl
  unfold atRecord
  rw [hw]
  split
  · exact hb
  · rfl
  · rfl

theorem openedChunk_withEncoderOf (s : State) (p : PackedPalette) (g : Grammar) (base len size : Nat) :
    { s.withEncoderOf e with palDec := p }.startTokens g base len size
      = ({ s with palDec := p }.startTokens g base len size).withEncoderOf e := rfl

theorem openChunk_withEncoderOf (s : State) (g : Grammar) (size : Half) (type : Byte) :
    (s.withEncoderOf e).openChunk g size type = (s.openChunk g size type).map (·.withEncoderOf e) := by
  have hrp : (s.withEncoderOf e).rp = s.rp := rfl
  have hilen : (s.withEncoderOf e).ilen = s.ilen := rfl
  have hpal : (s.withEncoderOf e).paletteAt (s.rp + 3) = s.paletteAt (s.rp + 3) := rfl
  unfold State.openChunk
  rw [hrp, hilen, hpal]
  split
  · rfl
  split
  · split
    · rfl
    · exact congrArg Except.ok (openedChunk_withEncoderOf e s _ g _ _ _)
  · rfl

theorem execChunk_withEncoderOf (g : Grammar) (size : Half) (type : Byte) (s : State) :
    execChunk g size type (s.withEncoderOf e) = mapNext (·.withEncoderOf e) (execChunk g size type s) := by
  refine atRecord_withEncoderOf e s ?_
  rw [openChunk_withEncoderOf]
  cases s.openChunk g size type with
  | error c => rfl
  | ok u => exact runTokens_withEncoderOf e _ u

theorem execChunkShort_withEncoderOf (size : Half) (s : State) :
    execChunkShort size (s.withEncoderOf e) = mapNext (·.withEncoderOf e) (execChunkShort size s) := by
  refine atRecord_withEncoderOf e s ?_
  rw [finishRecord_withEncoderOf]
  change (if size = 2 ∧ s.params.emptyChunk = .repeatFrame then _ else _) = _
  split <;> rfl

theorem execRecord_withEncoderOf (i : Instr) (s : State) :
    execRecord i (s.withEncoderOf e) = mapNext (·.withEncoderOf e) (execRecord i s) := by
  cases i with
  | endStream size => exact atRecord_withEncoderOf e s rfl
  | chunkShort size => exact execChunkShort_withEncoderOf e size s
  | chunkKey size type => exact execChunk_withEncoderOf e .key size type s
  | chunkDelta size type => exact execChunk_withEncoderOf e .delta size type s
  | _ => rfl

theorem recordTurn_withEncoderOf (s : State) :
    recordTurn (s.withEncoderOf e) = mapNext (·.withEncoderOf e) (recordTurn s) := by
  have hfetch : (s.withEncoderOf e).fetchRecord = s.fetchRecord := rfl
  unfold recordTurn
  rw [hfetch]
  split
  · exact execRecord_withEncoderOf e _ s
  · rfl

/-- DEC_CHUNK commutes with the exchange of the encoder half. -/
theorem exec_decChunk_withEncoderOf (s : State) :
    exec .decChunk (s.withEncoderOf e) = mapNext (·.withEncoderOf e) (exec .decChunk s) := by
  rw [exec_decChunk, exec_decChunk]
  refine command_mapNext (f := (·.withEncoderOf e)) rfl rfl ?_
  change (if s.eos then _ else _) = _
  split
  · rfl
  · exact recordTurn_withEncoderOf e { s with work := .record }

end

/-- DEC_CHUNK changes nothing that an exchange for the encoder half it began with would restore. -/
theorem decChunk_withEncoderOf_start {s t : State} (h : exec .decChunk s = .next t) : t.withEncoderOf s = t := by
  have hself := exec_decChunk_withEncoderOf s s
  rw [State.withEncoderOf_self, h] at hself
  exact (Host.Outcome.next.inj hself).symm

/-- DEC_CHUNK from two states that agree on the decoder half, on FAULT, the phase and the parameters. -/
theorem decChunk_twin {s s' t : State} (hd : SameDecoderHalf s s') (hs : SharedByHalves s s') (h : exec .decChunk s = .next t) :
    ∃ t', exec .decChunk s' = .next t' ∧ SameDecoderHalf t t' ∧ t'.fault = t.fault ∧ (s'.cause = s.cause → t'.cause = t.cause) := by
  by_cases hf : s.fault = true
  · obtain ⟨hw, rfl⟩ := exec_sticky rfl (by simp) h hf
    obtain ⟨hfault, hwork, -⟩ := hs
    exact ⟨s', exec_sticky_run rfl (by simp) (hwork.trans hw) (hfault.trans hf), hd, hfault, id⟩
  · have hs' : s' = s.withEncoderOf s' := State.eq_withEncoderOf hd hs (by simpa using hf)
    refine ⟨t.withEncoderOf s', ?_, sameDecoderHalf_withEncoderOf t s', rfl, fun hc => ?_⟩
    · calc exec .decChunk s' = exec .decChunk (s.withEncoderOf s') := congrArg _ hs'
        _ = mapNext (·.withEncoderOf s') (exec .decChunk s) := exec_decChunk_withEncoderOf s' s
        _ = .next (t.withEncoderOf s') := by rw [h, mapNext_next]
    · calc (t.withEncoderOf s').cause = (t.withEncoderOf s).cause := by simp only [State.withEncoderOf, hc]
        _ = t.cause := by rw [decChunk_withEncoderOf_start h]

/-! #### Another decoder half -/

/-- `s` with the decoder half of `d` (R32 to R39). -/
def State.withDecoderOf (s d : State) : State :=
  { s with istream := d.istream, ilen := d.ilen, disp := d.disp, palDec := d.palDec, palOut := d.palOut, rp := d.rp, eos := d.eos,
           framesOut := d.framesOut, out := d.out, host := d.host, cause := if s.fault then s.cause else d.cause }

theorem State.withDecoderOf_self (s : State) : s.withDecoderOf s = s := by
  simp only [State.withDecoderOf, ite_self]

theorem State.eq_withDecoderOf {s s' : State} (he : SameEncoderHalf s s') (hs : SharedByHalves s s') (hf : s.fault = false) :
    s' = s.withDecoderOf s' := by
  obtain ⟨hcur, hprev, hpalIn, hinW, hinH, hlast, hvalid, hfirst, hended, hostream, hwp, hpalPk⟩ := he
  obtain ⟨hfault, hwork, hparams⟩ := hs
  simp only [State.withDecoderOf, hf, Bool.false_eq_true, if_false, ← hcur, ← hprev, ← hpalIn, ← hinW, ← hinH, ← hlast, ← hvalid,
    ← hfirst, ← hended, ← hostream, ← hwp, ← hpalPk, ← hwork, ← hparams]
  rw [← hf, ← hfault]

theorem sameEncoderHalf_withDecoderOf (s d : State) : SameEncoderHalf s (s.withDecoderOf d) :=
  ⟨rfl, rfl, rfl, rfl, rfl, rfl, rfl, rfl, rfl, rfl, rfl, rfl⟩

theorem sameDecoderHalf_of_eq {s t : State} (h : t.withDecoderOf s = t) : SameDecoderHalf s t := by
  rw [← h]
  exact ⟨rfl, rfl, rfl, rfl, rfl, rfl, rfl, rfl, rfl⟩

/-- The commands of the encoder half. -/
def OfEncoderHalf (i : Instr) : Prop := i = .encFrame ∨ i = .encEnd ∨ i = .palPack

theorem execEncFrame_withDecoderOf (s d : State) :
    execEncFrame (s.withDecoderOf d) = mapNext (·.withDecoderOf d) (execEncFrame s) := by
  refine command_mapNext (f := (·.withDecoderOf d)) rfl rfl ?_
  change (if s.encEnded then _ else if s.inW ≠ 320 ∨ s.inH ≠ 200 then _
    else if s.outRoom (2 * s.frameBytes + 38) then _ else _) = _
  split
  · rfl
  split
  · rfl
  split <;> rfl

theorem execEncEnd_withDecoderOf (s d : State) :
    execEncEnd (s.withDecoderOf d) = mapNext (·.withDecoderOf d) (execEncEnd s) := by
  refine command_mapNext (f := (·.withDecoderOf d)) rfl rfl ?_
  change (if s.encEnded then _ else if s.outRoom 2 then _ else _) = _
  split
  · rfl
  split <;> rfl

theorem setPalPk_withDecoderOf (s d : State) (p : PackedPalette) :
    { s.withDecoderOf d with palPk := p } = { s with palPk := p }.withDecoderOf d := rfl

theorem execPalPack_withDecoderOf (s d : State) :
    execPalPack (s.withDecoderOf d) = mapNext (·.withDecoderOf d) (execPalPack s) :=
  command_mapNext (f := (·.withDecoderOf d)) rfl rfl (congrArg Host.Outcome.next (setPalPk_withDecoderOf s d _))

/-- A command of the encoder half commutes with the exchange of the decoder half. -/
theorem exec_withDecoderOf {i : Instr} (hi : OfEncoderHalf i) (s d : State) :
    exec i (s.withDecoderOf d) = mapNext (·.withDecoderOf d) (exec i s) := by
  rcases hi with rfl | rfl | rfl
  · exact execEncFrame_withDecoderOf s d
  · exact execEncEnd_withDecoderOf s d
  · exact execPalPack_withDecoderOf s d

theorem encoder_withDecoderOf_start {i : Instr} (hi : OfEncoderHalf i) {s t : State} (h : exec i s = .next t) :
    t.withDecoderOf s = t := by
  have hself := exec_withDecoderOf hi s s
  rw [State.withDecoderOf_self, h] at hself
  exact (Host.Outcome.next.inj hself).symm

theorem encoder_twin {i : Instr} (hi : OfEncoderHalf i) {s s' t : State} (he : SameEncoderHalf s s') (hs : SharedByHalves s s')
    (h : exec i s = .next t) :
    ∃ t', exec i s' = .next t' ∧ SameEncoderHalf t t' ∧ t'.fault = t.fault ∧ (s'.cause = s.cause → t'.cause = t.cause) := by
  obtain ⟨hcommand, hreset⟩ : i.format = .command ∧ i ≠ .reset := by rcases hi with rfl | rfl | rfl <;> simp [Instr.format]
  by_cases hf : s.fault = true
  · obtain ⟨hw, rfl⟩ := exec_sticky hcommand hreset h hf
    obtain ⟨hfault, hwork, -⟩ := hs
    exact ⟨s', exec_sticky_run hcommand hreset (hwork.trans hw) (hfault.trans hf), he, hfault, id⟩
  · have hs' : s' = s.withDecoderOf s' := State.eq_withDecoderOf he hs (by simpa using hf)
    refine ⟨t.withDecoderOf s', ?_, sameEncoderHalf_withDecoderOf t s', rfl, fun hc => ?_⟩
    · calc exec i s' = exec i (s.withDecoderOf s') := congrArg _ hs'
        _ = mapNext (·.withDecoderOf s') (exec i s) := exec_withDecoderOf hi s s'
        _ = .next (t.withDecoderOf s') := by rw [h, mapNext_next]
    · calc (t.withDecoderOf s').cause = (t.withDecoderOf s).cause := by simp only [State.withDecoderOf, hc]
        _ = t.cause := by rw [encoder_withDecoderOf_start hi h]

theorem sameHalves_refl (s : State) : SameEncoderHalf s s ∧ SameDecoderHalf s s := by
  simp only [SameEncoderHalf, SameDecoderHalf, and_self]

/-- Settles O44. -/
theorem halvesAreIndependent : Obligations.HalvesAreIndependent := by
  refine ⟨fun s t i hi h => sameDecoderHalf_of_eq (encoder_withDecoderOf_start hi h),
    fun s t h => sameEncoderHalf_of_eq (decChunk_withEncoderOf_start h), fun s t i hi h => ?_,
    fun s s' t i hi he hs h => encoder_twin hi he hs h, fun s s' t hd hs h => decChunk_twin hd hs h, fun s t hf h => ?_⟩
  · obtain ⟨-, rfl | ⟨c, rfl⟩⟩ := exec_onlyFaults_cases hi h
    · exact sameHalves_refl _
    · exact sameHalves_refl s
  · exact execPalUnpack_run hf h

end Sys2Proof.Machine

namespace Sys2Proof.Machine

/-! ### The size of a chunk (R149, R179, R238) -/

theorem keyTokens_encode_length_le (fuel : Nat) (l : List Byte) :
    ((keyTokens fuel l).flatMap Instr.encode).length ≤ 2 * l.length := by
  induction fuel generalizing l with
  | zero => simp [keyTokens]
  | succ fuel ih =>
    match l with
    | [] => simp [keyTokens]
    | [x] => simp [keyTokens, Instr.encode]
    | [x, y] => simp [keyTokens, Instr.encode]
    | x :: y :: z :: t =>
      simp only [keyTokens]
      split
      next hrun =>
        have hcover := three_le_runLength Config.keyRunMax x y z t hrun (by decide)
        obtain ⟨-, hlen⟩ := runLength_le Config.keyRunMax x (x :: y :: z :: t)
        have hrest := ih ((x :: y :: z :: t).drop (runLength Config.keyRunMax x (x :: y :: z :: t)))
        simp only [List.flatMap_cons, List.length_append, Instr.encode, List.length_drop, List.length_cons, List.length_nil]
          at hrest hlen ⊢
        omega
      next =>
        obtain ⟨-, hlen⟩ := keyLiteralScan_le (Config.keyLitMax - 1) (y :: z :: t)
        have hrest := ih ((x :: y :: z :: t).drop (1 + keyLiteralScan (Config.keyLitMax - 1) (y :: z :: t)))
        simp only [List.flatMap_cons, List.length_append, Instr.encode, List.length_drop, List.length_cons, List.length_take]
          at hrest hlen ⊢
        omega

theorem keyEncode_length_le (frame : List Byte) : (keyEncode frame).length ≤ 2 * frame.length + 1 := by
  have h := keyTokens_encode_length_le frame.length frame
  simp only [keyEncode, List.length_append, Instr.encode, List.length_cons, List.length_nil]
  omega

theorem deltaLiteralToken_encode_length_le (c : Nat) (l : List Pair) :
    (deltaLiteralToken c l).encode.length ≤ 1 + c := by
  unfold deltaLiteralToken
  split
  · simp [Instr.encode]
  · simp only [Instr.encode, currentBytes, List.length_cons, List.length_map, List.length_take]
    omega

/-- A token of the delta encoder takes at most two bytes for each position it covers. -/
theorem deltaStep_encode_length_le (x y : Pair) (t : List Pair) :
    (deltaStep (x :: y :: t)).1.encode.length ≤ 2 * (deltaStep (x :: y :: t)).2
      ∧ (deltaStep (x :: y :: t)).2 ≤ (x :: y :: t).length := by
  obtain ⟨-, hmatch⟩ := matchLength_le Config.deltaSkipMax (x :: y :: t)
  simp only [deltaStep]
  split
  next hskip =>
    simp only [Bool.or_eq_true, List.isEmpty_iff, List.drop_eq_nil_iff, decide_eq_true_eq, List.length_cons] at hskip
    simp only [Config.deltaSkipMin] at hskip
    simp only [Instr.encode, List.length_cons, List.length_nil] at hmatch ⊢
    omega
  next =>
    split
    next hrun =>
      obtain ⟨-, hlen⟩ := runLength_le Config.deltaRunMax x.2 (currentBytes ((x :: y :: t).take Config.deltaRunMax))
      simp only [currentBytes, List.length_map, List.length_take] at hlen
      simp only [Config.deltaRunMin, currentBytes] at hrun
      simp only [Instr.encode, List.length_cons, List.length_nil, currentBytes] at hlen ⊢
      omega
    next =>
      obtain ⟨-, hlen⟩ := deltaLiteralScan_le (Config.deltaLitMax - 1) (y :: t)
      have htoken := deltaLiteralToken_encode_length_le (1 + deltaLiteralScan (Config.deltaLitMax - 1) (y :: t)) (x :: y :: t)
      simp only [List.length_cons] at hlen ⊢
      omega

theorem deltaTokens_encode_length_le (fuel : Nat) (l : List Pair) :
    ((deltaTokens fuel l).flatMap Instr.encode).length ≤ 2 * l.length := by
  induction fuel generalizing l with
  | zero => simp [deltaTokens]
  | succ fuel ih =>
    match l with
    | [] => simp [deltaTokens]
    | [x] =>
      simp only [deltaTokens]
      split <;> simp [Instr.encode]
    | x :: y :: t =>
      obtain ⟨htoken, hcover⟩ := deltaStep_encode_length_le x y t
      have hrest := ih ((x :: y :: t).drop (deltaStep (x :: y :: t)).2)
      simp only [deltaTokens, List.flatMap_cons, List.length_append, List.length_drop] at hrest ⊢
      omega

theorem deltaEncode_length_le (prev cur : List Byte) (h : prev.length = cur.length) :
    (deltaEncode prev cur).length ≤ 2 * cur.length := by
  have hbound := deltaTokens_encode_length_le (prev.zip cur).length (prev.zip cur)
  simp only [List.length_zip, h, Nat.min_self] at hbound
  simpa [deltaEncode, h] using hbound

theorem State.frameTokens_length_le (s : State) : s.frameTokens.length ≤ 2 * s.frameBytes + 1 := by
  unfold State.frameTokens
  split
  · simpa using keyEncode_length_le (s.cur.readBytes 0 s.frameBytes)
  · have h := deltaEncode_length_le (s.prev.readBytes 0 s.frameBytes) (s.cur.readBytes 0 s.frameBytes) (by simp)
    simp only [Memory.length_readBytes] at h
    omega

theorem State.frameHeader_encode_length (s : State) : s.frameHeader.encode.length = 3 := by
  unfold State.frameHeader
  split <;> rfl

theorem State.framePalette_length_le (s : State) : s.framePalette.length ≤ 32 := by
  unfold State.framePalette
  split <;> simp

/-- What ENC_FRAME appends is within the room it asks for (R238, R302). -/
theorem State.frameChunk_length_le (s : State) : s.frameChunk.length ≤ 2 * s.frameBytes + 38 := by
  have htokens := s.frameTokens_length_le
  have hpalette := s.framePalette_length_le
  simp only [State.frameChunk, List.length_append, State.frameHeader_encode_length]
  omega

/-! ### The invariant: stores and capacities -/

theorem frameStore_writeBytes {m : Memory} {n a : Nat} {bytes : List Byte} (h : FrameStore m n) (hn : a + bytes.length ≤ n) :
    FrameStore (m.writeBytes a bytes) n :=
  ⟨Memory.writeBytes_wf m a bytes h.1, Memory.writeBytes_within m a n bytes h.2 hn⟩

theorem frameStore_nil (n : Nat) : FrameStore [] n := ⟨rfl, rfl⟩

theorem frameStore_ofBytes {bytes : List Byte} {n : Nat} (h : bytes.length ≤ n) : FrameStore (Memory.ofBytes bytes) n :=
  ⟨Memory.ofBytes_wf bytes, Memory.ofBytes_within bytes n h⟩

/-- Appended bytes leave OSTREAM in canonical form, ending at WP. -/
theorem appendOut_ostream_wf {s : State} (bytes : List Byte) (h : s.ostream.wf = true ∧ s.ostream.within s.wp = true) :
    (s.appendOut bytes).ostream.wf = true ∧ (s.appendOut bytes).ostream.within (s.appendOut bytes).wp = true :=
  ⟨Memory.writeBytes_wf _ _ _ h.1,
    Memory.writeBytes_within _ _ _ _ (Memory.within_mono _ _ _ h.2 (Nat.le_add_right _ _)) (Nat.le_refl _)⟩

/-- Appended bytes for which there was room leave WP within the capacity. -/
theorem appendOut_outRoom {s : State} {n : Nat} {bytes : List Byte} (hr : s.outRoom n = true) (hb : bytes.length ≤ n) :
    (s.appendOut bytes).outRoom 0 = true := by
  rw [State.outRoom_iff] at hr ⊢
  intro cap hcap
  have := hr cap hcap
  simp only [State.appendOut_wp]
  omega

/-- A packed red channel fills the low nibble only (R121). -/
theorem ushiftRight_four_lt (b : Byte) : b >>> 4 < 16 := by
  revert b
  decide

theorem palPack_odd_lt (u : UnpackedPalette) (k : Fin 16) : (palPack u)[2 * k.val + 1] < 16 := by
  rw [palPack_odd u k.val k.isLt]
  exact ushiftRight_four_lt _

theorem afterFrame_palEncLast_lt {s : State} (h : ∀ k : Fin 16, s.palEncLast[2 * k.val + 1] < 16) (k : Fin 16) :
    s.afterFrame.palEncLast[2 * k.val + 1] < 16 := by
  cases hn : s.newPalette with
  | true => simpa only [State.afterFrame_palEncLast, hn, if_true] using palPack_odd_lt s.palIn k
  | false => simpa only [State.afterFrame_palEncLast, hn, Bool.false_eq_true, if_false] using h k

/-- After a frame a palette has been emitted in this pass (R212). -/
theorem afterFrame_emitted (s : State) : s.afterFrame.palEncValid = true := by
  rw [State.afterFrame_palEncValid, State.newPalette]
  cases s.palEncValid <;> simp

/-! ### The invariant: the updates of the state -/

namespace State.Inv

variable {s : State}

/-- No working registers are constrained between two commands. -/
theorem tokens_of_idle (hw : s.work = .idle) : ∀ c, s.work = .tokens c → c.Inside s := fun c hc => by
  rw [hw] at hc
  cases hc

/-- The invariant of the state with the command in progress taken away. -/
theorem idle (h : s.Inv) : State.Inv { s with work := .idle } :=
  { h with faultIdle := fun _ => rfl, tokens := tokens_of_idle rfl }

/-- The invariant from that of the state with the command in progress taken away. -/
theorem of_idle (h : State.Inv { s with work := .idle }) (hf : s.fault = true → s.work = .idle)
    (ht : ∀ c, s.work = .tokens c → c.Inside s) : s.Inv :=
  { h with faultIdle := hf, tokens := ht }

theorem of_idle_of_work (hw : s.work = .idle) (h : State.Inv { s with work := .idle }) : s.Inv :=
  of_idle h (fun _ => hw) (tokens_of_idle hw)

theorem faulted (h : s.Inv) (c : Cause) : (s.faulted c).Inv :=
  { h with
    noCause := fun hf => by cases hf
    namedCause := fun _ => ⟨c, rfl⟩
    faultIdle := fun _ => rfl
    tokens := tokens_of_idle rfl }

/-- A frame handed out with any palette, and the command over. -/
theorem handedOut (h : s.Inv) (rp : Nat) (p : UnpackedPalette) : (s.handedOut rp p).Inv :=
  { h with
    out := fun f hf => by
      rcases List.mem_append.mp hf with hf | hf
      · exact h.out f hf
      · obtain rfl := List.mem_singleton.mp hf
        exact h.disp
    frames := by rw [State.handedOut, List.length_append, List.length_singleton, h.frames]
    faultIdle := fun _ => rfl
    tokens := tokens_of_idle rfl }

theorem finishRecord (h : s.Inv) (size : Nat) : (s.finishRecord size).Inv := by
  rw [State.finishRecord_eq]
  exact h.handedOut _ _

theorem withDisp (h : s.Inv) (hw : s.work = .idle) {m : Memory} (hm : FrameStore m s.frameBytes) : State.Inv { s with disp := m } :=
  { h with disp := hm, tokens := tokens_of_idle hw }

theorem withPalDec (h : s.Inv) (hw : s.work = .idle) (p : PackedPalette) : State.Inv { s with palDec := p } :=
  { h with tokens := tokens_of_idle hw }

theorem endStream (h : s.Inv) (hw : s.work = .idle) (rp : Nat) : State.Inv { s with eos := true, rp := rp } :=
  { h with tokens := tokens_of_idle hw }

theorem withHost (h : s.Inv) (hw : s.work = .idle) (rest : List HostAction) : State.Inv { s with host := rest } :=
  { h with tokens := tokens_of_idle hw }

theorem withCur (h : s.Inv) (hw : s.work = .idle) {m : Memory} (hm : FrameStore m s.frameBytes) : State.Inv { s with cur := m } :=
  { h with cur := hm, tokens := tokens_of_idle hw }

theorem withPalIn (h : s.Inv) (hw : s.work = .idle) (p : UnpackedPalette) : State.Inv { s with palIn := p } :=
  { h with tokens := tokens_of_idle hw }

theorem withInW (h : s.Inv) (hw : s.work = .idle) (v : Half) : State.Inv { s with inW := v } :=
  { h with tokens := tokens_of_idle hw }

theorem withInH (h : s.Inv) (hw : s.work = .idle) (v : Half) : State.Inv { s with inH := v } :=
  { h with tokens := tokens_of_idle hw }

theorem withPalPk (h : s.Inv) (hw : s.work = .idle) (p : PackedPalette) : State.Inv { s with palPk := p } :=
  { h with tokens := tokens_of_idle hw }

theorem withPalOut (h : s.Inv) (hw : s.work = .idle) (p : UnpackedPalette) : State.Inv { s with palOut := p } :=
  { h with tokens := tokens_of_idle hw }

theorem withIstream (h : s.Inv) (hw : s.work = .idle) {m : Memory} (hm : m.wf = true) : State.Inv { s with istream := m } :=
  { h with istream := hm, tokens := tokens_of_idle hw }

theorem withIlen (h : s.Inv) (hw : s.work = .idle) {n : Nat} (hn : s.inCapacity n = true) : State.Inv { s with ilen := n } :=
  { h with icap := hn, tokens := tokens_of_idle hw }

/-- A frame emitted, with the room ENC_FRAME asks for. -/
theorem afterFrame (h : s.Inv) (hw : s.work = .idle) (hr : s.outRoom (2 * s.frameBytes + 38) = true) : s.afterFrame.Inv :=
  { h with
    prev := h.cur
    ostream := appendOut_ostream_wf s.frameChunk h.ostream
    first := afterFrame_emitted s
    empty := fun hf => by cases hf
    nibble := afterFrame_palEncLast_lt h.nibble
    tokens := tokens_of_idle hw
    ocap := appendOut_outRoom hr s.frameChunk_length_le }

/-- The sentinel emitted, with room for it. -/
theorem afterEnd (h : s.Inv) (hw : s.work = .idle) (he : s.encEnded = false) (hr : s.outRoom 2 = true) :
    State.Inv { s.appendOut (Instr.encode (.endStream Config.sentinelEmit)) with encEnded := true } :=
  { h with
    ostream := appendOut_ostream_wf _ h.ostream
    empty := fun hf => by
      have hwp := h.empty hf
      rw [he] at hwp
      exact congrArg (· + 2) hwp
    tokens := tokens_of_idle hw
    ocap := appendOut_outRoom hr (Nat.le_refl 2) }

end State.Inv

theorem resetWith_inv (p : Params) (script : List HostAction) : (State.resetWith p script).Inv where
  cur := frameStore_nil _
  prev := frameStore_nil _
  disp := frameStore_ofBytes (List.length_take_le _ _)
  out := fun f hf => by cases hf
  istream := rfl
  ostream := ⟨rfl, rfl⟩
  frames := rfl
  noCause := fun _ => rfl
  namedCause := fun hf => by cases hf
  faultIdle := fun _ => rfl
  first := rfl
  empty := fun _ => rfl
  nibble := by
    change ∀ k : Fin 16, zeroPacked[2 * k.val + 1] < 16
    decide
  tokens := State.Inv.tokens_of_idle rfl
  icap := (State.inCapacity_iff _ _).mpr fun _ _ => Nat.zero_le _
  ocap := (State.outRoom_iff _ _).mpr fun _ _ => Nat.zero_le _

/-- Settles O47. -/
theorem resetHasTheInvariant : Obligations.ResetHasTheInvariant :=
  ⟨resetWith_inv, resetWith_inv {} []⟩

/-! ### The invariant: the instructions -/

/-- DEC_CHUNK and what it is made of keep the invariant, the working registers aside. -/
theorem inv_decoderClosed : DecoderClosed fun s => State.Inv { s with work := .idle } where
  work := fun _ _ h => h
  palette := fun _ p h => h.withPalDec rfl p
  store := fun _ _ _ hb h => h.withDisp rfl (frameStore_writeBytes h.disp hb)
  endStream := fun _ rp h => h.endStream rfl rp
  handedOut := fun _ rp p h => h.handedOut rp p
  faulted := fun _ c h => h.faulted c

theorem recordTurn_inv {s t : State} (hw : s.work = .record) (hs : State.Inv { s with work := .idle }) (h : recordTurn s = .next t) :
    t.Inv := by
  have ht := inv_decoderClosed.recordTurn hs h
  obtain ⟨u, hu, hidle⟩ := recordTurn_completes hw
  cases hu.symm.trans h
  exact ht.of_idle_of_work hidle

/-- A token that moves on keeps the working registers inside the chunk and the frame. -/
theorem tokenMoves_inside {s t : State} {c d : TokenRun} (hc : c.Inside s) (h : TokenMoves s c t) (hd : t.work = .tokens d) :
    d.Inside t := by
  obtain ⟨d', m, rfl, -, hbase, hlen, hsize, -, htp, hop, -⟩ := h
  cases hd
  obtain ⟨hop_le, htp_le, hends, hinside⟩ := hc
  refine ⟨?_, htp.trans hlen.ge, ?_, ?_⟩
  · rcases hop with hop | ⟨-, hop⟩
    · exact hop.trans_le hop_le
    · exact hop
  · rw [hbase, hlen, hsize]
    exact hends
  · rw [hsize]
    exact hinside

theorem tokenTurn_inv {s t : State} {c : TokenRun} (hw : s.work = .tokens c) (hs : s.Inv) (h : tokenTurn c s = .next t) : t.Inv := by
  rcases tokenTurn_cases hw h with ⟨-, rfl⟩ | ⟨-, rfl | rfl | hm⟩
  · exact hs.finishRecord _
  · exact hs.faulted _
  · exact hs.faulted _
  · refine State.Inv.of_idle (inv_decoderClosed.tokenMoves hs.idle hm) (fun hf => ?_) fun d hd =>
      tokenMoves_inside (hs.tokens c hw) hm hd
    obtain ⟨d, m, rfl, -⟩ := hm
    exact absurd (hw.symm.trans (hs.faultIdle hf)) (by simp)

theorem exec_command_inv {i : Instr} {s t : State} (hf : i.format = .command) (hs : s.Inv) (h : exec i s = .next t) : t.Inv := by
  cases i with
  | reset => cases h; exact resetWith_inv _ _
  | encFrame =>
    obtain ⟨hw, rfl | ⟨c, rfl⟩ | ⟨-, hr, rfl⟩⟩ := execEncFrame_cases h
    · exact hs
    · exact hs.faulted c
    · exact hs.afterFrame hw hr
  | encEnd =>
    obtain ⟨hw, rfl | ⟨c, rfl⟩ | ⟨he, hr, rfl⟩⟩ := execEncEnd_cases h
    · exact hs
    · exact hs.faulted c
    · exact hs.afterEnd hw he hr
  | decChunk =>
    obtain ⟨-, rfl | h⟩ := execDecChunk_cases h
    · exact hs
    · exact recordTurn_inv (s := { s with work := .record }) rfl hs.idle h
  | palPack =>
    obtain ⟨hw, rfl | rfl⟩ := execPalPack_cases h
    · exact hs
    · exact hs.withPalPk hw _
  | palUnpack =>
    obtain ⟨hw, rfl | ⟨-, rfl⟩⟩ := execPalUnpack_cases h
    · exact hs
    · exact hs.withPalOut hw _
  | abort _ | cmdRsvd0 | cmdRsvd8 _ =>
    obtain ⟨-, rfl | ⟨c, rfl⟩⟩ := exec_onlyFaults_cases (by simp [OnlyFaults]) h
    · exact hs
    · exact hs.faulted c
  | _ => cases hf

theorem hostAccess_inv {act : HostAction} {s t : State} (hw : s.work = .idle) (hs : s.Inv) (h : hostAccess act s = .next t) :
    t.Inv := by
  rcases hostAccess_cases h with rfl | ⟨a, b, ha, rfl⟩ | ⟨frame, hl, rfl⟩ | ⟨p, rfl⟩ | ⟨v, rfl⟩ | ⟨v, rfl⟩ | ⟨p, rfl⟩
    | ⟨a, b, -, rfl⟩ | ⟨n, hn, rfl⟩
  · exact hs
  · exact hs.withCur hw (frameStore_writeBytes hs.cur ha)
  · exact hs.withCur hw (frameStore_writeBytes hs.cur (by omega))
  · exact hs.withPalIn hw p
  · exact hs.withInW hw v
  · exact hs.withInH hw v
  · exact hs.withPalPk hw p
  · exact hs.withIstream hw (Memory.write_wf _ a b hs.istream)
  · exact hs.withIlen hw hn

/-- A step between two commands: nothing, a command or an access. -/
theorem step_idle_inv {s t : State} (hw : s.work = .idle) (hs : s.Inv) (h : step s = .next t) : t.Inv := by
  cases hh : s.host with
  | nil =>
    rw [step_noAction hw hh] at h
    cases h
    exact hs
  | cons act rest =>
    by_cases hc : ∃ code operand, act = .command code operand
    · obtain ⟨code, operand, rfl⟩ := hc
      rw [step_command hw hh] at h
      exact exec_command_inv (commandOf_format _ _) (hs.withHost hw rest) h
    · rw [step_access hw hh fun code operand ha => hc ⟨code, operand, ha⟩] at h
      exact hostAccess_inv (s := { s with host := rest }) hw (hs.withHost hw rest) h

/-- Settles O46, by the phase of the engine. -/
theorem everyStepKeepsTheInvariant : Obligations.EveryStepKeepsTheInvariant := by
  intro s t hs h
  cases hw : s.work with
  | idle => exact step_idle_inv hw hs h
  | record =>
    rw [step_record hw] at h
    exact recordTurn_inv hw hs.idle h
  | tokens c =>
    rw [step_tokens hw] at h
    exact tokenTurn_inv hw hs h

end Sys2Proof.Machine

namespace Sys2Proof.Machine

/-! ### The two pixels of a byte (R51), as numbers -/

theorem highNibble_toNat (b : Byte) : (b >>> 4).toNat = b.toNat / 16 := by
  rw [BitVec.toNat_ushiftRight, Nat.shiftRight_eq_div_pow]

theorem lowNibble_toNat (b : Byte) : (b &&& 0x0F).toNat = b.toNat % 16 :=
  (BitVec.toNat_and b 0x0F).trans (Nat.and_two_pow_sub_one_eq_mod b.toNat 4)

theorem lowNibble_lt (b : Byte) : b &&& 0x0F < 16 := by
  rw [BitVec.lt_def, lowNibble_toNat]
  exact Nat.mod_lt _ (by decide)

theorem extractHigh_toNat (b : Byte) : (b.extractLsb' 4 4).toNat = b.toNat / 16 := by
  rw [BitVec.extractLsb'_toNat, Nat.shiftRight_eq_div_pow]
  omega

theorem extractLow_toNat (b : Byte) : (b.extractLsb' 0 4).toNat = b.toNat % 16 :=
  BitVec.extractLsb'_toNat 0 4 b

theorem extractHigh_setWidth (b : Byte) : (b.extractLsb' 4 4).setWidth 8 = b >>> 4 := by
  apply BitVec.eq_of_toNat_eq
  rw [BitVec.toNat_setWidth, extractHigh_toNat, highNibble_toNat]
  omega

theorem extractLow_setWidth (b : Byte) : (b.extractLsb' 0 4).setWidth 8 = b &&& 0x0F := by
  apply BitVec.eq_of_toNat_eq
  rw [BitVec.toNat_setWidth, extractLow_toNat, lowNibble_toNat]
  omega

/-- Indices below 16 do not meet in the byte they are packed in. -/
theorem packedPixels_toNat {even odd : Byte} (he : even < 16) (ho : odd < 16) :
    (even <<< 4 ||| odd).toNat = 16 * even.toNat + odd.toNat := by
  have he' : even.toNat < 16 := he
  have ho' : odd.toNat < 2 ^ 4 := ho
  have hshift : (even <<< 4).toNat = even.toNat <<< 4 := by
    rw [BitVec.toNat_shiftLeft, Nat.shiftLeft_eq]
    omega
  rw [BitVec.toNat_or, hshift, ← Nat.shiftLeft_add_eq_or_of_lt ho', Nat.shiftLeft_eq]
  omega

theorem packedPixels_high {even odd : Byte} (he : even < 16) (ho : odd < 16) : (even <<< 4 ||| odd) >>> 4 = even := by
  have ho' : odd.toNat < 16 := ho
  apply BitVec.eq_of_toNat_eq
  rw [highNibble_toNat, packedPixels_toNat he ho]
  omega

theorem packedPixels_low {even odd : Byte} (he : even < 16) (ho : odd < 16) : (even <<< 4 ||| odd) &&& 0x0F = odd := by
  have ho' : odd.toNat < 16 := ho
  apply BitVec.eq_of_toNat_eq
  rw [lowNibble_toNat, packedPixels_toNat he ho]
  omega

theorem packedPixels_of_nibbles (b : Byte) : (b >>> 4) <<< 4 ||| (b &&& 0x0F) = b := by
  apply BitVec.eq_of_toNat_eq
  rw [packedPixels_toNat (ushiftRight_four_lt b) (lowNibble_lt b), highNibble_toNat, lowNibble_toNat]
  omega

/-! ### PixUnpack (R54) -/

@[simp] theorem pixUnpack_nil : pixUnpack [] = [] := rfl

@[simp] theorem pixUnpack_cons (b : Byte) (rest : List Byte) : pixUnpack (b :: rest) = b >>> 4 :: (b &&& 0x0F) :: pixUnpack rest := by
  rw [pixUnpack, extractHigh_setWidth, extractLow_setWidth]

@[simp] theorem pixUnpack_length (frame : List Byte) : (pixUnpack frame).length = 2 * frame.length := by
  induction frame with
  | nil => rfl
  | cons b rest ih =>
    simp only [pixUnpack_cons, List.length_cons, ih]
    omega

theorem pixUnpack_lt (frame : List Byte) : ∀ x ∈ pixUnpack frame, x < 16 := by
  induction frame with
  | nil => simp
  | cons b rest ih =>
    simp only [pixUnpack_cons, List.forall_mem_cons]
    exact ⟨ushiftRight_four_lt b, lowNibble_lt b, ih⟩

/-- The even pixel of byte `k`. -/
theorem pixUnpack_even (frame : List Byte) (k : Nat) : (pixUnpack frame)[2 * k]? = frame[k]?.map fun b : Byte => b >>> 4 := by
  induction frame generalizing k with
  | nil => simp
  | cons b rest ih =>
    cases k with
    | zero => simp
    | succ k => simpa [Nat.mul_succ] using ih k

/-- The odd pixel of byte `k`. -/
theorem pixUnpack_odd (frame : List Byte) (k : Nat) : (pixUnpack frame)[2 * k + 1]? = frame[k]?.map fun b : Byte => b &&& 0x0F := by
  induction frame generalizing k with
  | nil => simp
  | cons b rest ih =>
    cases k with
    | zero => simp
    | succ k => simpa [Nat.mul_succ] using ih k

/-! ### PixPack (R55) -/

theorem pixPack_pair {even odd : Byte} (he : even < 16) (ho : odd < 16) (rest : List Byte) :
    pixPack (even :: odd :: rest) = (pixPack rest).map ((even <<< 4 ||| odd) :: ·) := by
  rw [pixPack, if_pos ⟨he, ho⟩]
  cases pixPack rest <;> rfl

theorem pixPack_pair_none {even odd : Byte} (h : ¬(even < 16 ∧ odd < 16)) (rest : List Byte) :
    pixPack (even :: odd :: rest) = none := by
  rw [pixPack, if_neg h]

theorem pixPack_pixUnpack (frame : List Byte) : pixPack (pixUnpack frame) = some frame := by
  induction frame with
  | nil => rfl
  | cons b rest ih =>
    rw [pixUnpack_cons, pixPack_pair (ushiftRight_four_lt b) (lowNibble_lt b), ih, Option.map_some, packedPixels_of_nibbles]

/-- Every even number of indices below 16 is the view of a frame. -/
theorem pixUnpack_surjective : ∀ indices : List Byte, indices.length % 2 = 0 → (∀ x ∈ indices, x < 16) →
    ∃ frame, pixUnpack frame = indices
  | [], _, _ => ⟨[], rfl⟩
  | [_], hlen, _ => by cases hlen
  | even :: odd :: rest, hlen, hlt => by
    simp only [List.forall_mem_cons] at hlt
    obtain ⟨he, ho, hrest⟩ := hlt
    obtain ⟨frame, rfl⟩ := pixUnpack_surjective rest (by simpa [Nat.add_assoc] using hlen) hrest
    exact ⟨(even <<< 4 ||| odd) :: frame, by rw [pixUnpack_cons, packedPixels_high he ho, packedPixels_low he ho]⟩

/-- PixUnpack undoes PixPack wherever it is defined. -/
theorem pixUnpack_of_pixPack : ∀ {indices frame : List Byte}, pixPack indices = some frame → pixUnpack frame = indices
  | [], _, h => by cases h; rfl
  | [_], _, h => by cases h
  | even :: odd :: rest, _, h => by
    by_cases hlt : even < 16 ∧ odd < 16
    · obtain ⟨he, ho⟩ := hlt
      rw [pixPack_pair he ho] at h
      obtain ⟨tail, htail, rfl⟩ := Option.map_eq_some_iff.mp h
      rw [pixUnpack_cons, packedPixels_high he ho, packedPixels_low he ho, pixUnpack_of_pixPack htail]
    · rw [pixPack_pair_none hlt] at h
      cases h

/-- PixPack is the partial inverse of PixUnpack, defined exactly on its range. -/
theorem pixPack_eq_some_iff {indices frame : List Byte} : pixPack indices = some frame ↔ pixUnpack frame = indices :=
  ⟨pixUnpack_of_pixPack, fun h => h ▸ pixPack_pixUnpack frame⟩

/-- The range of PixUnpack, which is the domain of PixPack. -/
theorem exists_pixUnpack_iff (indices : List Byte) :
    (∃ frame, pixUnpack frame = indices) ↔ indices.length % 2 = 0 ∧ ∀ x ∈ indices, x < 16 := by
  constructor
  · rintro ⟨frame, rfl⟩
    exact ⟨by simp, pixUnpack_lt frame⟩
  · rintro ⟨hlen, hlt⟩
    exact pixUnpack_surjective indices hlen hlt

theorem hostAccess_loadPixels_undefined {indices : List Byte} (h : pixPack indices = none) (s : State) :
    hostAccess (.loadPixels indices) s = .refused .pixPackUndefined := by
  simp only [hostAccess, h]

/-- Settles O57: PixUnpack pixel by pixel, and PixPack as its partial inverse. -/
theorem pixelViewsAreInverse : Obligations.PixelViewsAreInverse := by
  refine ⟨fun frame => ⟨pixUnpack_length frame, pixUnpack_lt frame, fun k hk => ⟨?_, ?_⟩⟩, pixPack_pixUnpack,
    fun _ _ => pixUnpack_of_pixPack, fun indices => ?_, fun _ s h => hostAccess_loadPixels_undefined h s⟩
  · rw [pixUnpack_even, List.getElem?_eq_getElem hk, Option.map_some]
  · rw [pixUnpack_odd, List.getElem?_eq_getElem hk, Option.map_some]
  · simp only [pixPack_eq_some_iff]
    exact exists_pixUnpack_iff indices

/-! ### The pixel layout of a frame (R52) -/

theorem pixelAt_even (m : Memory) {x : Nat} (y : Nat) (hx : x % 2 = 0) :
    pixelAt m x y = (m.read (y * 160 + x / 2)).extractLsb' 4 4 :=
  if_pos hx

theorem pixelAt_odd (m : Memory) {x : Nat} (y : Nat) (hx : x % 2 ≠ 0) :
    pixelAt m x y = (m.read (y * 160 + x / 2)).extractLsb' 0 4 :=
  if_neg hx

theorem pixelAt_toNat (m : Memory) (x y : Nat) :
    (pixelAt m x y).toNat
      = if x % 2 = 0 then (m.read (y * 160 + x / 2)).toNat / 16 else (m.read (y * 160 + x / 2)).toNat % 16 := by
  split
  · next hx => rw [pixelAt_even m y hx, extractHigh_toNat]
  · next hx => rw [pixelAt_odd m y hx, extractLow_toNat]

theorem Memory.getElem?_readBytes_zero (m : Memory) {n k : Nat} (h : k < n) : (m.readBytes 0 n)[k]? = some (m.read k) := by
  rw [List.getElem?_eq_getElem (by simpa using h), Memory.getElem_readBytes, Nat.zero_add]

/-- Settles O58: two columns to a byte, so that index `320*y + x` is the even or the odd pixel of byte `y*160 + x/2`. -/
theorem pixelLayoutIsRowMajor : Obligations.PixelLayoutIsRowMajor := by
  intro m x y hx hy
  refine ⟨?_, pixelAt_toNat m x y⟩
  have hbyte : (m.readBytes 0 32000)[y * 160 + x / 2]? = some (m.read (y * 160 + x / 2)) :=
    m.getElem?_readBytes_zero (by omega)
  by_cases hpar : x % 2 = 0
  · have hindex : 320 * y + x = 2 * (y * 160 + x / 2) := by omega
    rw [hindex, pixUnpack_even, hbyte, pixelAt_even m y hpar, extractHigh_setWidth, Option.map_some]
  · have hindex : 320 * y + x = 2 * (y * 160 + x / 2) + 1 := by omega
    rw [hindex, pixUnpack_odd, hbyte, pixelAt_odd m y hpar, extractLow_setWidth, Option.map_some]

end Sys2Proof.Machine

/-! The encodings: what the decoder reads from each control byte and size value, that it undoes the encoder and the encoder undoes it,
that no control byte is illegal, and the type byte ENC_FRAME writes. -/

namespace Sys2Proof

/-! ### Control bytes -/

/-- Every control byte is a count under mode bit 0 or under mode bit 1 (R98). -/
theorem exists_controlByte (b : Byte) : ∃ cnt, b = controlByte 0 cnt ∨ b = controlByte 1 cnt := by
  refine ⟨b.extractLsb' 0 7, ?_⟩
  have h := controlByte_of_byte b
  cases hmode : b.getLsbD 7 with
  | false => exact .inl (by rw [hmode] at h; exact h.symm)
  | true => exact .inr (by rw [hmode] at h; exact h.symm)

/-- A literal's length fits the count of its control byte (R90, R94). -/
theorem literalCount_toNat {data : List Byte} (h : data.length ≤ 127) : (BitVec.ofNat 7 data.length).toNat = data.length := by
  rw [BitVec.toNat_ofNat]
  omega

theorem literalCount_ne_zero {data : List Byte} (hpos : 1 ≤ data.length) (h : data.length ≤ 127) :
    BitVec.ofNat 7 data.length ≠ 0 := fun hzero => by
  have hlen : (0 : BitVec 7).toNat = data.length := hzero ▸ literalCount_toNat h
  exact Nat.ne_of_lt hpos hlen

/-! ### The data of a literal -/

theorem decodeLiteral_of_le (mk : List Byte → Instr) {n : Nat} {rest : List Byte} (h : n ≤ rest.length) :
    decodeLiteral mk n rest = .ok (mk (rest.take n), rest.drop n) :=
  if_neg (Nat.not_lt.mpr h)

/-- A literal that decodes is the bytes consumed, as many as its count. -/
theorem decodeLiteral_consumes {mk : List Byte → Instr} {n : Nat} {bytes rest : List Byte} {i : Instr}
    (h : decodeLiteral mk n bytes = .ok (i, rest)) : ∃ data, data.length = n ∧ bytes = data ++ rest ∧ i = mk data := by
  by_cases hn : n ≤ bytes.length
  · rw [decodeLiteral_of_le mk hn] at h
    cases h
    exact ⟨bytes.take n, List.length_take_of_le hn, (List.take_append_drop n bytes).symm, rfl⟩
  · rw [decodeLiteral, if_pos (Nat.lt_of_not_le hn)] at h
    cases h

/-! ### What each control byte is read as in the keyframe grammar -/

theorem decodeKey_end (rest : List Byte) : decodeKey (0x00 :: rest) = .ok (.kEnd, rest) := rfl

theorem decodeKey_literal {cnt : BitVec 7} (h : cnt ≠ 0) (rest : List Byte) :
    decodeKey (controlByte 0 cnt :: rest) = decodeLiteral .kLit cnt.toNat rest := by
  have hc : controlByte 0 cnt ≠ 0x00 := fun hc => h ((controlByte_zero_iff cnt).mp hc)
  have hmode : (controlByte 0 cnt).getLsbD 7 = false := controlByte_mode 0 cnt
  simp only [decodeKey, if_neg hc, hmode, controlByte_zero_toNat, Bool.not_false, if_true]

/-- A control byte with mode bit 1 and no value byte after it. -/
theorem decodeKey_run_nil (cnt : BitVec 7) : decodeKey [controlByte 1 cnt] = .error .missingByte := by
  have hmode : (controlByte 1 cnt).getLsbD 7 = true := controlByte_mode 1 cnt
  rw [decodeKey, if_neg (controlByte_one_ne_zero cnt), hmode]
  rfl

theorem decodeKey_run_cons (cnt : BitVec 7) (v : Byte) (rest : List Byte) :
    decodeKey (controlByte 1 cnt :: v :: rest) = if cnt = 0 then .ok (.kRun0 v, rest) else .ok (.kRun cnt v, rest) := by
  have hmode : (controlByte 1 cnt).getLsbD 7 = true := controlByte_mode 1 cnt
  rw [decodeKey, if_neg (controlByte_one_ne_zero cnt), hmode]
  simp only [controlByte_one_iff, controlByte_count]
  rfl

theorem decodeKey_run {cnt : BitVec 7} (h : cnt ≠ 0) (v : Byte) (rest : List Byte) :
    decodeKey (controlByte 1 cnt :: v :: rest) = .ok (.kRun cnt v, rest) :=
  (decodeKey_run_cons cnt v rest).trans (if_neg h)

theorem decodeKey_run0 (v : Byte) (rest : List Byte) : decodeKey (0x80 :: v :: rest) = .ok (.kRun0 v, rest) :=
  decodeKey_run_cons 0 v rest

/-! ### What each control byte is read as in the delta grammar -/

theorem decodeDelta_run0 (rest : List Byte) : decodeDelta (0x00 :: 0x00 :: rest) = .ok (.dRun0, rest) := rfl

/-- A long run whose count byte is present and whose value byte is missing. -/
theorem decodeDelta_run_nil {cnt : Byte} (h : cnt ≠ 0) : decodeDelta [0x00, cnt] = .error .missingByte :=
  if_neg h

theorem decodeDelta_run {cnt : Byte} (h : cnt ≠ 0) (v : Byte) (rest : List Byte) :
    decodeDelta (0x00 :: cnt :: v :: rest) = .ok (.dRun cnt v, rest) :=
  if_neg h

theorem decodeDelta_skip {cnt : BitVec 7} (h : cnt ≠ 0) (rest : List Byte) :
    decodeDelta (controlByte 0 cnt :: rest) = .ok (.dSkip cnt, rest) := by
  have hc : controlByte 0 cnt ≠ 0x00 := fun hc => h ((controlByte_zero_iff cnt).mp hc)
  have hmode : (controlByte 0 cnt).getLsbD 7 = false := controlByte_mode 0 cnt
  have h80 : controlByte 0 cnt ≠ 0x80 := fun h80 => absurd (h80 ▸ hmode) (by decide)
  simp only [decodeDelta, if_neg hc, if_neg h80, hmode, controlByte_count, Bool.false_eq_true, if_false]

theorem decodeDelta_lit0 (rest : List Byte) : decodeDelta (0x80 :: rest) = .ok (.dLit0, rest) := rfl

theorem decodeDelta_literal {cnt : BitVec 7} (h : cnt ≠ 0) (rest : List Byte) :
    decodeDelta (controlByte 1 cnt :: rest) = decodeLiteral .dLit cnt.toNat rest := by
  have h80 : controlByte 1 cnt ≠ 0x80 := fun h80 => h ((controlByte_one_iff cnt).mp h80)
  have hmode : (controlByte 1 cnt).getLsbD 7 = true := controlByte_mode 1 cnt
  simp only [decodeDelta, if_neg (controlByte_one_ne_zero cnt), if_neg h80, hmode, controlByte_count, if_true]

/-! ### What each size value is read as (R82, R83) -/

theorem decodeRecord_end {size : Half} (h : Config.sentinelMin ≤ size) (rest : List Byte) :
    decodeRecord (le16 size ++ rest) = .ok (.endStream size, rest) := by
  simp only [le16, List.cons_append, List.nil_append, decodeRecord, unLE16_le16, if_pos h]

theorem decodeRecord_short {size : Half} (h : size < Config.minChunk) (rest : List Byte) :
    decodeRecord (le16 size ++ rest) = .ok (.chunkShort size, rest) := by
  have hs : ¬Config.sentinelMin ≤ size := BitVec.not_le.mpr (BitVec.lt_trans h (by decide))
  simp only [le16, List.cons_append, List.nil_append, decodeRecord, unLE16_le16, if_neg hs, if_pos h]

section
variable {size : Half} (hmin : Config.minChunk ≤ size) (hmax : size < Config.sentinelMin)
include hmin hmax

/-- The size of a chunk with no type byte after it. -/
theorem decodeRecord_chunk_nil : decodeRecord (le16 size) = .error .missingByte := by
  simp only [le16, decodeRecord, unLE16_le16, if_neg (BitVec.not_le.mpr hmax), if_neg (BitVec.not_lt.mpr hmin)]

theorem decodeRecord_chunkKey {type : Byte} (h : type.getLsbD 6 = true) (rest : List Byte) :
    decodeRecord (le16 size ++ type :: rest) = .ok (.chunkKey size type, rest) := by
  simp only [le16, List.cons_append, List.nil_append, decodeRecord, unLE16_le16, if_neg (BitVec.not_le.mpr hmax),
    if_neg (BitVec.not_lt.mpr hmin), if_pos h]

theorem decodeRecord_chunkDelta {type : Byte} (h : type.getLsbD 6 = false) (rest : List Byte) :
    decodeRecord (le16 size ++ type :: rest) = .ok (.chunkDelta size type, rest) := by
  simp only [le16, List.cons_append, List.nil_append, decodeRecord, unLE16_le16, if_neg (BitVec.not_le.mpr hmax),
    if_neg (BitVec.not_lt.mpr hmin), h, Bool.false_eq_true, if_false]

end

/-! ### What each command byte is read as (R110, R111) -/

theorem decodeCommand_commandByte (code operand : Nibble) (rest : List Byte) :
    decodeCommand (commandByte code operand :: rest) = .ok (commandOf code operand, rest) := by
  rw [decodeCommand, commandByte_code, commandByte_operand]

/-- The codes 8 to 15, spelled by their low three bits. -/
theorem commandOf_rsvd8 (low : BitVec 3) (operand : Nibble) : commandOf ((1 : BitVec 1) ++ low) operand = .cmdRsvd8 low := by
  revert low operand
  decide

/-- The codes from 8 on are reserved, whatever the operand. -/
theorem commandOf_of_ge {code : Nibble} (h : 8 ≤ code) (operand : Nibble) :
    commandOf code operand = .cmdRsvd8 (code.extractLsb' 0 3) := by
  revert code operand
  decide

/-! ### Decoding an encoded instruction -/

theorem decode_encode {i : Instr} (h : i.wellFormed = true) (rest : List Byte) :
    decode i.format (i.encode ++ rest) = .ok (i, rest) := by
  cases i with
  | kEnd => exact decodeKey_end rest
  | kLit data =>
    simp only [Instr.wellFormed, Bool.and_eq_true, decide_eq_true_eq] at h
    obtain ⟨hpos, hmax⟩ := h
    refine (decodeKey_literal (literalCount_ne_zero hpos hmax) (data ++ rest)).trans ?_
    rw [literalCount_toNat hmax, decodeLiteral_append]
  | kRun0 v => exact decodeKey_run0 v rest
  | kRun cnt v => exact decodeKey_run (bne_iff_ne.mp h) v rest
  | dRun0 => exact decodeDelta_run0 rest
  | dRun cnt v => exact decodeDelta_run (bne_iff_ne.mp h) v rest
  | dSkip cnt => exact decodeDelta_skip (bne_iff_ne.mp h) rest
  | dLit0 => exact decodeDelta_lit0 rest
  | dLit data =>
    simp only [Instr.wellFormed, Bool.and_eq_true, decide_eq_true_eq] at h
    obtain ⟨hpos, hmax⟩ := h
    refine (decodeDelta_literal (literalCount_ne_zero hpos hmax) (data ++ rest)).trans ?_
    rw [literalCount_toNat hmax, decodeLiteral_append]
  | endStream size => exact decodeRecord_end (of_decide_eq_true h) rest
  | chunkShort size => exact decodeRecord_short (of_decide_eq_true h) rest
  | chunkKey size type =>
    simp only [Instr.wellFormed, Bool.and_eq_true, decide_eq_true_eq] at h
    obtain ⟨⟨hmin, hmax⟩, htype⟩ := h
    exact decodeRecord_chunkKey hmin hmax htype rest
  | chunkDelta size type =>
    simp only [Instr.wellFormed, Bool.and_eq_true, decide_eq_true_eq, Bool.not_eq_true'] at h
    obtain ⟨⟨hmin, hmax⟩, htype⟩ := h
    exact decodeRecord_chunkDelta hmin hmax htype rest
  | reset | encFrame | encEnd | decChunk | palPack | palUnpack | cmdRsvd0 => exact decodeCommand_commandByte _ 0 rest
  | abort cause => exact decodeCommand_commandByte 7 cause rest
  | cmdRsvd8 low => exact (decodeCommand_commandByte _ 0 rest).trans (by rw [commandOf_rsvd8])

/-- Settles O2, by the decoder's equation for each instruction. -/
theorem decodeEncodeAgree : Obligations.DecodeEncodeAgree := fun _ rest h => decode_encode h rest

/-- Settles O1: each word is the encoding of a well-formed instruction, and the bytes after it. -/
theorem sampleWordsDecode : Obligations.SampleWordsDecode :=
  ⟨decode_encode (i := .kEnd) rfl [0x55], decode_encode (i := .kRun 3 7) rfl [], decode_encode (i := .kLit [0x80, 0x00]) rfl [],
    decode_encode (i := .dRun 4 0xAA) rfl [], decode_encode (i := .dLit [0xEE]) rfl [], decode_encode (i := .dSkip 127) rfl [],
    decode_encode (i := .chunkDelta 0x00FF 0x01) rfl [], decode_encode (i := .endStream 0xFF00) rfl [],
    decode_encode (i := .abort 5) rfl []⟩

/-! ### Encoding a decoded token or record -/

/-- Of the bytes `bytes`, the instruction `i` is well formed and spelled by those before `rest`. -/
def Instr.Spells (i : Instr) (bytes rest : List Byte) : Prop := i.wellFormed = true ∧ bytes = i.encode ++ rest

/-- The count of a literal's control byte is the literal's length. -/
theorem literal_of_count {cnt : BitVec 7} (h : cnt ≠ 0) {data : List Byte} (hlen : data.length = cnt.toNat) :
    (decide (1 ≤ data.length) && decide (data.length ≤ 127)) = true ∧ BitVec.ofNat 7 data.length = cnt := by
  have hpos : cnt.toNat ≠ 0 := fun hzero => h (BitVec.eq_of_toNat_eq hzero)
  have hlt := cnt.isLt
  refine ⟨?_, by rw [hlen, BitVec.ofNat_toNat, BitVec.setWidth_eq]⟩
  rw [Bool.and_eq_true, decide_eq_true_eq, decide_eq_true_eq]
  omega

theorem decodeKey_spells {bytes rest : List Byte} {i : Instr} (h : decodeKey bytes = .ok (i, rest)) : i.Spells bytes rest := by
  cases bytes with
  | nil => cases h
  | cons b tail =>
    obtain ⟨cnt, rfl | rfl⟩ := exists_controlByte b
    · by_cases hcnt : cnt = 0
      · subst hcnt
        cases h
        exact ⟨rfl, rfl⟩
      · rw [decodeKey_literal hcnt] at h
        obtain ⟨data, hlen, rfl, rfl⟩ := decodeLiteral_consumes h
        obtain ⟨hwf, hctrl⟩ := literal_of_count hcnt hlen
        exact ⟨hwf, by rw [Instr.encode, hctrl, List.cons_append]⟩
    · cases tail with
      | nil =>
        rw [decodeKey_run_nil] at h
        cases h
      | cons v tail =>
        by_cases hcnt : cnt = 0
        · subst hcnt
          rw [decodeKey_run_cons, if_pos rfl] at h
          cases h
          exact ⟨rfl, rfl⟩
        · rw [decodeKey_run hcnt] at h
          cases h
          exact ⟨bne_iff_ne.mpr hcnt, rfl⟩

/-- The tokens whose control byte is 00: D.RUN0 and D.RUN. -/
theorem decodeDelta_zero_spells {tail rest : List Byte} {i : Instr} (h : decodeDelta (0x00 :: tail) = .ok (i, rest)) :
    i.Spells (0x00 :: tail) rest := by
  cases tail with
  | nil => cases h
  | cons cnt tail =>
    by_cases hcnt : cnt = 0
    · subst hcnt
      cases h
      exact ⟨rfl, rfl⟩
    · cases tail with
      | nil =>
        rw [decodeDelta_run_nil hcnt] at h
        cases h
      | cons v tail =>
        rw [decodeDelta_run hcnt] at h
        cases h
        exact ⟨bne_iff_ne.mpr hcnt, rfl⟩

theorem decodeDelta_spells {bytes rest : List Byte} {i : Instr} (h : decodeDelta bytes = .ok (i, rest)) : i.Spells bytes rest := by
  cases bytes with
  | nil => cases h
  | cons b tail =>
    obtain ⟨cnt, rfl | rfl⟩ := exists_controlByte b
    · by_cases hcnt : cnt = 0
      · subst hcnt
        exact decodeDelta_zero_spells h
      · rw [decodeDelta_skip hcnt] at h
        cases h
        exact ⟨bne_iff_ne.mpr hcnt, rfl⟩
    · by_cases hcnt : cnt = 0
      · subst hcnt
        cases h
        exact ⟨rfl, rfl⟩
      · rw [decodeDelta_literal hcnt] at h
        obtain ⟨data, hlen, rfl, rfl⟩ := decodeLiteral_consumes h
        obtain ⟨hwf, hctrl⟩ := literal_of_count hcnt hlen
        exact ⟨hwf, by rw [Instr.encode, hctrl, List.cons_append]⟩

/-- The three ranges of size values: END, CHUNK.SHORT and a chunk, which needs its type byte. -/
theorem decodeRecord_size_spells {size : Half} {tail rest : List Byte} {i : Instr}
    (h : decodeRecord (le16 size ++ tail) = .ok (i, rest)) : i.Spells (le16 size ++ tail) rest := by
  by_cases hend : Config.sentinelMin ≤ size
  · rw [decodeRecord_end hend] at h
    cases h
    exact ⟨decide_eq_true hend, rfl⟩
  by_cases hshort : size < Config.minChunk
  · rw [decodeRecord_short hshort] at h
    cases h
    exact ⟨decide_eq_true hshort, rfl⟩
  have hmax := BitVec.not_le.mp hend
  have hmin := BitVec.not_lt.mp hshort
  cases tail with
  | nil =>
    rw [List.append_nil, decodeRecord_chunk_nil hmin hmax] at h
    cases h
  | cons type tail =>
    cases htype : type.getLsbD 6 with
    | true =>
      rw [decodeRecord_chunkKey hmin hmax htype] at h
      cases h
      exact ⟨by simp only [Instr.wellFormed, hmin, hmax, htype, decide_true, Bool.and_self], rfl⟩
    | false =>
      rw [decodeRecord_chunkDelta hmin hmax htype] at h
      cases h
      exact ⟨by simp only [Instr.wellFormed, hmin, hmax, htype, decide_true, Bool.not_false, Bool.and_self], rfl⟩

theorem decodeRecord_spells {bytes rest : List Byte} {i : Instr} (h : decodeRecord bytes = .ok (i, rest)) :
    i.Spells bytes rest := by
  match bytes with
  | [] => cases h
  | [_] => cases h
  | lo :: hi :: tail =>
    have hbytes : lo :: hi :: tail = le16 (unLE16 lo hi) ++ tail := by rw [le16_unLE16]; rfl
    rw [hbytes] at h ⊢
    exact decodeRecord_size_spells h

theorem Instr.encode_length (i : Instr) : i.encode.length = i.byteLength := by
  cases i with
  | kLit data => exact Laws.EncodeLength.kLit data
  | dLit data => exact Laws.EncodeLength.dLit data
  | _ => rfl

/-- Settles O3, by the format read. -/
theorem decodedBytesAreTheirEncoding : Obligations.DecodedBytesAreTheirEncoding := by
  intro f bytes rest i hf h
  have hspells : i.Spells bytes rest := by
    match f with
    | .command => exact absurd rfl hf
    | .record => exact decodeRecord_spells h
    | .token .key => exact decodeKey_spells h
    | .token .delta => exact decodeDelta_spells h
  obtain ⟨hwf, hbytes⟩ := hspells
  exact ⟨hwf, decode_format h, hbytes, i.encode_length⟩

/-! ### Every control byte is a token (R101) -/

/-- As many bytes as the largest count suffice for a literal. -/
theorem decodeLiteral_total (mk : List Byte → Instr) (cnt : BitVec 7) {rest : List Byte} (h : 127 ≤ rest.length) :
    ∃ i tail, decodeLiteral mk cnt.toNat rest = .ok (i, tail) :=
  ⟨_, _, decodeLiteral_of_le mk (Nat.le_trans (Nat.le_of_lt_succ cnt.isLt) h)⟩

theorem decodeKey_total (b : Byte) {rest : List Byte} (h : 127 ≤ rest.length) : ∃ i tail, decodeKey (b :: rest) = .ok (i, tail) := by
  obtain ⟨cnt, rfl | rfl⟩ := exists_controlByte b
  · by_cases hcnt : cnt = 0
    · subst hcnt
      exact ⟨_, _, decodeKey_end rest⟩
    · rw [decodeKey_literal hcnt]
      exact decodeLiteral_total _ cnt h
  · match rest with
    | v :: tail =>
      rw [decodeKey_run_cons]
      split <;> exact ⟨_, _, rfl⟩

theorem decodeDelta_total (b : Byte) {rest : List Byte} (h : 127 ≤ rest.length) :
    ∃ i tail, decodeDelta (b :: rest) = .ok (i, tail) := by
  obtain ⟨cnt, rfl | rfl⟩ := exists_controlByte b
  · by_cases hcnt : cnt = 0
    · subst hcnt
      match rest with
      | run :: v :: tail =>
        by_cases hrun : run = 0
        · subst hrun
          exact ⟨_, _, decodeDelta_run0 (v :: tail)⟩
        · exact ⟨_, _, decodeDelta_run hrun v tail⟩
    · exact ⟨_, _, decodeDelta_skip hcnt rest⟩
  · by_cases hcnt : cnt = 0
    · subst hcnt
      exact ⟨_, _, decodeDelta_lit0 rest⟩
    · rw [decodeDelta_literal hcnt]
      exact decodeLiteral_total _ cnt h

theorem decodeToken_total (g : Grammar) (b : Byte) {rest : List Byte} (h : 127 ≤ rest.length) :
    ∃ i tail, decode (.token g) (b :: rest) = .ok (i, tail) := by
  cases g with
  | key => exact decodeKey_total b h
  | delta => exact decodeDelta_total b h

/-- Settles O4: a control byte is a count under a mode bit, and 127 bytes are enough for every count. -/
theorem everyControlByteIsAToken : Obligations.EveryControlByteIsAToken := by
  intro g b rest h
  obtain ⟨i, tail, hd⟩ := decodeToken_total g b h
  exact ⟨i, tail, hd, decode_format hd⟩

end Sys2Proof

namespace Sys2Proof.Machine

/-! ### The type byte of ENC_FRAME -/

/-- A frame of the right geometry, with room in OSTREAM and before ENC_END, is encoded (R210, R211). -/
theorem exec_encFrame_run {s : State} (hw : s.work = .idle) (hf : s.fault = false) (he : s.encEnded = false) (hx : s.inW = 320)
    (hy : s.inH = 200) (hr : s.outRoom (2 * s.frameBytes + 38) = true) : exec .encFrame s = .next s.afterFrame := by
  change execEncFrame s = _
  rw [execEncFrame, command_run s _ hw hf]
  simp only [he, hx, hy, hr, Bool.false_eq_true, ne_eq, not_true_eq_false, or_self, if_false, if_true]

/-- A chunk is its size field, its type byte, and the rest (R215). -/
theorem State.frameChunk_eq (s : State) :
    s.frameChunk = le16 (BitVec.ofNat 16 s.frameSize) ++ typeFlag s.newPalette s.encFirst :: (s.framePalette ++ s.frameTokens) := by
  have hheader : s.frameHeader.encode = le16 (BitVec.ofNat 16 s.frameSize) ++ [typeFlag s.newPalette s.encFirst] := by
    unfold State.frameHeader
    split <;> rfl
  rw [State.frameChunk, hheader]
  simp

theorem State.afterFrame_typeByte (s : State) : s.afterFrame.ostream.read (s.wp + 2) = typeFlag s.newPalette s.encFirst := by
  rw [State.afterFrame_ostream, State.frameChunk_eq]
  exact Memory.read_writeBytes_inside _ _ 2 _ (by simp)

/-- The palette is new on the first frame, and later when it differs from the last one emitted (R212). -/
theorem State.newPalette_of_first {s : State} (h : s.palEncValid = !s.encFirst) :
    s.newPalette = (s.encFirst || !palEq (palPack s.palIn) s.palEncLast) := by
  rw [State.newPalette, h, Bool.not_not]

/-- The three type bytes (R85, R214). -/
theorem State.typeFlag_of_first {s : State} (h : s.palEncValid = !s.encFirst) :
    typeFlag s.newPalette s.encFirst
      = if s.encFirst then 0xE1 else if palPack s.palIn = s.palEncLast then 0x01 else 0x81 := by
  rw [State.newPalette_of_first h]
  cases s.encFirst with
  | true =>
    rw [Bool.true_or, if_pos rfl]
    rfl
  | false =>
    by_cases hp : palPack s.palIn = s.palEncLast
    · rw [(palEq_iff _ _).mpr hp, if_pos hp]
      rfl
    · have hne : palEq (palPack s.palIn) s.palEncLast = false := decide_eq_false hp
      rw [hne, if_neg hp]
      rfl

/-- Settles O28: the type byte is the third of the chunk that ENC_FRAME appends. -/
theorem encFrameTypeByteIsOneOfThree : Obligations.EncFrameTypeByteIsOneOfThree := fun s hw hf he hx hy hr hfirst =>
  ⟨s.afterFrame, exec_encFrame_run hw hf he hx hy hr, s.afterFrame_typeByte.trans (State.typeFlag_of_first hfirst)⟩

/-! ### The reserved command codes -/

/-- Taking a fault between commands changes FAULT and CAUSE only (R270). -/
theorem State.faulted_of_idle {s : State} (hw : s.work = .idle) (c : Cause) :
    s.faulted c = { s with fault := true, cause := c.code } := by
  rw [State.faulted, ← hw]

/-- A command whose body raises `c`, issued between commands and without a fault. -/
theorem command_raise {s : State} (hw : s.work = .idle) (hf : s.fault = false) (c : Cause) :
    command s (raise c) = .next { s with fault := true, cause := c.code } := by
  rw [command_run s _ hw hf, raise_eq, State.faulted_of_idle hw]

theorem exec_cmdRsvd0 {s : State} (hw : s.work = .idle) (hf : s.fault = false) :
    exec .cmdRsvd0 s = .next { s with fault := true, cause := 8 } :=
  command_raise hw hf .illegalCommand

theorem exec_cmdRsvd8 {s : State} (hw : s.work = .idle) (hf : s.fault = false) (low : BitVec 3) :
    exec (.cmdRsvd8 low) s = .next { s with fault := true, cause := 8 } :=
  command_raise hw hf .illegalCommand

/-- Settles O35: on the port a reserved code is read as one of the two reserved commands. -/
theorem reservedCommandsAreIllegal : Obligations.ReservedCommandsAreIllegal := by
  intro s hw hf
  refine ⟨exec_cmdRsvd0 hw hf, exec_cmdRsvd8 hw hf, fun code operand rest hcode hh => ?_⟩
  rw [step_command hw hh]
  rcases hcode with rfl | hge
  · exact exec_cmdRsvd0 (s := { s with host := rest }) hw hf
  · rw [commandOf_of_ge hge]
    exact exec_cmdRsvd8 (s := { s with host := rest }) hw hf _

end Sys2Proof.Machine

namespace Sys2Proof.Machine

/-! ### The palette pair (R121 to R126) -/

/-- A packed palette is its sixteen pairs of bytes (R56). -/
theorem PackedPalette.ext_pairs {q q' : PackedPalette}
    (h : ∀ k (hk : k < 16), q[2 * k] = q'[2 * k] ∧ q[2 * k + 1] = q'[2 * k + 1]) : q = q' := by
  apply Vector.ext
  intro i hi
  obtain ⟨k, rfl | rfl⟩ := i.even_or_odd'
  · exact (h k (by omega)).1
  · exact (h k (by omega)).2

theorem extractHigh_append_extractLow (b : Byte) : b.extractLsb' 4 4 ++ b.extractLsb' 0 4 = b :=
  (BitVec.extractLsb'_append_extractLsb'_eq_extractLsb' rfl).trans BitVec.extractLsb'_eq_self

/-- The first byte of a packed colour holds the top nibbles of green and blue. -/
theorem greenBlueByte_eq (g b : Byte) : g &&& (0xF0 : Byte) ||| b >>> 4 = g.extractLsb' 4 4 ++ b.extractLsb' 4 4 := by
  have hmask : g &&& (0xF0 : Byte) = g >>> 4 <<< 4 := (BitVec.shiftLeft_ushiftRight (x := g) (n := 4)).symm
  have hlow : (b.extractLsb' 4 4).toNat < 2 ^ 4 := BitVec.isLt _
  apply BitVec.eq_of_toNat_eq
  rw [hmask, packedPixels_toNat (ushiftRight_four_lt g) (ushiftRight_four_lt b), BitVec.toNat_append,
    ← Nat.shiftLeft_add_eq_or_of_lt hlow, Nat.shiftLeft_eq]
  simp only [highNibble_toNat, extractHigh_toNat]
  omega

/-- The second byte of a packed colour holds the top nibble of red. -/
theorem redByte_low (r : Byte) : (r >>> 4).extractLsb' 0 4 = r.extractLsb' 4 4 := by
  apply BitVec.eq_of_toNat_eq
  rw [extractLow_toNat, highNibble_toNat, extractHigh_toNat]
  omega

/-- The unused nibble of a packed byte is zero (R124). -/
theorem redByte_unused (r : Byte) : r >>> 4 &&& (0x0F : Byte) = r >>> 4 := by
  rw [← extractLow_setWidth, redByte_low, extractHigh_setWidth]

/-- The level table (R123). -/
theorem level_toNat (n : Nibble) : (level n).toNat = 17 * n.toNat := by
  have hn : n.toNat < 16 := n.isLt
  rw [level, BitVec.toNat_mul, BitVec.toNat_setWidth]
  change 17 * (n.toNat % 256) % 256 = _
  omega

/-- The top nibble of `n * 17` is `n`, from which the laws of the pair follow (R126). -/
theorem level_high (n : Nibble) : (level n).extractLsb' 4 4 = n := by
  have hn : n.toNat < 16 := n.isLt
  apply BitVec.eq_of_toNat_eq
  rw [extractHigh_toNat, level_toNat]
  omega

theorem level_ushiftRight (n : Nibble) : level n >>> 4 = n.setWidth 8 := by
  rw [← extractHigh_setWidth, level_high]

theorem level_extractHigh_toNat (c : Byte) : (level (c.extractLsb' 4 4)).toNat = c.toNat / 16 * 17 := by
  rw [level_toNat, extractHigh_toNat, Nat.mul_comm]

theorem palPack_greenBlue (u : UnpackedPalette) (k : Nat) (h : k < 16) :
    (palPack u)[2 * k] = u[k].g.extractLsb' 4 4 ++ u[k].b.extractLsb' 4 4 :=
  (palPack_even u k h).trans (greenBlueByte_eq _ _)

/-- A colour through the pair: the level of each channel's top nibble, opaque (R126 e). -/
theorem palUnpack_palPack_get (x : UnpackedPalette) (k : Nat) (h : k < 16) :
    (palUnpack (palPack x))[k]
      = ⟨level (x[k].r.extractLsb' 4 4), level (x[k].g.extractLsb' 4 4), level (x[k].b.extractLsb' 4 4), 255⟩ := by
  rw [palUnpack_get _ k h, palPack_greenBlue x k h, palPack_odd x k h, unpackedColour, redByte_low,
    BitVec.extractLsb'_append_eq_left, BitVec.extractLsb'_append_eq_right]

/-- The green and blue byte comes back through the pair as it was (R126 c). -/
theorem palPack_palUnpack_even (q : PackedPalette) (k : Nat) (h : k < 16) : (palPack (palUnpack q))[2 * k] = q[2 * k] := by
  rw [palPack_greenBlue _ k h, palUnpack_get q k h]
  simp only [unpackedColour, level_high, extractHigh_append_extractLow]

/-- The red byte comes back with its unused nibble cleared (R126 c). -/
theorem palPack_palUnpack_odd (q : PackedPalette) (k : Nat) (h : k < 16) :
    (palPack (palUnpack q))[2 * k + 1] = q[2 * k + 1] &&& 0x0F := by
  rw [palPack_odd _ k h, palUnpack_get q k h]
  simp only [unpackedColour, level_ushiftRight, extractLow_setWidth]

/-- What PalPack writes has no unused nibble to clear (R126 c). -/
theorem palPack_palUnpack_palPack (x : UnpackedPalette) : palPack (palUnpack (palPack x)) = palPack x := by
  refine PackedPalette.ext_pairs fun k hk => ⟨palPack_palUnpack_even _ k hk, ?_⟩
  rw [palPack_palUnpack_odd _ k hk, palPack_odd x k hk, redByte_unused]

/-- Only a palette of levels comes back through the pair as it was (R126 a, d). -/
theorem level_of_palUnpack_palPack_eq {x : UnpackedPalette} (h : palUnpack (palPack x) = x) (k : Nat) (hk : k < 16) :
    level (x[k].g.extractLsb' 4 4) = x[k].g := by
  have hcolour := palUnpack_palPack_get x k hk
  rw [h] at hcolour
  exact (congrArg Colour.g hcolour).symm

/-- Settles O33: green `0x20` is no level, and the other laws follow from the packed bytes and the colour that come back. -/
theorem paletteLaws : Obligations.PaletteLaws := by
  refine ⟨⟨Vector.replicate 16 ⟨0x10, 0x20, 0x30, 0x40⟩, fun h => ?_⟩, fun x => ?_, palPack_palUnpack_palPack,
    fun q k hk => ?_, fun x k hk => ?_⟩
  · exact absurd (level_of_palUnpack_palPack_eq h 0 (by decide)) (by decide)
  · rw [palPack_palUnpack_palPack]
  · exact ⟨palPack_palUnpack_even q k hk, palPack_palUnpack_odd q k hk⟩
  · rw [palUnpack_palPack_get x k hk]
    exact ⟨level_extractHigh_toNat _, level_extractHigh_toNat _, level_extractHigh_toNat _, rfl⟩

/-! ### PAL_PACK and PAL_UNPACK (R128, R129) -/

theorem exec_palPack_run {s : State} (hw : s.work = .idle) (hf : s.fault = false) :
    exec .palPack s = .next { s with palPk := palPack s.palIn } := by
  change execPalPack s = _
  rw [execPalPack, command_run s _ hw hf]

theorem exec_palUnpack_run {s : State} (hw : s.work = .idle) (hf : s.fault = false) :
    exec .palUnpack s = .next { s with palOut := palUnpack s.palPk } := by
  change execPalUnpack s = _
  rw [execPalUnpack, command_run s _ hw hf]

/-- Settles O31, by the two bytes of each packed colour. -/
theorem palPackPacksTheInput : Obligations.PalPackPacksTheInput := fun s hw =>
  ⟨exec_sticky_run rfl (by simp) hw, fun hf =>
    ⟨_, exec_palPack_run hw hf, fun k hk => ⟨palPack_even s.palIn k hk, palPack_odd s.palIn k hk⟩, rfl⟩⟩

/-- The channels of an unpacked colour, as numbers (R122). -/
theorem palUnpack_channels (q : PackedPalette) (k : Nat) (h : k < 16) :
    (palUnpack q)[k].g.toNat = 17 * (q[2 * k].toNat / 16) ∧ (palUnpack q)[k].b.toNat = 17 * (q[2 * k].toNat % 16)
      ∧ (palUnpack q)[k].r.toNat = 17 * (q[2 * k + 1].toNat % 16) ∧ (palUnpack q)[k].a = 255 := by
  simp only [palUnpack_get q k h, unpackedColour, level_toNat, extractHigh_toNat, extractLow_toNat, and_self]

/-- Settles O32, by the four channels of each unpacked colour. -/
theorem palUnpackExpandsTheLevels : Obligations.PalUnpackExpandsTheLevels := fun s hw =>
  ⟨exec_sticky_run rfl (by simp) hw, fun hf => ⟨_, exec_palUnpack_run hw hf, palUnpack_channels s.palPk, rfl⟩⟩

end Sys2Proof.Machine

/-! The tokens of a chunk: what one token does, the loop over a chunk's tokens, and with them the keyframe chunk. -/

namespace Sys2Proof

/-- The count byte of a literal in the keyframe grammar, from the length alone (R90). -/
theorem controlByte_zero_ofNat {n : Nat} (h : n ≤ 127) : controlByte 0 (BitVec.ofNat 7 n) = BitVec.ofNat 8 n := by
  apply BitVec.eq_of_toNat_eq
  rw [controlByte_zero_toNat, BitVec.toNat_ofNat, BitVec.toNat_ofNat]
  omega

theorem controlByte_one_eq (cnt : BitVec 7) : controlByte 1 cnt = 0x80 ||| cnt.setWidth 8 := by
  revert cnt
  decide

end Sys2Proof

namespace Sys2Proof.Machine

/-! ### The operand forms of a token, case by case -/

section
variable {s : State} {c : TokenRun} {len : Nat}

theorem passToken_overrun (h : c.len < c.tp + len) : passToken s c len = .next (s.faulted .payloadOverrun) :=
  if_pos h

theorem passToken_run (h : c.tp + len ≤ c.len) : passToken s c len = .next (s.advanceToken c len 0) :=
  if_neg (Nat.not_lt.mpr h)

theorem endToken_overrun (h : c.len < c.tp + len) : endToken s c len = .next (s.faulted .payloadOverrun) :=
  if_pos h

theorem endToken_run (h : c.tp + len ≤ c.len) :
    endToken s c len = .next { s with work := .tokens { c with tp := c.tp + len, ended := true } } :=
  if_neg (Nat.not_lt.mpr h)

theorem storeToken_overrun {bytes : List Byte} (h : c.len < c.tp + len) :
    storeToken s c len bytes = .next (s.faulted .payloadOverrun) :=
  if_pos h

theorem storeToken_noRoom {bytes : List Byte} (h : c.tp + len ≤ c.len) (hr : s.frameBytes < c.op + bytes.length) :
    storeToken s c len bytes = .next (s.faulted .frameOverrun) :=
  (if_neg (Nat.not_lt.mpr h)).trans (if_pos hr)

theorem storeToken_run {bytes : List Byte} (h : c.tp + len ≤ c.len) (hr : c.op + bytes.length ≤ s.frameBytes) :
    storeToken s c len bytes = .next ({ s with disp := s.disp.writeBytes c.op bytes }.advanceToken c len bytes.length) :=
  (if_neg (Nat.not_lt.mpr h)).trans (if_neg (Nat.not_lt.mpr hr))

theorem skipToken_run {cnt : Nat} (h : c.tp + len ≤ c.len) (hr : c.op + cnt ≤ s.frameBytes) :
    skipToken s c len cnt = .next (s.advanceToken c len cnt) :=
  (if_neg (Nat.not_lt.mpr h)).trans (if_neg (Nat.not_lt.mpr hr))

end

theorem inTokens_atToken {g : Grammar} {s : State} {c : TokenRun} (h : AtToken s g c) (body : TokenRun → Result) :
    inTokens g s body = body c := by
  obtain ⟨hw, hg, hc⟩ := h
  exact inTokens_run g s c body hw hg hc

/-- An instruction that stores bytes at `op` passes the payload test and the room test first (R237, R269). -/
theorem storesBytes_of_exec {i : Instr} {g : Grammar} {len : Nat} {bytes : List Byte}
    (h : ∀ s, exec i s = inTokens g s fun c => storeToken s c len bytes) : StoresBytes i g len bytes := by
  intro s c hat
  rw [h, inTokens_atToken hat]
  refine ⟨storeToken_overrun, storeToken_noRoom, fun hp hr => ⟨_, storeToken_run hp hr, ?_, ?_, rfl⟩⟩
  · exact fun k hk => Memory.read_writeBytes_inside _ _ k _ hk
  · exact fun a ha => Memory.read_writeBytes_outside _ _ a _ ha

theorem passesBytes_of_exec {i : Instr} {g : Grammar} {len : Nat} (h : ∀ s, exec i s = inTokens g s fun c => passToken s c len) :
    PassesBytes i g len := by
  intro s c hat
  rw [h, inTokens_atToken hat]
  exact ⟨passToken_overrun, passToken_run⟩

/-! ### The tokens one by one -/

theorem decode_kLit {data : List Byte} (hpos : 1 ≤ data.length) (hmax : data.length ≤ 127) :
    decode (.token .key) (BitVec.ofNat 8 data.length :: data) = .ok (.kLit data, []) := by
  have hwf : (Instr.kLit data).wellFormed = true := by simp [Instr.wellFormed, hpos, hmax]
  have h := decode_encode hwf []
  rwa [Instr.encode, controlByte_zero_ofNat hmax, List.append_nil] at h

theorem decode_kRun {cnt : BitVec 7} (h : cnt ≠ 0) (v : Byte) :
    decode (.token .key) [0x80 ||| cnt.setWidth 8, v] = .ok (.kRun cnt v, []) := by
  rw [← controlByte_one_eq]
  exact decodeKey_run h v []

/-- Settles O5: the payload test, then the end is recorded. -/
theorem kEndEndsTheTokens : Obligations.KEndEndsTheTokens := by
  intro s c hat
  have hexec : exec .kEnd s = endToken s c 1 := inTokens_atToken hat _
  rw [hexec]
  exact ⟨endToken_overrun, endToken_run⟩

/-- Settles O6. -/
theorem kLitCopiesItsBytes : Obligations.KLitCopiesItsBytes := fun _ =>
  ⟨decode_kLit, storesBytes_of_exec fun _ => rfl⟩

/-- Settles O7. -/
theorem kRunReplicatesItsValue : Obligations.KRunReplicatesItsValue := fun _ v =>
  ⟨fun h => decode_kRun h v, storesBytes_of_exec fun _ => rfl⟩

/-- Settles O10. -/
theorem reservedTokensOnlyPass : Obligations.ReservedTokensOnlyPass :=
  ⟨fun v => decodeKey_run0 v [], decodeDelta_run0 [], decodeDelta_lit0 [], fun _ => passesBytes_of_exec fun _ => rfl,
    passesBytes_of_exec fun _ => rfl, passesBytes_of_exec fun _ => rfl⟩

/-! ### What a token makes of the frame -/

/-- The bytes a token makes of the frame bytes `old` at the output position, as many as it covers (R97, R237). -/
def tokenOutput (i : Instr) (old : List Byte) : List Byte :=
  match i with
  | .kRun cnt v => List.replicate cnt.toNat v
  | .dRun cnt v => List.replicate cnt.toNat v
  | .kLit data => data
  | .dLit data => data
  | .dSkip cnt => old.take cnt.toNat
  | _ => []

/-- The store of the frame after a token at output position `op`; a skip is the identity in place (R191). -/
def tokenStored (i : Instr) (op : Nat) (m : Memory) : Memory :=
  match i with
  | .kRun cnt v => m.writeBytes op (List.replicate cnt.toNat v)
  | .dRun cnt v => m.writeBytes op (List.replicate cnt.toNat v)
  | .kLit data => m.writeBytes op data
  | .dLit data => m.writeBytes op data
  | _ => m

/-- The store of the frame after a list of tokens that begins at output position `op`. -/
def tokensStored (toks : List Instr) (op : Nat) (m : Memory) : Memory :=
  match toks with
  | [] => m
  | i :: rest => tokensStored rest (op + tokenCount i) (tokenStored i op m)

theorem expandTokens_cons (i : Instr) (rest : List Instr) (old : List Byte) :
    expandTokens (i :: rest) old = tokenOutput i old ++ expandTokens rest (old.drop (tokenCount i)) := by
  cases i <;> rfl

@[simp] theorem tokensCount_nil : tokensCount [] = 0 := rfl

@[simp] theorem tokensCount_cons (i : Instr) (rest : List Instr) : tokensCount (i :: rest) = tokenCount i + tokensCount rest := rfl

theorem Memory.readBytes_writeBytes_from (m : Memory) (a : Nat) (bytes : List Byte) (n : Nat) :
    (m.writeBytes a bytes).readBytes a (bytes.length + n) = bytes ++ m.readBytes (a + bytes.length) n := by
  rw [Memory.readBytes_add, Memory.readBytes_writeBytes]
  congr 1
  exact Memory.readBytes_congr _ _ _ _ fun i _ => Memory.read_writeBytes_outside _ _ _ _ (.inr (by omega))

theorem Memory.drop_readBytes (m : Memory) (a n k : Nat) : (m.readBytes a n).drop k = m.readBytes (a + k) (n - k) := by
  by_cases h : k ≤ n
  · obtain ⟨d, rfl⟩ := Nat.exists_eq_add_of_le h
    rw [Memory.readBytes_add, List.drop_left' (by simp), Nat.add_sub_cancel_left]
  · rw [List.drop_eq_nil_of_le (by simp; omega), Nat.sub_eq_zero_of_le (by omega)]
    rfl

theorem Memory.take_readBytes (m : Memory) (a n k : Nat) : (m.readBytes a n).take k = m.readBytes a (min n k) := by
  by_cases h : k ≤ n
  · obtain ⟨d, rfl⟩ := Nat.exists_eq_add_of_le h
    rw [Memory.readBytes_add, List.take_left' (by simp), Nat.min_eq_right h]
  · rw [List.take_of_length_le (by simp; omega), Nat.min_eq_left (by omega)]

/-- The frame from the output position on, after a token: what the token makes of it, then the bytes past it as they were. -/
theorem tokenStored_readBytes (i : Instr) (op n : Nat) (m : Memory) :
    (tokenStored i op m).readBytes op (tokenCount i + n)
      = tokenOutput i (m.readBytes op (tokenCount i + n)) ++ m.readBytes (op + tokenCount i) n := by
  cases i with
  | kRun cnt v | dRun cnt v =>
    simpa [tokenStored, tokenOutput, tokenCount] using m.readBytes_writeBytes_from op (List.replicate cnt.toNat v) n
  | kLit data | dLit data => exact m.readBytes_writeBytes_from op data n
  | dSkip cnt => simp [tokenStored, tokenOutput, tokenCount, Memory.readBytes_add]
  | _ => simp [tokenStored, tokenOutput, tokenCount]

/-- A token writes the positions it covers and no others. -/
theorem tokenStored_read_outside (i : Instr) (op : Nat) (m : Memory) {a : Nat} (h : a < op ∨ op + tokenCount i ≤ a) :
    (tokenStored i op m).read a = m.read a := by
  cases i with
  | kRun cnt v | dRun cnt v => exact Memory.read_writeBytes_outside _ _ _ _ (by simpa [tokenCount] using h)
  | kLit data | dLit data => exact Memory.read_writeBytes_outside _ _ _ _ h
  | _ => rfl

theorem tokensStored_read_outside (toks : List Instr) (op : Nat) (m : Memory) {a : Nat} (h : a < op ∨ op + tokensCount toks ≤ a) :
    (tokensStored toks op m).read a = m.read a := by
  induction toks generalizing op m with
  | nil => rfl
  | cons i rest ih =>
    rw [tokensCount_cons] at h
    rw [tokensStored, ih _ _ (by omega), tokenStored_read_outside _ _ _ (by omega)]

/-- The tokens' effect on the store is their expansion of its bytes (R151, R186). -/
theorem tokensStored_readBytes (toks : List Instr) (op n : Nat) (m : Memory) (h : tokensCount toks ≤ n) :
    (tokensStored toks op m).readBytes op n = expandTokens toks (m.readBytes op n) := by
  induction toks generalizing op n m with
  | nil => rfl
  | cons i rest ih =>
    rw [tokensCount_cons] at h
    obtain ⟨k, rfl⟩ := Nat.exists_eq_add_of_le (Nat.le_of_add_right_le h)
    have hstored := tokenStored_readBytes i op k m
    have hlen : (tokenOutput i (m.readBytes op (tokenCount i + k))).length = tokenCount i := by
      have := congrArg List.length hstored
      simpa using this.symm
    have hsplit := Memory.readBytes_add (tokenStored i op m) op (tokenCount i) k
    rw [hstored] at hsplit
    obtain ⟨hcovered, hpast⟩ := List.append_inj hsplit (by simpa using hlen)
    have hkept : (tokensStored rest (op + tokenCount i) (tokenStored i op m)).readBytes op (tokenCount i)
        = (tokenStored i op m).readBytes op (tokenCount i) :=
      Memory.readBytes_congr _ _ _ _ fun j hj => tokensStored_read_outside _ _ _ (.inl (by omega))
    rw [tokensStored, Memory.readBytes_add, hkept, ih _ _ _ (by omega), ← hcovered, ← hpast, expandTokens_cons,
      Memory.drop_readBytes, Nat.add_sub_cancel_left]

/-! ### A token of the stream -/

/-- The bytes of the token stream from `tp` on (R44, R228). -/
def State.tokenStream (s : State) (c : TokenRun) : List Byte := s.istream.readBytes (c.base + c.tp) (c.len - c.tp)

theorem State.length_tokenStream (s : State) (c : TokenRun) : (s.tokenStream c).length = c.len - c.tp :=
  Memory.length_readBytes _ _ _

theorem State.tokenWindow_eq_take (s : State) (c : TokenRun) : s.tokenWindow c = (s.tokenStream c).take Config.maxTokenBytes :=
  (Memory.take_readBytes _ _ _ _).symm

/-- No well-formed token is longer than the bytes the token decoder is given (R97). -/
theorem encode_length_le_maxTokenBytes {i : Instr} (h : i.wellFormed = true) : i.encode.length ≤ Config.maxTokenBytes := by
  rw [Instr.encode_length, Config.maxTokenBytes]
  cases i with
  | kLit data | dLit data =>
    simp only [Instr.wellFormed, Bool.and_eq_true, decide_eq_true_eq] at h
    simp only [Instr.byteLength]
    omega
  | _ => simp [Instr.byteLength]

theorem encode_length_pos (i : Instr) : 1 ≤ i.encode.length := by
  rw [Instr.encode_length]
  cases i <;> simp [Instr.byteLength]

theorem length_le_encode_length (toks : List Instr) : toks.length ≤ (toks.flatMap Instr.encode).length := by
  induction toks with
  | nil => rfl
  | cons i rest ih =>
    have := encode_length_pos i
    rw [List.flatMap_cons, List.length_append, List.length_cons]
    omega

section
variable {s : State} {c : TokenRun} {i : Instr} {rest : List Byte}

/-- The token the stream begins with is the one fetched. -/
theorem fetchToken_of_stream (hs : s.tokenStream c = i.encode ++ rest) (hwf : i.wellFormed = true)
    (hf : i.format = .token c.grammar) : ∃ tail, s.fetchToken c = .ok (i, tail) := by
  refine ⟨rest.take (Config.maxTokenBytes - i.encode.length), ?_⟩
  rw [State.fetchToken, State.tokenWindow_eq_take, hs, List.take_append, List.take_of_length_le (encode_length_le_maxTokenBytes hwf),
    ← hf]
  exact decode_encode hwf _

theorem tp_le_of_stream (hs : s.tokenStream c = i.encode ++ rest) : c.tp + i.byteLength ≤ c.len := by
  have hlen := congrArg List.length hs
  have hpos := encode_length_pos i
  rw [State.length_tokenStream, List.length_append] at hlen
  rw [← Instr.encode_length]
  omega

end

/-- What follows some bytes of the stream is the stream past them. -/
theorem tokenStream_past {s : State} {c c' : TokenRun} {bytes rest : List Byte} (hs : s.tokenStream c = bytes ++ rest)
    (hb : c'.base = c.base) (hl : c'.len = c.len) (ht : c'.tp = c.tp + bytes.length) : s.tokenStream c' = rest := by
  have hdrop := congrArg (List.drop bytes.length) hs
  rw [List.drop_left, State.tokenStream, Memory.drop_readBytes] at hdrop
  rw [State.tokenStream, hb, hl, ht, ← hdrop]
  congr 1 <;> omega

/-- The working registers after the tokens `toks` (R236, R237). -/
def TokenRun.past (c : TokenRun) (toks : List Instr) : TokenRun :=
  { c with tp := c.tp + (toks.flatMap Instr.encode).length, op := c.op + tokensCount toks }

@[simp] theorem TokenRun.past_nil (c : TokenRun) : c.past [] = c := rfl

theorem TokenRun.past_cons (c : TokenRun) (i : Instr) (rest : List Instr) : c.past (i :: rest) = (c.past [i]).past rest := by
  simp [TokenRun.past, Nat.add_assoc]

/-- The state after the tokens `toks`, with working registers `c` before them: they are passed, and their bytes are in DISP. -/
def State.pastTokens (s : State) (c : TokenRun) (toks : List Instr) : State :=
  { s with disp := tokensStored toks c.op s.disp, work := .tokens (c.past toks) }

theorem State.pastTokens_cons (s : State) (c : TokenRun) (i : Instr) (rest : List Instr) :
    s.pastTokens c (i :: rest) = (s.pastTokens c [i]).pastTokens (c.past [i]) rest := by
  rw [State.pastTokens, TokenRun.past_cons]
  rfl

/-- A token other than K.END, whole and with room in the frame, is executed. -/
theorem execToken_run {s : State} {c : TokenRun} {i : Instr} (hw : s.work = .tokens c) (hc : c.complete s.frameBytes = false)
    (hf : i.format = .token c.grammar) (hne : i ≠ .kEnd) (htp : c.tp + i.byteLength ≤ c.len)
    (hop : c.op + tokenCount i ≤ s.frameBytes) : execToken i s = .next (s.pastTokens c [i]) := by
  have hpast : s.pastTokens c [i]
      = { s with disp := tokenStored i c.op s.disp }.advanceToken c i.byteLength (tokenCount i) := by
    simp [State.pastTokens, TokenRun.past, State.advanceToken, tokensStored, Instr.encode_length]
  have hrun : ∀ {g : Grammar} (body : TokenRun → Result), Format.token c.grammar = .token g → inTokens g s body = body c :=
    fun body hg => inTokens_run _ s c body hw (Format.token.inj hg) hc
  rw [hpast]
  cases i with
  | kEnd => exact absurd rfl hne
  | kLit data | dLit data => exact (hrun _ hf.symm).trans (storeToken_run htp hop)
  | kRun cnt v | dRun cnt v =>
    have hlen : (List.replicate cnt.toNat v).length = cnt.toNat := List.length_replicate
    refine (hrun _ hf.symm).trans ((storeToken_run htp (hlen.symm ▸ hop)).trans ?_)
    rw [hlen]
    rfl
  | kRun0 v | dRun0 | dLit0 => exact (hrun _ hf.symm).trans (passToken_run htp)
  | dSkip cnt => exact (hrun _ hf.symm).trans (skipToken_run htp hop)
  | _ => cases hf

theorem tokenTurn_run {s : State} {c : TokenRun} {i : Instr} {rest : List Byte} (hw : s.work = .tokens c)
    (hc : c.complete s.frameBytes = false) (hs : s.tokenStream c = i.encode ++ rest) (hwf : i.wellFormed = true)
    (hf : i.format = .token c.grammar) (hne : i ≠ .kEnd) (hop : c.op + tokenCount i ≤ s.frameBytes) :
    tokenTurn c s = .next (s.pastTokens c [i]) := by
  obtain ⟨tail, hfetch⟩ := fetchToken_of_stream hs hwf hf
  simp only [tokenTurn, hc, hfetch, Bool.false_eq_true, if_false]
  exact execToken_run hw hc hf hne (tp_le_of_stream hs) hop

/-! ### The loop over a chunk's tokens -/

/-- The tokens `toks` stand at `tp`, whole and well formed, before the bytes `tail`; the frame has room for them, and is not finished
before the last of them. -/
structure State.HasTokens (s : State) (c : TokenRun) (toks : List Instr) (tail : List Byte) : Prop where
  tokens : ∀ i ∈ toks, i.format = .token c.grammar ∧ i.wellFormed = true ∧ i ≠ .kEnd
  stream : s.tokenStream c = toks.flatMap Instr.encode ++ tail
  room : c.op + tokensCount toks ≤ s.frameBytes
  going : ∀ before i after, toks = before ++ i :: after → (c.past before).complete s.frameBytes = false

/-- The tokens after the first stand at `tp` once the first is passed. -/
theorem State.HasTokens.past {s : State} {c : TokenRun} {i : Instr} {rest : List Instr} {tail : List Byte}
    (h : s.HasTokens c (i :: rest) tail) : (s.pastTokens c [i]).HasTokens (c.past [i]) rest tail where
  tokens := fun j hj => h.tokens j (List.mem_cons_of_mem _ hj)
  stream := by
    have hs := h.stream
    rw [List.flatMap_cons, List.append_assoc] at hs
    exact tokenStream_past (c' := c.past [i]) hs rfl rfl (by simp [TokenRun.past])
  room := by
    have hroom := h.room
    rw [tokensCount_cons, ← Nat.add_assoc] at hroom
    exact hroom
  going := fun before j after hrest => by
    rw [← TokenRun.past_cons]
    exact h.going (i :: before) j after (by rw [hrest, List.cons_append])

/-- The loop executes the tokens that stand at `tp`, one a turn. -/
theorem runTokens_past (fuel : Nat) {s : State} {c : TokenRun} {toks : List Instr} {tail : List Byte} (hw : s.work = .tokens c)
    (h : s.HasTokens c toks tail) : runTokens (fuel + toks.length) s = runTokens fuel (s.pastTokens c toks) := by
  induction toks generalizing s c with
  | nil =>
    have hself : s.pastTokens c [] = s := by rw [State.pastTokens, TokenRun.past_nil, ← hw]; rfl
    rw [hself]
    rfl
  | cons i rest ih =>
    obtain ⟨hf, hwf, hne⟩ := h.tokens i (List.mem_cons_self ..)
    have hs := h.stream
    rw [List.flatMap_cons, List.append_assoc] at hs
    have hroom := h.room
    rw [tokensCount_cons] at hroom
    have hturn := tokenTurn_run hw (h.going [] i rest rfl) hs hwf hf hne (by omega)
    rw [List.length_cons, ← Nat.add_assoc, runTokens_succ _ _ _ c hw hturn, ih rfl h.past, ← State.pastTokens_cons]

theorem runTokens_complete (fuel : Nat) {s : State} {c : TokenRun} (hw : s.work = .tokens c)
    (hc : c.complete s.frameBytes = true) : runTokens (fuel + 1) s = .next (s.finishRecord c.size) := by
  have hturn : tokenTurn c s = .next (s.finishRecord c.size) := if_pos hc
  rw [runTokens_succ fuel s _ c hw hturn, runTokens_idle _ _ rfl]

/-- K.END takes one turn, and the next ends the record (R151, R152). -/
theorem runTokens_kEnd (fuel : Nat) {s : State} {c : TokenRun} {tail : List Byte} (hw : s.work = .tokens c) (hg : c.grammar = .key)
    (he : c.ended = false) (hs : s.tokenStream c = Instr.encode .kEnd ++ tail) :
    runTokens (fuel + 2) s = .next (s.finishRecord c.size) := by
  have hc : c.complete s.frameBytes = false := by simp only [TokenRun.complete, hg, he]
  obtain ⟨rest, hfetch⟩ := fetchToken_of_stream hs rfl (by rw [hg]; rfl)
  have hturn : tokenTurn c s = .next { s with work := .tokens { c with tp := c.tp + 1, ended := true } } := by
    simp only [tokenTurn, hc, hfetch, Bool.false_eq_true, if_false]
    exact (inTokens_run .key s c _ hw hg hc).trans (endToken_run (tp_le_of_stream hs))
  have hended : TokenRun.complete { c with tp := c.tp + 1, ended := true } s.frameBytes = true := by
    simp only [TokenRun.complete, hg]
  rw [runTokens_succ (fuel + 1) s _ c hw hturn]
  exact runTokens_complete (c := { c with tp := c.tp + 1, ended := true }) fuel rfl hended

/-! ### A whole chunk -/

/-- What ends the token stream of a frame (R145, R179). -/
def terminator (g : Grammar) : List Byte :=
  match g with
  | .key => Instr.encode .kEnd
  | .delta => []

/-- The tokens bring a chunk to the end of its frame: in the keyframe grammar K.END ends it wherever it stands within the frame, in the
delta grammar the last token does, by reaching `n` (R151, R186). -/
def FillsFrame (g : Grammar) (n : Nat) (toks : List Instr) : Prop :=
  match g with
  | .key => tokensCount toks ≤ n
  | .delta => tokensCount toks = n ∧ ∀ before i after, toks = before ++ i :: after → tokensCount before < n

/-- `bytes` is a token stream of grammar `g` that decodes as `toks` and then ends, in a frame of `n` bytes. -/
structure TokenStreamOf (g : Grammar) (n : Nat) (toks : List Instr) (bytes : List Byte) : Prop where
  tokens : ∀ i ∈ toks, i.format = .token g ∧ i.wellFormed = true ∧ i ≠ .kEnd
  fills : FillsFrame g n toks
  spelled : ∃ tail, bytes = toks.flatMap Instr.encode ++ (terminator g ++ tail)

theorem FillsFrame.count_le {g : Grammar} {n : Nat} {toks : List Instr} (h : FillsFrame g n toks) : tokensCount toks ≤ n := by
  cases g with
  | key => exact h
  | delta => exact Nat.le_of_eq h.1

/-- The frame is not finished before the last of the tokens. -/
theorem FillsFrame.going {c : TokenRun} {n : Nat} {toks : List Instr} (h : FillsFrame c.grammar n toks) (he : c.ended = false)
    (hop : c.op = 0) {before after : List Instr} {i : Instr} (ht : toks = before ++ i :: after) :
    (c.past before).complete n = false := by
  cases hg : c.grammar with
  | key => simp only [TokenRun.complete, TokenRun.past, hg, he]
  | delta =>
    rw [hg] at h
    have hlt := h.2 before i after ht
    simp only [TokenRun.complete, TokenRun.past, hg, hop, decide_eq_false_iff_not]
    omega

/-- With the tokens of a frame passed, the loop ends the record. -/
theorem runTokens_filled (fuel : Nat) {s : State} {c : TokenRun} {toks : List Instr} {tail : List Byte} (hw : s.work = .tokens c)
    (he : c.ended = false) (hop : c.op = tokensCount toks) (h : FillsFrame c.grammar s.frameBytes toks)
    (hs : s.tokenStream c = terminator c.grammar ++ tail) : runTokens (fuel + 2) s = .next (s.finishRecord c.size) := by
  cases hg : c.grammar with
  | key =>
    rw [hg] at hs
    exact runTokens_kEnd fuel hw hg he hs
  | delta =>
    rw [hg] at h
    exact runTokens_complete (fuel + 1) hw (by simp only [TokenRun.complete, hg, hop, h.1, Nat.le_refl, decide_true])

/-- The bytes of a chunk before its token stream (R80). -/
def chunkHeader (type : Byte) : Nat := if paletteBit type then 35 else 3

/-- The decoder's palette once the chunk at RP is opened (R227). -/
def State.chunkPalette (s : State) (type : Byte) : PackedPalette := if paletteBit type then s.paletteAt (s.rp + 3) else s.palDec

/-- The working registers at the first token of the chunk of `size` bytes at RP (R228). -/
def State.chunkRun (s : State) (g : Grammar) (size : Nat) (type : Byte) : TokenRun where
  grammar := g
  base := s.rp + chunkHeader type
  len := size - chunkHeader type
  tp := 0
  op := 0
  size := size
  ended := false

/-- The state in which the first token of the chunk at RP is about to be read. -/
def State.openedChunk (s : State) (g : Grammar) (size : Nat) (type : Byte) : State :=
  { s with palDec := s.chunkPalette type, work := .tokens (s.chunkRun g size type) }

/-- The state after a chunk of `size` bytes whose tokens are `toks`. -/
def State.decodedChunk (s : State) (size : Nat) (type : Byte) (toks : List Instr) : State :=
  { s with palDec := s.chunkPalette type, disp := tokensStored toks 0 s.disp }.finishRecord size

theorem three_le_chunkHeader (type : Byte) : 3 ≤ chunkHeader type := by
  unfold chunkHeader
  split <;> decide

theorem State.paletteAt_toList (s : State) (a : Nat) : (s.paletteAt a).toList = s.istream.readBytes a 32 := by
  apply List.ext_getElem
  · simp
  · intro i h1 h2
    simp [State.paletteAt, Memory.getElem_readBytes]

theorem State.chunkPalette_toList (s : State) {type : Byte} (h : paletteBit type = true) :
    (s.chunkPalette type).toList = s.istream.readBytes (s.rp + 3) 32 := by
  rw [State.chunkPalette, if_pos h, State.paletteAt_toList]

theorem State.chunkPalette_none (s : State) {type : Byte} (h : paletteBit type = false) : s.chunkPalette type = s.palDec := by
  rw [State.chunkPalette, h]
  rfl

section
variable {s : State} {size : Half} {type : Byte} (hin : s.rp + size.toNat ≤ s.ilen) (hheader : chunkHeader type ≤ size.toNat)
include hin hheader

theorem openChunk_run (g : Grammar) : s.openChunk g size type = .ok (s.openedChunk g size.toNat type) := by
  unfold chunkHeader at hheader
  unfold State.openChunk State.openedChunk State.chunkRun State.chunkPalette chunkHeader
  rw [if_neg (Nat.not_lt.mpr hin)]
  split at hheader
  · next hbit => simp only [hbit, if_true, if_neg (Nat.not_lt.mpr hheader)]; rfl
  · next hbit => simp only [hbit, Bool.false_eq_true, if_false]; rfl

/-- A chunk that lies inside ISTREAM, with a token stream that ends its frame, is decoded and its frame handed out (R226 to R229). -/
theorem execChunk_run {g : Grammar} {toks : List Instr} (hw : s.work = .record)
    (h : TokenStreamOf g s.frameBytes toks (s.istream.readBytes (s.rp + chunkHeader type) (size.toNat - chunkHeader type))) :
    execChunk g size type s = .next (s.decodedChunk size.toNat type toks) := by
  obtain ⟨htokens, hfills, tail, hbytes⟩ := h
  obtain ⟨fuel, hfuel⟩ : ∃ fuel, size.toNat + 1 = fuel + 2 + toks.length := by
    have hlen := congrArg List.length hbytes
    have htoks := length_le_encode_length toks
    have hthree := three_le_chunkHeader type
    rw [Memory.length_readBytes, List.length_append] at hlen
    exact ⟨size.toNat + 1 - (2 + toks.length), by omega⟩
  have hhas : (s.openedChunk g size.toNat type).HasTokens (s.chunkRun g size.toNat type) toks (terminator g ++ tail) :=
    { tokens := htokens
      stream := hbytes
      room := (Nat.zero_add _).trans_le hfills.count_le
      going := fun _ _ _ ht => FillsFrame.going (c := s.chunkRun g size.toNat type) hfills rfl rfl ht }
  calc execChunk g size type s
    _ = runTokens (size.toNat + 1) (s.openedChunk g size.toNat type) := by
      rw [execChunk, atRecord_run s _ hw, openChunk_run hin hheader]
    _ = runTokens (fuel + 2) ((s.openedChunk g size.toNat type).pastTokens (s.chunkRun g size.toNat type) toks) := by
      rw [hfuel]
      exact runTokens_past (fuel + 2) rfl hhas
    _ = .next (s.decodedChunk size.toNat type toks) :=
      runTokens_filled (c := (s.chunkRun g size.toNat type).past toks) fuel rfl rfl (Nat.zero_add _) hfills
        (tokenStream_past (c := s.chunkRun g size.toNat type) hbytes rfl rfl rfl)

end

/-- The frame that a decoded chunk leaves in DISP (R151, R186). -/
theorem decodedChunk_disp (s : State) (size : Nat) (type : Byte) {toks : List Instr} (h : tokensCount toks ≤ s.frameBytes) :
    (s.decodedChunk size type toks).disp.readBytes 0 s.frameBytes = expandTokens toks (s.disp.readBytes 0 s.frameBytes) :=
  tokensStored_readBytes toks 0 s.frameBytes s.disp h

/-- Settles O16: `toks` and K.END are the token stream, which the chunk decodes. -/
theorem chunkKeyRunsItsTokens : Obligations.ChunkKeyRunsItsTokens := by
  intro s size type toks tail hw hwf hin hpal htokens hroom hbytes
  simp only [Instr.wellFormed, Bool.and_eq_true, decide_eq_true_eq] at hwf
  obtain ⟨⟨hmin, -⟩, -⟩ := hwf
  have hheader : chunkHeader type ≤ size.toNat := by
    unfold chunkHeader
    split
    · next hbit => exact hpal hbit
    · exact hmin
  have hrun := execChunk_run (toks := toks) hin hheader hw ⟨htokens, hroom, tail, hbytes⟩
  exact ⟨_, hrun, decodedChunk_disp s _ type hroom, fun a ha => tokensStored_read_outside toks 0 s.disp (.inr (by omega)),
    s.chunkPalette_toList, s.chunkPalette_none, rfl⟩

end Sys2Proof.Machine

namespace Sys2Proof.Machine

/-! ### DEC_CHUNK writes inside the frame -/

/-- DEC_CHUNK and what it is made of keep every byte of DISP at or past `n`, the frame's size. -/
theorem dispPast_decoderClosed (n : Nat) (m : Memory) :
    DecoderClosed fun t => t.frameBytes = n ∧ ∀ a, n ≤ a → t.disp.read a = m.read a where
  work := fun _ _ h => h
  palette := fun _ _ h => h
  store := fun s a bytes hfit h => by
    obtain ⟨hn, hdisp⟩ := h
    exact ⟨hn, fun x hx => (Memory.read_writeBytes_outside s.disp a x bytes (.inr (by omega))).trans (hdisp x hx)⟩
  endStream := fun _ _ h => h
  handedOut := fun _ _ _ h => h
  faulted := fun _ _ h => h

/-- Settles O23: every store of a token passed the room test. -/
theorem decChunkWritesInsideTheFrame : Obligations.DecChunkWritesInsideTheFrame := by
  intro s t h
  obtain ⟨-, hdisp⟩ := (dispPast_decoderClosed s.frameBytes s.disp).exec_decChunk ⟨rfl, fun _ _ => rfl⟩ h
  exact hdisp

/-! ### DEC_CHUNK reads only the stream ahead

DEC_CHUNK commutes with the exchange of ISTREAM for a store that agrees with it from RP on and below ILEN. -/

/-- `s` with the input stream store `m` (R32). -/
def State.withIstream (s : State) (m : Memory) : State := { s with istream := m }

/-- `m` agrees with ISTREAM from RP on and below ILEN, and a token stream in progress lies there (R223, R226). -/
structure State.AgreesAhead (s : State) (m : Memory) : Prop where
  bytes : ∀ a, s.rp ≤ a → a < s.ilen → m.read a = s.istream.read a
  tokens : ∀ c, s.work = .tokens c → ∀ a, c.base ≤ a → a < c.base + c.len → s.rp ≤ a ∧ a < s.ilen

/-- Between two commands, and at a record, no token stream is in progress. -/
theorem State.AgreesAhead.of_noTokens {s : State} {m : Memory} (hb : ∀ a, s.rp ≤ a → a < s.ilen → m.read a = s.istream.read a)
    (hw : ∀ c, s.work ≠ .tokens c) : s.AgreesAhead m :=
  ⟨hb, fun c hc => absurd hc (hw c)⟩

/-- The end of a command leaves the stream ahead, or moves RP on in it. -/
theorem State.AgreesAhead.ended {s t : State} {m : Memory} (h : s.AgreesAhead m) (hrp : s.rp ≤ t.rp) (hilen : t.ilen = s.ilen)
    (histream : t.istream = s.istream) (hw : t.work = .idle) : t.AgreesAhead m := by
  refine .of_noTokens (fun a ha hlt => ?_) (by simp [hw])
  rw [histream]
  exact h.bytes a (hrp.trans ha) (hilen ▸ hlt)

theorem State.AgreesAhead.withPalDec {s : State} {m : Memory} (h : s.AgreesAhead m) (p : PackedPalette) :
    State.AgreesAhead { s with palDec := p } m :=
  ⟨h.bytes, h.tokens⟩

/-- A token stream that is empty or inside the stream ahead. -/
theorem State.AgreesAhead.startTokens {s : State} {m : Memory} (h : s.AgreesAhead m) (g : Grammar) {base len : Nat} (size : Nat)
    (hbase : s.rp ≤ base) (hend : 0 < len → base + len ≤ s.ilen) : (s.startTokens g base len size).AgreesAhead m := by
  refine ⟨h.bytes, fun c hc a hlo hhi => ?_⟩
  obtain rfl := Work.tokens.inj hc
  simp only [State.startTokens_rp, State.startTokens_ilen] at hlo hhi ⊢
  omega

section
variable (m : Memory)

theorem passToken_withIstream (s : State) (c : TokenRun) (len : Nat) :
    passToken (s.withIstream m) c len = mapNext (·.withIstream m) (passToken s c len) := by
  unfold passToken
  split <;> rfl

theorem endToken_withIstream (s : State) (c : TokenRun) (len : Nat) :
    endToken (s.withIstream m) c len = mapNext (·.withIstream m) (endToken s c len) := by
  unfold endToken
  split <;> rfl

theorem storeToken_withIstream (s : State) (c : TokenRun) (len : Nat) (bytes : List Byte) :
    storeToken (s.withIstream m) c len bytes = mapNext (·.withIstream m) (storeToken s c len bytes) := by
  have hn : (s.withIstream m).frameBytes = s.frameBytes := rfl
  unfold storeToken
  rw [hn]
  split
  · rfl
  · split <;> rfl

theorem skipToken_withIstream (s : State) (c : TokenRun) (len cnt : Nat) :
    skipToken (s.withIstream m) c len cnt = mapNext (·.withIstream m) (skipToken s c len cnt) := by
  have hn : (s.withIstream m).frameBytes = s.frameBytes := rfl
  unfold skipToken
  rw [hn]
  split
  · rfl
  · split <;> rfl

theorem inTokens_withIstream (g : Grammar) (s : State) {body body' : TokenRun → Result}
    (hb : ∀ c, body' c = mapNext (·.withIstream m) (body c)) :
    inTokens g (s.withIstream m) body' = mapNext (·.withIstream m) (inTokens g s body) := by
  have hw : (s.withIstream m).work = s.work := rfl
  have hn : (s.withIstream m).frameBytes = s.frameBytes := rfl
  unfold inTokens
  rw [hw, hn]
  split
  · split
    · exact hb _
    · rfl
  · rfl
  · rfl

/-- A token acts on its operands alone, once it is decoded. -/
theorem execToken_withIstream (i : Instr) (s : State) :
    execToken i (s.withIstream m) = mapNext (·.withIstream m) (execToken i s) := by
  cases i with
  | kEnd => exact inTokens_withIstream m _ s fun c => endToken_withIstream m s c _
  | kRun0 _ | dRun0 | dLit0 => exact inTokens_withIstream m _ s fun c => passToken_withIstream m s c _
  | kLit _ | kRun _ _ | dRun _ _ | dLit _ => exact inTokens_withIstream m _ s fun c => storeToken_withIstream m s c _ _
  | dSkip _ => exact inTokens_withIstream m _ s fun c => skipToken_withIstream m s c _ _
  | _ => rfl

end

section
variable {s : State} {m : Memory} (h : s.AgreesAhead m)
include h

theorem fetchToken_withIstream {c : TokenRun} (hw : s.work = .tokens c) : (s.withIstream m).fetchToken c = s.fetchToken c := by
  have hbytes : (s.withIstream m).tokenStream c = s.tokenStream c :=
    Memory.readBytes_congr _ _ _ _ fun i hi => by
      obtain ⟨hlo, hhi⟩ := h.tokens c hw (c.base + c.tp + i) (by omega) (by omega)
      exact h.bytes _ hlo hhi
  rw [State.fetchToken, State.fetchToken, State.tokenWindow_eq_take, State.tokenWindow_eq_take, hbytes]

theorem tokenTurn_withIstream {c : TokenRun} (hw : s.work = .tokens c) :
    tokenTurn c (s.withIstream m) = mapNext (·.withIstream m) (tokenTurn c s) := by
  have hn : (s.withIstream m).frameBytes = s.frameBytes := rfl
  unfold tokenTurn
  rw [hn, fetchToken_withIstream h hw]
  split
  · rfl
  · split
    · exact execToken_withIstream m _ s
    · rfl

/-- A turn of the loop leaves RP, or moves it on, and the token stream in progress, or ends it. -/
theorem tokenTurn_agreesAhead {c : TokenRun} {t : State} (hw : s.work = .tokens c) (ht : tokenTurn c s = .next t) :
    t.AgreesAhead m := by
  rcases tokenTurn_cases hw ht with ⟨-, rfl⟩ | ⟨-, rfl | rfl | ⟨d, _, rfl, -, hbase, hlen, -⟩⟩
  · exact h.ended (by simp) (State.finishRecord_ilen _ _) (State.finishRecord_istream _ _) (State.finishRecord_work _ _)
  · exact h.ended (Nat.le_refl _) rfl rfl rfl
  · exact h.ended (Nat.le_refl _) rfl rfl rfl
  · refine ⟨h.bytes, fun c' hc' => ?_⟩
    obtain rfl : d = c' := Work.tokens.inj hc'
    rw [hbase, hlen]
    exact h.tokens c hw

end

theorem runTokens_withIstream {m : Memory} (fuel : Nat) {s : State} (h : s.AgreesAhead m) :
    runTokens fuel (s.withIstream m) = mapNext (·.withIstream m) (runTokens fuel s) := by
  have hwork : (s.withIstream m).work = s.work := rfl
  induction fuel generalizing s with
  | zero =>
    unfold runTokens
    rw [hwork]
    split <;> rfl
  | succ fuel ih =>
    cases hw : s.work with
    | tokens c =>
      obtain ⟨t, ht⟩ := tokenTurn_next hw
      have ht' : tokenTurn c (s.withIstream m) = .next (t.withIstream m) := by rw [tokenTurn_withIstream h hw, ht, mapNext_next]
      rw [runTokens_succ fuel _ _ c (hwork.trans hw) ht', runTokens_succ fuel _ _ c hw ht]
      exact ih (tokenTurn_agreesAhead h hw ht) rfl
    | idle | record => simp only [runTokens, hwork, hw, mapNext_next]

theorem atRecord_withIstream (s : State) (m : Memory) {body body' : Result} (hb : body' = mapNext (·.withIstream m) body) :
    atRecord (s.withIstream m) body' = mapNext (·.withIstream m) (atRecord s body) := by
  have hw : (s.withIstream m).work = s.work := rfl
  unfold atRecord
  rw [hw]
  split
  · exact hb
  · rfl
  · rfl

section
variable {s : State} {m : Memory} (h : s.AgreesAhead m)
include h

theorem paletteAt_withIstream {a : Nat} (hlo : s.rp ≤ a) (hhi : a + 32 ≤ s.ilen) : (s.withIstream m).paletteAt a = s.paletteAt a :=
  Vector.ext fun i hi => by simpa [State.paletteAt, State.withIstream] using h.bytes (a + i) (by omega) (by omega)

theorem openChunk_withIstream (g : Grammar) (size : Half) (type : Byte) :
    (s.withIstream m).openChunk g size type = (s.openChunk g size type).map (·.withIstream m) := by
  have hrp : (s.withIstream m).rp = s.rp := rfl
  have hilen : (s.withIstream m).ilen = s.ilen := rfl
  unfold State.openChunk
  rw [hrp, hilen]
  split
  · rfl
  split
  · split
    · rfl
    · rw [paletteAt_withIstream h (by omega) (by omega)]
      rfl
  · rfl

/-- The token stream of a chunk lies inside the chunk (R80, R228). -/
theorem openChunk_agreesAhead {g : Grammar} {size : Half} {type : Byte} {t : State} (ho : s.openChunk g size type = .ok t) :
    t.AgreesAhead m := by
  rcases openChunk_cases s g size type with ⟨-, he⟩ | ⟨-, -, -, he⟩ | ⟨hin, -, hsize, he⟩ | ⟨hin, -, he⟩ <;> rw [he] at ho
  · cases ho
  · cases ho
  · rw [← Except.ok.inj ho]
    exact (h.withPalDec _).startTokens g _ (Nat.le_add_right _ _) fun _ => (by omega : s.rp + 35 + (size.toNat - 35) ≤ s.ilen)
  · rw [← Except.ok.inj ho]
    exact h.startTokens g _ (Nat.le_add_right _ _) fun _ => by omega

theorem execChunk_withIstream (g : Grammar) (size : Half) (type : Byte) :
    execChunk g size type (s.withIstream m) = mapNext (·.withIstream m) (execChunk g size type s) := by
  refine atRecord_withIstream s m ?_
  rw [openChunk_withIstream h]
  cases ho : s.openChunk g size type with
  | error c => rfl
  | ok t => exact runTokens_withIstream _ (openChunk_agreesAhead h ho)

theorem execRecord_withIstream (i : Instr) :
    execRecord i (s.withIstream m) = mapNext (·.withIstream m) (execRecord i s) := by
  cases i with
  | endStream size => exact atRecord_withIstream s m rfl
  | chunkShort size =>
    have hp : (s.withIstream m).params = s.params := rfl
    refine atRecord_withIstream s m ?_
    rw [hp]
    split <;> rfl
  | chunkKey size type => exact execChunk_withIstream h .key size type
  | chunkDelta size type => exact execChunk_withIstream h .delta size type
  | _ => rfl

theorem recordTurn_withIstream : recordTurn (s.withIstream m) = mapNext (·.withIstream m) (recordTurn s) := by
  have hwindow : (s.withIstream m).recordWindow = s.recordWindow :=
    Memory.readBytes_congr _ _ _ _ fun i hi => by
      have hi' : i < min (s.ilen - s.rp) 3 := hi
      exact h.bytes (s.rp + i) (by omega) (by omega)
  unfold recordTurn State.fetchRecord
  rw [hwindow]
  split
  · exact execRecord_withIstream h _
  · rfl

end

theorem exec_decChunk_withIstream {s : State} {m : Memory} (h : ∀ a, s.rp ≤ a → a < s.ilen → m.read a = s.istream.read a) :
    exec .decChunk (s.withIstream m) = mapNext (·.withIstream m) (exec .decChunk s) := by
  have heos : (s.withIstream m).eos = s.eos := rfl
  rw [exec_decChunk, exec_decChunk]
  refine command_mapNext (f := (·.withIstream m)) (s := s) rfl rfl ?_
  simp only [heos]
  split
  · rfl
  · exact recordTurn_withIstream (s := { s with work := .record }) (.of_noTokens h (by simp))

/-- Settles O24. -/
theorem decChunkReadsOnlyTheStreamAhead : Obligations.DecChunkReadsOnlyTheStreamAhead := by
  intro s t m hm h
  refine (exec_decChunk_withIstream hm).trans ?_
  rw [h, mapNext_next]
  rfl

end Sys2Proof.Machine

namespace Sys2Proof.Machine

/-! ### What the encoders write, token by token -/

/-- The token `i`, of the kind `P`, makes the first bytes of `cur` from those of `old`, and makes at least one. -/
structure Covers (P : Instr → Prop) (i : Instr) (old cur : List Byte) : Prop where
  kind : P i
  pos : 1 ≤ tokenCount i
  fits : tokenCount i ≤ cur.length
  output : tokenOutput i old = cur.take (tokenCount i)

/-- The tokens, all of the kind `P`, turn the bytes `old` into `cur`, one after the other. -/
inductive Turns (P : Instr → Prop) : List Instr → List Byte → List Byte → Prop where
  | nil (old : List Byte) : Turns P [] old []
  | cons {i : Instr} {rest : List Instr} {old cur : List Byte} (head : Covers P i old cur)
      (tail : Turns P rest (old.drop (tokenCount i)) (cur.drop (tokenCount i))) : Turns P (i :: rest) old cur

namespace Turns

variable {P : Instr → Prop} {toks : List Instr} {old cur : List Byte}

theorem kind (h : Turns P toks old cur) : ∀ i ∈ toks, P i := by
  induction h with
  | nil => simp
  | cons head _ ih => exact List.forall_mem_cons.mpr ⟨head.kind, ih⟩

theorem count (h : Turns P toks old cur) : tokensCount toks = cur.length := by
  induction h with
  | nil => rfl
  | cons head _ ih =>
    have hfits := head.fits
    rw [tokensCount_cons, ih, List.length_drop]
    omega

/-- Where the tokens end, the old bytes stay. -/
theorem expand (h : Turns P toks old cur) : expandTokens toks old = cur ++ old.drop cur.length := by
  induction h with
  | nil => rfl
  | @cons i rest old cur head _ ih =>
    have hfits := head.fits
    rw [expandTokens_cons, ih, head.output, ← List.append_assoc, List.take_append_drop, List.length_drop, List.drop_drop,
      Nat.add_sub_cancel' hfits]

theorem expand_of_length (h : Turns P toks old cur) (hlen : old.length = cur.length) : expandTokens toks old = cur := by
  rw [h.expand, List.drop_eq_nil_of_le hlen.le, List.append_nil]

/-- Before the last token the frame is not finished, since every token covers a byte (R193). -/
theorem count_before_lt (h : Turns P toks old cur) {before after : List Instr} {i : Instr} (ht : toks = before ++ i :: after) :
    tokensCount before < cur.length := by
  induction h generalizing before with
  | nil => simp at ht
  | cons head _ ih =>
    have hpos := head.pos
    have hfits := head.fits
    cases before with
    | nil =>
      rw [tokensCount_nil]
      omega
    | cons j before =>
      rw [List.cons_append] at ht
      obtain ⟨rfl, hrest⟩ := List.cons.inj ht
      have hlt := ih hrest
      rw [List.length_drop] at hlt
      rw [tokensCount_cons]
      omega

end Turns

/-! ### The tokens of the keyframe encoder (R142 to R148) -/

/-- The tokens KeyEncode writes before the terminator (R148). -/
def KeyToken (i : Instr) : Prop := i.wellFormed = true ∧ ((∃ data, i = .kLit data) ∨ ∃ cnt v, i = .kRun cnt v ∧ 3 ≤ cnt)

theorem keyLiteral_covers {n : Nat} {cur : List Byte} (old : List Byte) (hpos : 1 ≤ n) (hmax : n ≤ 127) (hfits : n ≤ cur.length) :
    Covers KeyToken (.kLit (cur.take n)) old cur := by
  have hlen : (cur.take n).length = n := List.length_take_of_le hfits
  have hcount : tokenCount (.kLit (cur.take n)) = n := hlen
  exact
    { kind := ⟨by simp [Instr.wellFormed, hlen, hpos, hmax], .inl ⟨_, rfl⟩⟩
      pos := hpos.trans_eq hcount.symm
      fits := hcount.trans_le hfits
      output := by rw [hcount]; rfl }

theorem keyRun_covers {n : Nat} {v : Byte} {cur : List Byte} (old : List Byte) (hmin : 3 ≤ n) (hmax : n ≤ 127)
    (hfits : n ≤ cur.length) (hrun : cur.take n = List.replicate n v) :
    Covers KeyToken (.kRun (BitVec.ofNat 7 n) v) old cur := by
  have hcount : (BitVec.ofNat 7 n).toNat = n := by
    rw [BitVec.toNat_ofNat]
    omega
  have hle : (3 : BitVec 7) ≤ BitVec.ofNat 7 n := by
    rw [BitVec.le_def, hcount]
    exact hmin
  exact
    { kind := ⟨bne_iff_ne.mpr fun hzero => by rw [hzero] at hle; exact absurd hle (by decide), .inr ⟨_, _, rfl, hle⟩⟩
      pos := by rw [tokenCount, hcount]; omega
      fits := hcount.trans_le hfits
      output := by rw [tokenCount, tokenOutput, hcount, hrun] }

/-- Fuel for one token a byte is enough (R147). -/
theorem keyTokens_turns (fuel : Nat) (old cur : List Byte) (hfuel : cur.length ≤ fuel) :
    Turns KeyToken (keyTokens fuel cur) old cur := by
  induction fuel generalizing old cur with
  | zero =>
    obtain rfl := List.length_eq_zero_iff.mp (Nat.le_zero.mp hfuel)
    exact .nil old
  | succ fuel ih =>
    match cur with
    | [] => exact .nil old
    | [x] => exact .cons (keyLiteral_covers (n := 1) (cur := [x]) old (by decide) (by decide) (Nat.le_refl 1)) (.nil _)
    | [x, y] => exact .cons (keyLiteral_covers (n := 2) (cur := [x, y]) old (by decide) (by decide) (Nat.le_refl 2)) (.nil _)
    | x :: y :: z :: t =>
      have head_next : ∀ {i : Instr} {n : Nat}, tokenCount i = n → Covers KeyToken i old (x :: y :: z :: t) →
          Turns KeyToken (i :: keyTokens fuel ((x :: y :: z :: t).drop n)) old (x :: y :: z :: t) := by
        rintro i _ rfl head
        have hpos := head.pos
        refine .cons head (ih _ _ ?_)
        rw [List.length_drop]
        omega
      simp only [keyTokens]
      split
      next hstart =>
        obtain ⟨hmax, hfits⟩ := runLength_le Config.keyRunMax x (x :: y :: z :: t)
        have hmin := three_le_runLength Config.keyRunMax x y z t hstart (by decide)
        have hcount : (BitVec.ofNat 7 (runLength Config.keyRunMax x (x :: y :: z :: t))).toNat = _ :=
          Nat.mod_eq_of_lt (Nat.lt_succ_of_le hmax)
        exact head_next hcount (keyRun_covers old hmin hmax hfits (runLength_take _ _ _))
      next =>
        obtain ⟨hmax, hlen⟩ := keyLiteralScan_le (Config.keyLitMax - 1) (y :: z :: t)
        have hmax' : 1 + keyLiteralScan (Config.keyLitMax - 1) (y :: z :: t) ≤ 127 := Nat.add_comm _ _ ▸ Nat.succ_le_succ hmax
        have hfits : 1 + keyLiteralScan (Config.keyLitMax - 1) (y :: z :: t) ≤ (x :: y :: z :: t).length :=
          Nat.add_comm _ _ ▸ Nat.succ_le_succ hlen
        exact head_next (List.length_take_of_le hfits) (keyLiteral_covers old (Nat.le_add_right _ _) hmax' hfits)

/-- Settles O48. -/
theorem keyEncodeShape : Obligations.KeyEncodeShape := by
  intro frame
  have hturns := fun old => keyTokens_turns frame.length old frame (Nat.le_refl _)
  exact ⟨keyTokens frame.length frame, rfl, (hturns []).kind, (hturns []).count, fun old hold => (hturns old).expand_of_length hold,
    keyEncode_length_le frame⟩

/-- The keyframe encoder's bytes are a token stream that ends its frame (R145, R158). -/
theorem keyEncode_tokenStream {frame : List Byte} {n : Nat} (hn : frame.length = n) :
    TokenStreamOf .key n (keyTokens frame.length frame) (keyEncode frame) := by
  have hturns := keyTokens_turns frame.length [] frame (Nat.le_refl _)
  refine ⟨fun i hi => ?_, (hturns.count.trans hn).le, [], by rw [List.append_nil]; rfl⟩
  obtain ⟨hwf, ⟨data, rfl⟩ | ⟨cnt, v, rfl, -⟩⟩ := hturns.kind i hi
  · exact ⟨rfl, hwf, by simp⟩
  · exact ⟨rfl, hwf, by simp⟩

/-! ### A frame of one value -/

theorem runLength_replicate (cap : Nat) (v : Byte) (n : Nat) : runLength cap v (List.replicate n v) = min cap n := by
  induction cap generalizing n with
  | zero => simp [runLength]
  | succ cap ih =>
    cases n with
    | zero => simp [runLength]
    | succ n =>
      rw [List.replicate_succ, runLength, if_pos rfl, ih]
      omega

/-- Three or more equal bytes are encoded as a run first. -/
theorem keyTokens_replicate_run (fuel : Nat) {n : Nat} (v : Byte) (h : 3 ≤ n) :
    keyTokens (fuel + 1) (List.replicate n v)
      = .kRun (BitVec.ofNat 7 (min 127 n)) v :: keyTokens fuel (List.replicate (n - 127) v) := by
  obtain ⟨k, rfl⟩ := Nat.exists_eq_add_of_le' h
  have hrun : runLength Config.keyRunMax v (List.replicate (k + 3) v) = min 127 (k + 3) := runLength_replicate _ _ _
  have hdrop : k + 3 - min 127 (k + 3) = k + 3 - 127 := by omega
  have hstep : keyTokens (fuel + 1) (List.replicate (k + 3) v)
      = .kRun (BitVec.ofNat 7 (runLength Config.keyRunMax v (List.replicate (k + 3) v))) v
        :: keyTokens fuel ((List.replicate (k + 3) v).drop (runLength Config.keyRunMax v (List.replicate (k + 3) v))) := by
    simp only [List.replicate_succ, keyTokens, startsRun, decide_true, Bool.and_self, if_true]
  rw [hstep, hrun, List.drop_replicate, hdrop]

/-- The tokens of fewer than 127 equal bytes. -/
def uniformTail (n : Nat) (v : Byte) : List Instr :=
  if n = 0 then [] else if n < 3 then [.kLit (List.replicate n v)] else [.kRun (BitVec.ofNat 7 n) v]

theorem keyTokens_replicate_tail (fuel : Nat) {n : Nat} (v : Byte) (hfuel : n ≤ fuel) (h : n < 127) :
    keyTokens fuel (List.replicate n v) = uniformTail n v := by
  match fuel, n with
  | 0, 0 => rfl
  | _ + 1, 0 => rfl
  | _ + 1, 1 => rfl
  | _ + 1, 2 => rfl
  | fuel + 1, n + 3 =>
    rw [keyTokens_replicate_run fuel v (by omega), Nat.min_eq_right h.le, Nat.sub_eq_zero_of_le h.le]
    have hnil : keyTokens fuel (List.replicate 0 v) = [] := by cases fuel <;> rfl
    rw [hnil, uniformTail, if_neg (by omega), if_neg (by omega)]

/-- Whole runs of 127, then what is left. -/
theorem keyTokens_replicate (q : Nat) {fuel r : Nat} (v : Byte) (hfuel : 127 * q + r ≤ fuel) (hr : r < 127) :
    keyTokens fuel (List.replicate (127 * q + r) v) = List.replicate q (.kRun 127 v) ++ uniformTail r v := by
  induction q generalizing fuel with
  | zero =>
    rw [Nat.mul_zero, Nat.zero_add] at hfuel ⊢
    exact keyTokens_replicate_tail fuel v hfuel hr
  | succ q ih =>
    obtain ⟨fuel, rfl⟩ := Nat.exists_eq_add_of_le' (show 1 ≤ fuel by omega)
    have hrest : 127 * (q + 1) + r - 127 = 127 * q + r := by omega
    rw [keyTokens_replicate_run fuel v (by omega), hrest, ih (by omega), Nat.min_eq_left (by omega)]
    rfl

theorem encode_kRun_ofNat {n : Nat} (v : Byte) (h : n ≤ 127) :
    Instr.encode (.kRun (BitVec.ofNat 7 n) v) = [BitVec.ofNat 8 (128 + n), v] := by
  have hbyte : controlByte 1 (BitVec.ofNat 7 n) = BitVec.ofNat 8 (128 + n) := by
    apply BitVec.eq_of_toNat_eq
    have hlow : (BitVec.ofNat 7 n).toNat = n := Nat.mod_eq_of_lt (Nat.lt_succ_of_le h)
    rw [controlByte, BitVec.toNat_append, hlow, ← Nat.shiftLeft_add_eq_or_of_lt (Nat.lt_succ_of_le h), BitVec.toNat_ofNat,
      Nat.shiftLeft_eq]
    change 1 * 2 ^ 7 + n = _
    omega
  rw [Instr.encode, hbyte]

theorem uniformTail_encode {n : Nat} (v : Byte) (h : n < 127) :
    (uniformTail n v).flatMap Instr.encode
      = if n = 0 then [] else if n < 3 then BitVec.ofNat 8 n :: List.replicate n v else [BitVec.ofNat 8 (128 + n), v] := by
  unfold uniformTail
  split
  · rfl
  split
  · rw [List.flatMap_singleton, Instr.encode, List.length_replicate, controlByte_zero_ofNat h.le]
  · rw [List.flatMap_singleton, encode_kRun_ofNat v h.le]

/-- Settles O52: the frame's length is a number of whole runs and a rest. -/
theorem uniformFrameEncodesToRuns : Obligations.UniformFrameEncodesToRuns := by
  intro n v
  have htokens : keyTokens n (List.replicate n v) = List.replicate (n / 127) (.kRun 127 v) ++ uniformTail (n % 127) v := by
    have h := keyTokens_replicate (n / 127) (fuel := n) v (Nat.div_add_mod n 127).le (Nat.mod_lt n (by decide))
    rwa [Nat.div_add_mod] at h
  rw [keyEncode, List.length_replicate, htokens, List.flatMap_append, uniformTail_encode v (Nat.mod_lt n (by decide)),
    List.flatMap_replicate]
  rfl

end Sys2Proof.Machine

namespace Sys2Proof.Machine

/-! ### A chunk at RP -/

/-- The size field of a chunk with this palette and this token stream (R81). -/
def chunkSize (pal tokens : List Byte) : Nat := 3 + pal.length + tokens.length

/-- At RP stands, inside ISTREAM, a whole chunk with this type byte, palette and token stream (R80, R226). -/
structure State.ChunkAt (s : State) (type : Byte) (pal tokens : List Byte) : Prop where
  palette : pal.length = if paletteBit type then 32 else 0
  small : chunkSize pal tokens < 0xFF00
  inside : s.rp + chunkSize pal tokens ≤ s.ilen
  bytes : s.istream.readBytes s.rp (chunkSize pal tokens)
    = le16 (BitVec.ofNat 16 (chunkSize pal tokens)) ++ type :: (pal ++ tokens)

/-- The grammar of a chunk (R87). -/
def chunkGrammar (type : Byte) : Grammar := if type.getLsbD 6 then .key else .delta

namespace State.ChunkAt

variable {s : State} {type : Byte} {pal tokens : List Byte}

theorem size_toNat (h : s.ChunkAt type pal tokens) :
    (BitVec.ofNat 16 (chunkSize pal tokens)).toNat = chunkSize pal tokens :=
  Nat.mod_eq_of_lt (h.small.trans (by decide))

theorem header_eq (h : s.ChunkAt type pal tokens) : chunkHeader type = 3 + pal.length := by
  rw [chunkHeader, h.palette]
  split <;> rfl

theorem header_le (h : s.ChunkAt type pal tokens) : chunkHeader type ≤ chunkSize pal tokens := by
  rw [h.header_eq]
  exact Nat.le_add_right _ _

/-- The parts of the chunk, each at its offset. -/
theorem parts (h : s.ChunkAt type pal tokens) :
    s.istream.readBytes s.rp 3 = le16 (BitVec.ofNat 16 (chunkSize pal tokens)) ++ [type]
      ∧ s.istream.readBytes (s.rp + 3) pal.length = pal
      ∧ s.istream.readBytes (s.rp + chunkHeader type) (chunkSize pal tokens - chunkHeader type) = tokens := by
  have hsize : chunkSize pal tokens - chunkHeader type = tokens.length := by
    rw [h.header_eq, chunkSize]
    exact Nat.add_sub_cancel_left _ _
  have hbytes := h.bytes
  rw [List.append_cons, ← List.append_assoc] at hbytes
  rw [hsize, h.header_eq]
  rw [chunkSize, Memory.readBytes_add, Memory.readBytes_add] at hbytes
  obtain ⟨hfront, htokens⟩ := List.append_inj hbytes (by simp; omega)
  obtain ⟨hhead, hpal⟩ := List.append_inj hfront (by simp)
  exact ⟨hhead, hpal, Nat.add_assoc _ _ _ ▸ htokens⟩

/-- The record at RP is the header of the chunk, of the grammar its type byte names. -/
theorem recordTurn_eq (h : s.ChunkAt type pal tokens) :
    recordTurn s = execChunk (chunkGrammar type) (BitVec.ofNat 16 (chunkSize pal tokens)) type s := by
  obtain ⟨hhead, -, -⟩ := h.parts
  have hheader := h.header_le
  have hthree := three_le_chunkHeader type
  have hinside := h.inside
  have hmin : Config.minChunk ≤ BitVec.ofNat 16 (chunkSize pal tokens) := by
    rw [BitVec.le_def, h.size_toNat]
    exact hthree.trans hheader
  have hmax : BitVec.ofNat 16 (chunkSize pal tokens) < Config.sentinelMin := by
    rw [BitVec.lt_def, h.size_toNat]
    exact h.small
  have hwindow : s.recordWindow = le16 (BitVec.ofNat 16 (chunkSize pal tokens)) ++ [type] := by
    rw [State.recordWindow, Nat.min_eq_right (by omega), hhead]
  have hfetch : s.fetchRecord = decodeRecord (le16 (BitVec.ofNat 16 (chunkSize pal tokens)) ++ [type]) :=
    congrArg decodeRecord hwindow
  cases htype : type.getLsbD 6 with
  | true =>
    rw [decodeRecord_chunkKey hmin hmax htype] at hfetch
    simp only [recordTurn, hfetch, chunkGrammar, htype, if_true]
    rfl
  | false =>
    rw [decodeRecord_chunkDelta hmin hmax htype] at hfetch
    simp only [recordTurn, hfetch, chunkGrammar, htype, Bool.false_eq_true, if_false]
    rfl

/-- DEC_CHUNK decodes the chunk at RP (R221, R226 to R229). -/
theorem exec_decChunk (h : s.ChunkAt type pal tokens) (hw : s.work = .idle) (hf : s.fault = false) (he : s.eos = false)
    {toks : List Instr} (hstream : TokenStreamOf (chunkGrammar type) s.frameBytes toks tokens) :
    exec .decChunk s = .next (s.decodedChunk (chunkSize pal tokens) type toks) := by
  obtain ⟨-, -, htokens⟩ := h.parts
  have hsize := h.size_toNat
  have hat : State.ChunkAt { s with work := .record } type pal tokens := ⟨h.palette, h.small, h.inside, h.bytes⟩
  rw [exec_decChunk_run hw hf he, hat.recordTurn_eq]
  refine (execChunk_run (s := { s with work := .record }) (toks := toks) ?_ ?_ rfl ?_).trans ?_
  · rw [hsize]
    exact h.inside
  · rw [hsize]
    exact h.header_le
  · rw [hsize]
    exact htokens.symm ▸ hstream
  · rw [hsize]
    rfl

/-- The palette of the chunk, if it has one, is the decoder's (R227). -/
theorem chunkPalette_toList (h : s.ChunkAt type pal tokens) (hbit : paletteBit type = true) :
    (s.chunkPalette type).toList = pal := by
  obtain ⟨-, hpal, -⟩ := h.parts
  have hlen := h.palette
  rw [if_pos hbit] at hlen
  rw [State.chunkPalette_toList s hbit, ← hlen, hpal]

end State.ChunkAt

/-- Settles O53: KeyEncode's bytes are a token stream that turns any frame into this one. -/
theorem keyframeRoundTrip : Obligations.KeyframeRoundTrip := by
  intro s type pal frame hw hf he htype hframe hpal ⟨hinside, hbytes⟩
  have hat : s.ChunkAt type pal (keyEncode frame) :=
    { palette := hpal
      small := by
        have hlen := keyEncode_length_le frame
        have hsmall := s.params.frame.small
        have hpal' : pal.length ≤ 32 := by rw [hpal]; split <;> decide
        have hn : frame.length = s.params.frame.bytes := hframe
        rw [chunkSize]
        omega
      inside := hinside
      bytes := hbytes.trans (by simp [chunkSize]) }
  have hgrammar : chunkGrammar type = .key := if_pos htype
  have hstream : TokenStreamOf (chunkGrammar type) s.frameBytes _ (keyEncode frame) := hgrammar ▸ keyEncode_tokenStream hframe
  have hturns := keyTokens_turns frame.length (s.disp.readBytes 0 s.frameBytes) frame (Nat.le_refl _)
  refine ⟨_, hat.exec_decChunk hw hf he hstream, ?_, hf, rfl, rfl, rfl⟩
  rw [decodedChunk_disp s _ type (hturns.count.trans hframe).le]
  exact hturns.expand_of_length (by simp [hframe])

/-! ### The tokens of the delta encoder (R171 to R179) -/

/-- The tokens DeltaEncode writes (R179). -/
def DeltaToken (i : Instr) : Prop :=
  i.wellFormed = true ∧ ((∃ cnt, i = .dSkip cnt) ∨ (∃ cnt v, i = .dRun cnt v ∧ 4 ≤ cnt) ∨ ∃ data, i = .dLit data)

/-- The previous frame's bytes at the positions. -/
def previousBytes (l : List Pair) : List Byte := l.map Prod.fst

/-- A token covers the first positions of `l`. -/
abbrev DeltaCovers (i : Instr) (l : List Pair) : Prop := Covers DeltaToken i (previousBytes l) (currentBytes l)

theorem take_previousBytes_of_agree {n : Nat} {l : List Pair} (h : ∀ x ∈ l.take n, x.1 = x.2) :
    (previousBytes l).take n = (currentBytes l).take n := by
  rw [previousBytes, currentBytes, ← List.map_take, ← List.map_take]
  exact List.map_congr_left h

theorem deltaSkip_covers {n : Nat} {l : List Pair} (hpos : 1 ≤ n) (hmax : n ≤ 127) (hfits : n ≤ l.length)
    (hagree : ∀ x ∈ l.take n, x.1 = x.2) : DeltaCovers (.dSkip (BitVec.ofNat 7 n)) l := by
  have hcount : (BitVec.ofNat 7 n).toNat = n := Nat.mod_eq_of_lt (Nat.lt_succ_of_le hmax)
  exact
    { kind := ⟨bne_iff_ne.mpr fun hzero => by rw [hzero] at hcount; exact absurd hcount.symm (Nat.ne_of_gt hpos), .inl ⟨_, rfl⟩⟩
      pos := hpos.trans_eq hcount.symm
      fits := hcount.trans_le (hfits.trans_eq (List.length_map _).symm)
      output := by rw [tokenCount, tokenOutput, hcount, take_previousBytes_of_agree hagree] }

theorem deltaRun_covers {n : Nat} {v : Byte} {l : List Pair} (hmin : 4 ≤ n) (hmax : n ≤ 255) (hfits : n ≤ l.length)
    (hrun : (currentBytes l).take n = List.replicate n v) : DeltaCovers (.dRun (BitVec.ofNat 8 n) v) l := by
  have hcount : (BitVec.ofNat 8 n).toNat = n := Nat.mod_eq_of_lt (Nat.lt_succ_of_le hmax)
  have hle : (4 : Byte) ≤ BitVec.ofNat 8 n := by
    rw [BitVec.le_def, hcount]
    exact hmin
  exact
    { kind := ⟨bne_iff_ne.mpr fun hzero => by rw [hzero] at hle; exact absurd hle (by decide), .inr (.inl ⟨_, _, rfl, hle⟩)⟩
      pos := by rw [tokenCount, hcount]; omega
      fits := hcount.trans_le (hfits.trans_eq (List.length_map _).symm)
      output := by rw [tokenCount, tokenOutput, hcount, hrun] }

theorem deltaLiteral_covers {n : Nat} {l : List Pair} (hpos : 1 ≤ n) (hmax : n ≤ 127) (hfits : n ≤ l.length) :
    DeltaCovers (.dLit (currentBytes (l.take n))) l := by
  have hlen : (currentBytes (l.take n)).length = n := by
    rw [currentBytes, List.length_map]
    exact List.length_take_of_le hfits
  have hcount : tokenCount (.dLit (currentBytes (l.take n))) = n := hlen
  exact
    { kind := ⟨by simp [Instr.wellFormed, hlen, hpos, hmax], .inr (.inr ⟨_, rfl⟩)⟩
      pos := hpos.trans_eq hcount.symm
      fits := hcount.trans_le (hfits.trans_eq (List.length_map _).symm)
      output := by
        rw [hcount]
        exact List.map_take }

/-- Step 3 of the main loop covers the positions it scanned, as a skip or as a literal (R174, R175). -/
theorem deltaLiteralToken_covers {n : Nat} {l : List Pair} (hpos : 1 ≤ n) (hmax : n ≤ 127) (hfits : n ≤ l.length) :
    DeltaCovers (deltaLiteralToken n l) l ∧ tokenCount (deltaLiteralToken n l) = n := by
  unfold deltaLiteralToken
  split
  next hskip =>
    obtain ⟨-, hagree⟩ := hskip
    simp only [List.all_eq_true, decide_eq_true_eq] at hagree
    exact ⟨deltaSkip_covers hpos hmax hfits hagree, Nat.mod_eq_of_lt (Nat.lt_succ_of_le hmax)⟩
  next =>
    refine ⟨deltaLiteral_covers hpos hmax hfits, ?_⟩
    simp [tokenCount, currentBytes, hfits]

/-- A turn of the main loop covers the positions it passes (R171). -/
theorem deltaStep_covers (x y : Pair) (t : List Pair) :
    DeltaCovers (deltaStep (x :: y :: t)).1 (x :: y :: t)
      ∧ tokenCount (deltaStep (x :: y :: t)).1 = (deltaStep (x :: y :: t)).2 := by
  obtain ⟨hmax, hfits⟩ := matchLength_le Config.deltaSkipMax (x :: y :: t)
  simp only [deltaStep]
  split
  next hskip =>
    have hpos : 1 ≤ matchLength Config.deltaSkipMax (x :: y :: t) := by
      rcases Bool.or_eq_true_iff.mp hskip with hend | hthree
      · rw [List.isEmpty_iff, List.drop_eq_nil_iff, List.length_cons] at hend
        omega
      · exact (by decide : 1 ≤ Config.deltaSkipMin).trans (of_decide_eq_true hthree)
    exact ⟨deltaSkip_covers hpos hmax hfits (matchLength_take _ _), Nat.mod_eq_of_lt (Nat.lt_succ_of_le hmax)⟩
  next =>
    split
    next hmin =>
      obtain ⟨hrunMax, hrunFits⟩ := runLength_le Config.deltaRunMax x.2 (currentBytes ((x :: y :: t).take Config.deltaRunMax))
      have hrun := runLength_take Config.deltaRunMax x.2 (currentBytes ((x :: y :: t).take Config.deltaRunMax))
      have hcur : currentBytes ((x :: y :: t).take Config.deltaRunMax) = (currentBytes (x :: y :: t)).take Config.deltaRunMax :=
        List.map_take
      rw [hcur] at hmin hrunMax hrunFits hrun ⊢
      rw [List.take_take, Nat.min_eq_left hrunMax] at hrun
      rw [List.length_take] at hrunFits
      exact ⟨deltaRun_covers hmin hrunMax ((hrunFits.trans (Nat.min_le_right _ _)).trans_eq (List.length_map _)) hrun,
        Nat.mod_eq_of_lt (Nat.lt_succ_of_le hrunMax)⟩
    next =>
      obtain ⟨hscanMax, hscanFits⟩ := deltaLiteralScan_le (Config.deltaLitMax - 1) (y :: t)
      exact deltaLiteralToken_covers (Nat.le_add_right _ _) (Nat.add_comm _ _ ▸ Nat.succ_le_succ hscanMax)
        (Nat.add_comm _ _ ▸ Nat.succ_le_succ hscanFits)

/-- The tail of one position (R176). -/
theorem deltaTail_covers (x : Pair) : DeltaCovers (if x.2 = x.1 then .dSkip 1 else .dLit [x.2]) [x]
    ∧ tokenCount (if x.2 = x.1 then .dSkip 1 else .dLit [x.2]) = 1 := by
  split
  next heq =>
    exact ⟨deltaSkip_covers (n := 1) (Nat.le_refl 1) (by decide) (Nat.le_refl 1) (by simp [heq]), rfl⟩
  next => exact ⟨deltaLiteral_covers (n := 1) (l := [x]) (Nat.le_refl 1) (by decide) (Nat.le_refl 1), rfl⟩

/-- Fuel for one token a byte is enough (R178). -/
theorem deltaTokens_turns (fuel : Nat) (l : List Pair) (hfuel : l.length ≤ fuel) :
    Turns DeltaToken (deltaTokens fuel l) (previousBytes l) (currentBytes l) := by
  induction fuel generalizing l with
  | zero =>
    obtain rfl := List.length_eq_zero_iff.mp (Nat.le_zero.mp hfuel)
    exact .nil _
  | succ fuel ih =>
    match l with
    | [] => exact .nil _
    | [x] =>
      obtain ⟨head, hcount⟩ := deltaTail_covers x
      refine .cons head ?_
      rw [hcount]
      exact .nil _
    | x :: y :: t =>
      obtain ⟨head, hcount⟩ := deltaStep_covers x y t
      have hpos := head.pos
      refine .cons head ?_
      rw [hcount] at hpos ⊢
      have hrest := ih ((x :: y :: t).drop (deltaStep (x :: y :: t)).2) (by rw [List.length_drop]; omega)
      rwa [previousBytes, currentBytes, List.map_drop, List.map_drop] at hrest

/-- The delta encoder's tokens turn the previous frame into the current one (R195). -/
theorem deltaTokens_zip_turns {prev cur : List Byte} (h : prev.length = cur.length) :
    Turns DeltaToken (deltaTokens (prev.zip cur).length (prev.zip cur)) prev cur := by
  have hturns := deltaTokens_turns (prev.zip cur).length (prev.zip cur) (Nat.le_refl _)
  rwa [previousBytes, currentBytes, List.map_fst_zip h.le, List.map_snd_zip h.ge] at hturns

theorem deltaEncode_tokenStream {prev cur : List Byte} {n : Nat} (h : prev.length = cur.length) (hn : cur.length = n) :
    TokenStreamOf .delta n (deltaTokens (prev.zip cur).length (prev.zip cur)) (deltaEncode prev cur) := by
  have hturns := deltaTokens_zip_turns h
  refine ⟨fun i hi => ?_, ⟨hturns.count.trans hn, fun _ _ _ ht => hn ▸ hturns.count_before_lt ht⟩, [], (List.append_nil _).symm⟩
  obtain ⟨hwf, ⟨cnt, rfl⟩ | ⟨cnt, v, rfl, -⟩ | ⟨data, rfl⟩⟩ := hturns.kind i hi
  · exact ⟨rfl, hwf, by simp⟩
  · exact ⟨rfl, hwf, by simp⟩
  · exact ⟨rfl, hwf, by simp⟩

/-! ### The chunk ENC_FRAME appends -/

/-- The tokens of the next chunk (R213). -/
def State.frameInstrs (s : State) : List Instr :=
  let prev := s.prev.readBytes 0 s.frameBytes
  let cur := s.cur.readBytes 0 s.frameBytes
  if s.encFirst then keyTokens cur.length cur else deltaTokens (prev.zip cur).length (prev.zip cur)

theorem paletteBit_typeFlag (newPalette first : Bool) : paletteBit (typeFlag newPalette first) = newPalette := by
  cases newPalette <;> cases first <;> rfl

theorem chunkGrammar_typeFlag (newPalette first : Bool) :
    chunkGrammar (typeFlag newPalette first) = if first then .key else .delta := by
  cases newPalette <;> cases first <;> rfl

theorem State.frameTokens_stream (s : State) :
    TokenStreamOf (chunkGrammar (typeFlag s.newPalette s.encFirst)) s.frameBytes s.frameInstrs s.frameTokens := by
  rw [chunkGrammar_typeFlag, State.frameInstrs, State.frameTokens]
  split
  · exact keyEncode_tokenStream (by simp)
  · exact deltaEncode_tokenStream (by simp) (by simp)

theorem State.frameInstrs_count (s : State) : tokensCount s.frameInstrs = s.frameBytes := by
  rw [State.frameInstrs]
  split
  · exact (keyTokens_turns _ [] _ (Nat.le_refl _)).count.trans (by simp)
  · exact (deltaTokens_zip_turns (by simp)).count.trans (by simp)

/-- The tokens of the next chunk make CUR of the previous frame, and of any frame if this is the first (R158, R195). -/
theorem State.frameInstrs_expand {s : State} {old : List Byte} (hlen : old.length = s.frameBytes)
    (hold : s.encFirst = false → old = s.prev.readBytes 0 s.frameBytes) :
    expandTokens s.frameInstrs old = s.cur.readBytes 0 s.frameBytes := by
  rw [State.frameInstrs]
  split
  · exact (keyTokens_turns _ old _ (Nat.le_refl _)).expand_of_length (by simp [hlen])
  next hfirst =>
    rw [hold (by simpa using hfirst)]
    exact (deltaTokens_zip_turns (by simp)).expand_of_length (by simp)

theorem State.framePalette_length (s : State) : s.framePalette.length = if s.newPalette then 32 else 0 := by
  unfold State.framePalette
  split <;> simp

theorem State.frameSize_eq (s : State) : s.frameSize = chunkSize s.framePalette s.frameTokens := by
  rw [State.frameSize, chunkSize, State.framePalette_length]

theorem State.frameChunk_length (s : State) : s.frameChunk.length = chunkSize s.framePalette s.frameTokens := by
  rw [State.frameChunk, List.length_append, List.length_append, State.frameHeader_encode_length, chunkSize]

/-- The bytes ENC_FRAME appends, anywhere in ISTREAM at RP, are a whole chunk (R215, R238). -/
theorem chunkAt_of_frameChunk {s d : State} (hin : d.rp + s.frameChunk.length ≤ d.ilen)
    (hbytes : d.istream.readBytes d.rp s.frameChunk.length = s.frameChunk) :
    d.ChunkAt (typeFlag s.newPalette s.encFirst) s.framePalette s.frameTokens := by
  rw [State.frameChunk_length] at hin hbytes
  refine ⟨by rw [paletteBit_typeFlag, State.framePalette_length], ?_, hin, ?_⟩
  · have htokens := s.frameTokens_length_le
    have hpalette := s.framePalette_length_le
    have hsmall : 2 * s.frameBytes + 36 < 0xFF00 := s.params.frame.small
    rw [chunkSize]
    omega
  · rw [hbytes, State.frameChunk_eq, State.frameSize_eq]

/-- The decoder's palette is then the one the frame came with: the chunk brings it, or it is the last one emitted (R212, R231). -/
theorem chunkPalette_of_frameChunk {s d : State} (h : d.ChunkAt (typeFlag s.newPalette s.encFirst) s.framePalette s.frameTokens)
    (hpal : s.palEncValid = true → d.palDec = s.palEncLast) :
    d.chunkPalette (typeFlag s.newPalette s.encFirst) = palPack s.palIn := by
  cases hnew : s.newPalette with
  | true =>
    have hbit : paletteBit (typeFlag s.newPalette s.encFirst) = true := (paletteBit_typeFlag _ _).trans hnew
    have hlist := h.chunkPalette_toList hbit
    rw [State.framePalette, if_pos hnew, hnew] at hlist
    exact Vector.toList_inj.mp hlist
  | false =>
    rw [State.chunkPalette_none d (paletteBit_typeFlag _ _)]
    simp only [State.newPalette, Bool.or_eq_false_iff, Bool.not_eq_false'] at hnew
    obtain ⟨hvalid, hsame⟩ := hnew
    rw [hpal hvalid, (palEq_iff _ _).mp hsame]

/-- Settles O55: the decoder is at the chunk that the encoder appended, whose tokens make CUR of what the display holds. -/
theorem encodedChunkDecodesToTheFrame : Obligations.EncodedChunkDecodesToTheFrame := by
  intro s t d hw hf he hx hy hr ht hdw hdf hde hframe hin hbytes hdisp hpal
  obtain rfl : s.afterFrame = t := Host.Outcome.next.inj ((exec_encFrame_run hw hf he hx hy hr).symm.trans ht)
  have hwp : s.afterFrame.wp - s.wp = s.frameChunk.length := Nat.add_sub_cancel_left _ _
  rw [hwp] at hin hbytes ⊢
  have hat := chunkAt_of_frameChunk hin (hbytes.trans (s.appendOut_readBytes s.frameChunk))
  have hn : d.frameBytes = s.frameBytes := congrArg FrameSize.bytes hframe
  have hdecode := hat.exec_decChunk hdw hdf hde (hn ▸ s.frameTokens_stream)
  have hpalette := chunkPalette_of_frameChunk hat hpal
  refine ⟨_, hdecode, hdf, ?_, hpalette, congrArg palUnpack hpalette, ?_, rfl, ?_⟩
  · rw [← hn, decodedChunk_disp d _ _ (s.frameInstrs_count.trans hn.symm).le, hn]
    exact State.frameInstrs_expand (by simp) hdisp
  · rw [State.frameChunk_length]
    rfl
  · rw [← hpalette]
    rfl

end Sys2Proof.Machine

/-! The delta grammar: its tokens one by one, a delta chunk, and the encoder with its round trip. -/

namespace Sys2Proof

theorem controlByte_zero_eq (cnt : BitVec 7) : controlByte 0 cnt = cnt.setWidth 8 := by
  apply BitVec.eq_of_toNat_eq
  rw [controlByte_zero_toNat, BitVec.toNat_setWidth_of_le (by decide)]

/-- The count byte of a literal in the delta grammar, from the length alone (R94). -/
theorem controlByte_one_ofNat {n : Nat} (h : n ≤ 127) : controlByte 1 (BitVec.ofNat 7 n) = 0x80 ||| BitVec.ofNat 8 n := by
  rw [controlByte_one_eq, ← controlByte_zero_eq, controlByte_zero_ofNat h]

end Sys2Proof

namespace Sys2Proof.Machine

/-! ### The tokens of the delta grammar one by one (R187, R189, R191) -/

theorem skipToken_noRoom {s : State} {c : TokenRun} {len cnt : Nat} (h : c.tp + len ≤ c.len) (hr : s.frameBytes < c.op + cnt) :
    skipToken s c len cnt = .next (s.faulted .frameOverrun) :=
  (if_neg (Nat.not_lt.mpr h)).trans (if_pos hr)

theorem decode_dLit {data : List Byte} (hpos : 1 ≤ data.length) (hmax : data.length ≤ 127) :
    decode (.token .delta) ((0x80 ||| BitVec.ofNat 8 data.length) :: data) = .ok (.dLit data, []) := by
  have hwf : (Instr.dLit data).wellFormed = true := by simp [Instr.wellFormed, hpos, hmax]
  have h := decode_encode hwf []
  rwa [Instr.encode, controlByte_one_ofNat hmax, List.append_nil] at h

theorem decode_dSkip {cnt : BitVec 7} (h : cnt ≠ 0) : decode (.token .delta) [cnt.setWidth 8] = .ok (.dSkip cnt, []) := by
  rw [← controlByte_zero_eq]
  exact decodeDelta_skip h []

theorem exec_dSkip_atToken {s : State} {c : TokenRun} (h : AtToken s .delta c) (cnt : BitVec 7) :
    exec (.dSkip cnt) s = skipToken s c 1 cnt.toNat :=
  inTokens_atToken h _

/-- Settles O8: the payload test, the room test, then `cnt` copies of the value are stored. -/
theorem dRunReplicatesItsValue : Obligations.DRunReplicatesItsValue := fun _ v =>
  ⟨fun h => decodeDelta_run h v [], storesBytes_of_exec fun _ => rfl⟩

/-- Settles O9: the payload test, the room test, then the literal's bytes are stored. -/
theorem dLitCopiesItsBytes : Obligations.DLitCopiesItsBytes := fun _ =>
  ⟨decode_dLit, storesBytes_of_exec fun _ => rfl⟩

/-- Settles O11: the room test, then the bytes of DISP are passed over. -/
theorem dSkipKeepsTheFrame : Obligations.DSkipKeepsTheFrame := by
  refine ⟨fun _ => decode_dSkip, fun cnt s c hat htp => ?_⟩
  rw [exec_dSkip_atToken hat]
  exact ⟨skipToken_noRoom htp, skipToken_run htp⟩

/-! ### A delta chunk (R186, R226 to R229) -/

theorem chunkHeader_le {size : Nat} {type : Byte} (hmin : 3 ≤ size) (hpal : paletteBit type = true → 35 ≤ size) :
    chunkHeader type ≤ size := by
  unfold chunkHeader
  split
  · next hbit => exact hpal hbit
  · exact hmin

theorem ne_kEnd_of_delta {i : Instr} (h : i.format = .token .delta) : i ≠ .kEnd := by
  rintro rfl
  cases h

/-- Settles O17: `toks` fill the frame, so they are the token stream, which the chunk decodes, whatever follows. -/
theorem chunkDeltaRunsItsTokens : Obligations.ChunkDeltaRunsItsTokens := by
  intro s size type toks tail hw hwf hin hpal htokens hcount hgoing hbytes
  simp only [Instr.wellFormed, Bool.and_eq_true, decide_eq_true_eq] at hwf
  obtain ⟨⟨hmin, -⟩, -⟩ := hwf
  have hstream : TokenStreamOf .delta s.frameBytes toks
      (s.istream.readBytes (s.rp + chunkHeader type) (size.toNat - chunkHeader type)) :=
    { tokens := fun i hi => by
        obtain ⟨hformat, htoken⟩ := htokens i hi
        exact ⟨hformat, htoken, ne_kEnd_of_delta hformat⟩
      fills := ⟨hcount, hgoing⟩
      spelled := ⟨tail, hbytes⟩ }
  have hrun := execChunk_run hin (chunkHeader_le hmin hpal) hw hstream
  exact ⟨_, hrun, decodedChunk_disp s _ type hcount.le, fun a ha => tokensStored_read_outside toks 0 s.disp (.inr (by omega)),
    s.chunkPalette_toList, s.chunkPalette_none, rfl⟩

/-! ### The delta encoder and its round trip (R179, R195) -/

/-- Settles O49: the encoder's tokens turn the previous frame into the current one, token by token. -/
theorem deltaEncodeShape : Obligations.DeltaEncodeShape := by
  intro prev cur hlen
  have hturns := deltaTokens_zip_turns hlen
  exact ⟨_, rfl, hturns.kind, hturns.count, hturns.expand_of_length hlen, deltaEncode_length_le prev cur hlen⟩

/-- The bytes of a chunk at RP are a whole chunk, if its token stream is no longer than an encoder's (R238). -/
theorem chunkAt_of_bytes {s : State} {type : Byte} {pal tokens : List Byte} (hpal : pal.length = if paletteBit type then 32 else 0)
    (htokens : tokens.length ≤ 2 * s.frameBytes + 1) (hin : s.rp + chunkSize pal tokens ≤ s.ilen)
    (hbytes : s.istream.readBytes s.rp (chunkSize pal tokens)
      = le16 (BitVec.ofNat 16 (chunkSize pal tokens)) ++ [type] ++ pal ++ tokens) : s.ChunkAt type pal tokens where
  palette := hpal
  small := by
    have hsmall : 2 * s.frameBytes + 36 < 0xFF00 := s.params.frame.small
    have hpal' : pal.length ≤ 32 := by rw [hpal]; split <;> decide
    rw [chunkSize]
    omega
  inside := hin
  bytes := by simpa using hbytes

/-- Settles O54: DeltaEncode's bytes are a token stream that turns what DISP holds into this frame. -/
theorem deltaRoundTrip : Obligations.DeltaRoundTrip := by
  intro s type pal frame hw hf he htype hframe hpal ⟨hinside, hbytes⟩
  have hlen : (s.disp.readBytes 0 s.frameBytes).length = frame.length := by simp [hframe]
  have htokens := deltaEncode_length_le _ frame hlen
  have hat : s.ChunkAt type pal (deltaEncode (s.disp.readBytes 0 s.frameBytes) frame) :=
    chunkAt_of_bytes hpal (by omega) hinside hbytes
  have hgrammar : chunkGrammar type = .delta := by rw [chunkGrammar, htype]; rfl
  have hturns := deltaTokens_zip_turns hlen
  refine ⟨_, hat.exec_decChunk hw hf he (hgrammar ▸ deltaEncode_tokenStream hlen hframe), ?_, hf, rfl, rfl, rfl⟩
  rw [decodedChunk_disp s _ type (hturns.count.trans hframe).le]
  exact hturns.expand_of_length hlen

/-! ### Identical frames (R180) -/

/-- The frames agree at every position. -/
def Agree (l : List Pair) : Prop := ∀ x ∈ l, x.1 = x.2

theorem Agree.drop {l : List Pair} (h : Agree l) (n : Nat) : Agree (l.drop n) := fun x hx => h x (List.mem_of_mem_drop hx)

theorem agree_zip_self (frame : List Byte) : Agree (frame.zip frame) := by
  intro x hx
  rw [List.zip_eq_zipWith, List.zipWith_self, List.mem_map] at hx
  obtain ⟨b, -, rfl⟩ := hx
  rfl

theorem matchLength_of_agree (cap : Nat) {l : List Pair} (h : Agree l) : matchLength cap l = min cap l.length := by
  induction cap generalizing l with
  | zero => simp [matchLength]
  | succ cap ih =>
    cases l with
    | nil => simp [matchLength]
    | cons x t =>
      obtain ⟨hx, ht⟩ := List.forall_mem_cons.mp h
      rw [matchLength, if_pos hx, ih ht, List.length_cons]
      omega

/-- Where the frames agree to their end, a turn skips 127 positions, or all that are left (R172). -/
theorem deltaStep_of_agree {l : List Pair} (h : Agree l) :
    deltaStep l = (.dSkip (BitVec.ofNat 7 (min 127 l.length)), min 127 l.length) := by
  have hmatch : matchLength Config.deltaSkipMax l = min 127 l.length := matchLength_of_agree _ h
  have hskip : ((l.drop (min 127 l.length)).isEmpty || decide (Config.deltaSkipMin ≤ min 127 l.length)) = true := by
    rw [Bool.or_eq_true, List.isEmpty_iff, List.drop_eq_nil_iff, decide_eq_true_eq, Config.deltaSkipMin]
    omega
  unfold deltaStep
  rw [hmatch]
  exact if_pos hskip

theorem deltaTokens_nil (fuel : Nat) : deltaTokens fuel [] = [] := by cases fuel <;> rfl

/-- The first token of identical frames; the tail of one position is no other (R176). -/
theorem deltaTokens_of_agree (fuel : Nat) {l : List Pair} (h : Agree l) (hpos : 1 ≤ l.length) :
    deltaTokens (fuel + 1) l = .dSkip (BitVec.ofNat 7 (min 127 l.length)) :: deltaTokens fuel (l.drop 127) := by
  match l with
  | [x] =>
    have hx : x.2 = x.1 := (h x (List.mem_singleton_self x)).symm
    simp [deltaTokens, deltaTokens_nil, hx]
  | x :: y :: t =>
    have hdrop : (x :: y :: t).drop (min 127 (x :: y :: t).length) = (x :: y :: t).drop 127 :=
      List.drop_eq_drop_iff.mpr (by omega)
    simp only [deltaTokens, deltaStep_of_agree h, hdrop]

/-- The tokens of fewer than 127 positions at which the frames agree. -/
def skipTail (n : Nat) : List Instr := if n = 0 then [] else [.dSkip (BitVec.ofNat 7 n)]

theorem deltaTokens_skipTail (fuel : Nat) {l : List Pair} (h : Agree l) (hfuel : l.length ≤ fuel) (hr : l.length < 127) :
    deltaTokens fuel l = skipTail l.length := by
  by_cases hpos : 1 ≤ l.length
  · obtain ⟨fuel, rfl⟩ := Nat.exists_eq_add_of_le' (hpos.trans hfuel)
    rw [deltaTokens_of_agree fuel h hpos, List.drop_eq_nil_of_le hr.le, deltaTokens_nil, Nat.min_eq_right hr.le, skipTail,
      if_neg (Nat.ne_of_gt hpos)]
  · obtain rfl : l = [] := List.length_eq_zero_iff.mp (by omega)
    exact deltaTokens_nil fuel

/-- Whole skips of 127, then what is left. -/
theorem deltaTokens_skips (q : Nat) {fuel r : Nat} {l : List Pair} (h : Agree l) (hlen : l.length = 127 * q + r)
    (hfuel : l.length ≤ fuel) (hr : r < 127) : deltaTokens fuel l = List.replicate q (.dSkip 127) ++ skipTail r := by
  induction q generalizing fuel l with
  | zero =>
    obtain rfl : l.length = r := by omega
    exact deltaTokens_skipTail fuel h hfuel hr
  | succ q ih =>
    obtain ⟨fuel, rfl⟩ := Nat.exists_eq_add_of_le' (show 1 ≤ fuel by omega)
    have hdrop : (l.drop 127).length = 127 * q + r := by
      rw [List.length_drop]
      omega
    rw [deltaTokens_of_agree fuel h (by omega), ih (h.drop 127) hdrop (by omega), Nat.min_eq_left (by omega)]
    rfl

theorem encode_dSkip_ofNat {n : Nat} (h : n ≤ 127) : Instr.encode (.dSkip (BitVec.ofNat 7 n)) = [BitVec.ofNat 8 n] := by
  rw [Instr.encode, controlByte_zero_ofNat h]

theorem skipTail_encode {n : Nat} (h : n < 127) :
    (skipTail n).flatMap Instr.encode = if n = 0 then [] else [BitVec.ofNat 8 n] := by
  unfold skipTail
  split
  · rfl
  · rw [List.flatMap_singleton, encode_dSkip_ofNat h.le]

/-- Settles O51: the frame's length is a number of whole skips and a rest. -/
theorem identicalFramesEncodeToSkips : Obligations.IdenticalFramesEncodeToSkips := by
  intro frame
  have hlen : (frame.zip frame).length = frame.length := by simp
  have hrest : frame.length % 127 < 127 := Nat.mod_lt _ (by decide)
  have htokens : deltaTokens (frame.zip frame).length (frame.zip frame)
      = List.replicate (frame.length / 127) (.dSkip 127) ++ skipTail (frame.length % 127) :=
    deltaTokens_skips _ (agree_zip_self frame) (hlen.trans (Nat.div_add_mod _ _).symm) (Nat.le_refl _) hrest
  rw [deltaEncode, htokens, List.flatMap_append, skipTail_encode hrest, List.flatMap_replicate,
    show Instr.encode (.dSkip 127) = [0x7F] from rfl, List.flatten_replicate_singleton]

end Sys2Proof.Machine

namespace Sys2Proof.Machine

/-! ### The records END and CHUNK.SHORT (R224, R225) -/

theorem exec_endStream {s : State} (hw : s.work = .record) (size : Half) :
    exec (.endStream size) s = .next { s with eos := true, rp := s.rp + 2, work := .idle } :=
  atRecord_run s _ hw

/-- Settles O13. -/
theorem endRecordEndsTheStream : Obligations.EndRecordEndsTheStream := fun _ size hw => exec_endStream hw size

theorem exec_chunkShort {s : State} (hw : s.work = .record) (size : Half) :
    exec (.chunkShort size) s
      = if size = 2 ∧ s.params.emptyChunk = .repeatFrame then .next (s.finishRecord 2) else raise .malformedChunk s :=
  atRecord_run s _ hw

/-- Settles O15: the record's one test decides. -/
theorem shortChunkFaultsOrRepeats : Obligations.ShortChunkFaultsOrRepeats := by
  intro s size hw _
  rw [exec_chunkShort hw]
  exact ⟨fun hsize hrepeat => if_pos ⟨hsize, hrepeat⟩, fun hfault => if_neg hfault⟩

/-! ### DEC_CHUNK at the end of the stream (R222, R224) -/

/-- Settles O22. -/
theorem decChunkIdleAfterTheEnd : Obligations.DecChunkIdleAfterTheEnd := by
  intro s hw hend
  cases hf : s.fault with
  | true => exact exec_sticky_run rfl (by simp) hw hf
  | false =>
    have he : s.eos = true := hend.resolve_right (by simp [hf])
    rw [exec_decChunk, command_run s _ hw hf, if_pos he]

/-- Where a size field stands at RP, the record decoder reads it first (R223). -/
theorem State.recordWindow_size {s : State} (h : s.rp + 2 ≤ s.ilen) :
    ∃ rest, s.recordWindow = le16 (unLE16 (s.istream.read s.rp) (s.istream.read (s.rp + 1))) ++ rest := by
  obtain ⟨k, hk⟩ := Nat.exists_eq_add_of_le (show 2 ≤ min (s.ilen - s.rp) 3 by omega)
  refine ⟨s.istream.readBytes (s.rp + 2) k, ?_⟩
  rw [State.recordWindow, hk, Memory.readBytes_add, le16_unLE16]
  exact congrArg (· ++ _) (Memory.readBytes_eq_map _ _ _)

/-- A size field with the second byte FF is a sentinel, whatever the first (R83). -/
theorem sentinelMin_le_unLE16 (lo : Byte) : Config.sentinelMin ≤ unLE16 lo 0xFF := by
  rw [BitVec.le_def, unLE16_toNat]
  exact Nat.le_add_left _ _

theorem recordTurn_sentinel {s : State} (hw : s.work = .record) (hin : s.rp + 2 ≤ s.ilen) (hff : s.istream.read (s.rp + 1) = 0xFF) :
    recordTurn s = .next { s with eos := true, rp := s.rp + 2, work := .idle } := by
  obtain ⟨rest, hwindow⟩ := State.recordWindow_size hin
  have hfetch : s.fetchRecord = .ok (.endStream (unLE16 (s.istream.read s.rp) 0xFF), rest) := by
    rw [State.fetchRecord, hwindow, hff]
    exact decodeRecord_end (sentinelMin_le_unLE16 _) rest
  simp only [recordTurn, hfetch]
  exact exec_endStream hw _

theorem exec_decChunk_sentinel {s : State} (hw : s.work = .idle) (hf : s.fault = false) (he : s.eos = false)
    (hin : s.rp + 2 ≤ s.ilen) (hff : s.istream.read (s.rp + 1) = 0xFF) :
    exec .decChunk s = .next { s with eos := true, rp := s.rp + 2 } := by
  rw [exec_decChunk_run hw hf he, recordTurn_sentinel (s := { s with work := .record }) rfl hin hff, ← hw]

/-- Settles O14: the record at RP is END, and after it the block stands at the end of the stream. -/
theorem decChunkStopsAtTheSentinel : Obligations.DecChunkStopsAtTheSentinel := fun _ hw hf he hin hff =>
  ⟨exec_decChunk_sentinel hw hf he hin hff, decChunkIdleAfterTheEnd _ hw (.inl rfl)⟩

/-! ### ABORT (R232) -/

/-- Taking a fault between commands, as a result (R270). -/
theorem raise_of_idle {s : State} (hw : s.work = .idle) (c : Cause) :
    raise c s = .next { s with fault := true, cause := c.code } := by
  rw [raise_eq, State.faulted_of_idle hw]

theorem exec_abort_eq {s : State} (hw : s.work = .idle) (hf : s.fault = false) (cause : Nibble) :
    exec (.abort cause) s
      = if cause = 4 then raise .sourceReadFailure s
        else if cause = 5 then raise .sinkWriteFailure s
        else raise .illegalCommand s := by
  change execAbort cause s = _
  rw [execAbort, command_run s _ hw hf]

/-- Settles O34: each cause has its own branch. -/
theorem abortRecordsTheCause : Obligations.AbortRecordsTheCause := by
  intro s cause hw
  refine ⟨exec_sticky_run rfl (by simp) hw, fun hf hcause => ?_, fun hf h4 h5 => ?_⟩ <;> rw [exec_abort_eq hw hf]
  · rcases hcause with rfl | rfl
    · exact raise_of_idle hw .sourceReadFailure
    · exact raise_of_idle hw .sinkWriteFailure
  · rw [if_neg h4, if_neg h5]
    exact raise_of_idle hw .illegalCommand

/-! ### The faults of the encode commands (R211, R217, R219) -/

section
variable {s : State} (hw : s.work = .idle) (hf : s.fault = false)
include hw hf

/-- The tests of ENC_FRAME in their order (R211, R217, R269, R302). -/
theorem exec_encFrame_eq :
    exec .encFrame s
      = if s.encEnded then raise .illegalCommand s
        else if s.inW ≠ 320 ∨ s.inH ≠ 200 then raise .geometryMismatch s
        else if s.outRoom (2 * s.frameBytes + 38) then .next s.afterFrame
        else .refused .ostreamCapacity := by
  change execEncFrame s = _
  rw [execEncFrame, command_run s _ hw hf]

/-- The tests of ENC_END in their order (R217, R269, R302). -/
theorem exec_encEnd_eq :
    exec .encEnd s
      = if s.encEnded then raise .illegalCommand s
        else if s.outRoom 2 then .next { s.appendOut [0xFF, 0xFF] with encEnded := true }
        else .refused .ostreamCapacity := by
  change execEncEnd s = _
  rw [execEncEnd, command_run s _ hw hf]
  rfl

theorem exec_encFrame_ended (he : s.encEnded = true) : exec .encFrame s = .next { s with fault := true, cause := 8 } := by
  rw [exec_encFrame_eq hw hf, if_pos he, raise_of_idle hw]
  rfl

theorem exec_encFrame_geometry (he : s.encEnded = false) (hg : s.inW ≠ 320 ∨ s.inH ≠ 200) :
    exec .encFrame s = .next { s with fault := true, cause := 1 } := by
  rw [exec_encFrame_eq hw hf, if_neg (Bool.not_eq_true _ ▸ he), if_pos hg, raise_of_idle hw]
  rfl

theorem exec_encEnd_ended (he : s.encEnded = true) : exec .encEnd s = .next { s with fault := true, cause := 8 } := by
  rw [exec_encEnd_eq hw hf, if_pos he, raise_of_idle hw]
  rfl

/-- With room for it, the sentinel is appended (R219). -/
theorem exec_encEnd_run (he : s.encEnded = false) (hr : s.outRoom 2 = true) :
    exec .encEnd s = .next { s.appendOut [0xFF, 0xFF] with encEnded := true } := by
  rw [exec_encEnd_eq hw hf, if_neg (Bool.not_eq_true _ ▸ he), if_pos hr]

end

/-- Settles O29. -/
theorem encodeCommandsFault : Obligations.EncodeCommandsFault := fun _ hw hf =>
  ⟨fun he => ⟨exec_encFrame_ended hw hf he, exec_encEnd_ended hw hf he⟩, exec_encFrame_geometry hw hf⟩

/-! ### What ENC_END and ENC_FRAME append (R210, R219) -/

/-- Appending leaves every byte below the old and from the new WP on as it was. -/
theorem State.appendOut_read_outside (s : State) (bytes : List Byte) {a : Nat} (h : a < s.wp ∨ s.wp + bytes.length ≤ a) :
    (s.appendOut bytes).ostream.read a = s.ostream.read a :=
  Memory.read_writeBytes_outside _ _ _ _ h

/-- Settles O30. -/
theorem encEndAppendsTheSentinel : Obligations.EncEndAppendsTheSentinel := by
  intro s hw hr
  refine ⟨exec_sticky_run rfl (by simp) hw, exec_encEnd_ended hw, fun hf he => ⟨_, exec_encEnd_run hw hf he hr, ?_, ?_, ?_, rfl⟩⟩
  · exact Memory.read_writeBytes_inside s.ostream s.wp 0 [0xFF, 0xFF] (by decide)
  · exact Memory.read_writeBytes_inside s.ostream s.wp 1 [0xFF, 0xFF] (by decide)
  · exact fun a ha => s.appendOut_read_outside [0xFF, 0xFF] ha

/-- The palette is new if none was emitted or it differs from the last one emitted (R212). -/
theorem State.newPalette_eq (s : State) : s.newPalette = decide (s.palEncValid = false ∨ palPack s.palIn ≠ s.palEncLast) := by
  simp [State.newPalette, palEq]

theorem State.frameChunk_length_eq (s : State) : s.frameChunk.length = s.frameSize := by
  rw [State.frameChunk_length, State.frameSize_eq]

/-- The chunk that ENC_FRAME appends, part by part (R215). -/
theorem State.afterFrame_readBytes (s : State) :
    s.afterFrame.ostream.readBytes s.wp s.frameSize
      = le16 (BitVec.ofNat 16 s.frameSize) ++ [typeFlag s.newPalette s.encFirst] ++ s.framePalette ++ s.frameTokens := by
  have hbytes := s.appendOut_readBytes s.frameChunk
  rw [State.frameChunk_length_eq] at hbytes
  rw [List.append_assoc, List.append_assoc]
  exact hbytes.trans s.frameChunk_eq

theorem State.afterFrame_read_outside (s : State) (a : Nat) (h : a < s.wp ∨ s.wp + s.frameSize ≤ a) :
    s.afterFrame.ostream.read a = s.ostream.read a :=
  s.appendOut_read_outside s.frameChunk (s.frameChunk_length_eq ▸ h)

/-- Settles O27: the three tests in their order, then the chunk is appended. -/
theorem encFrameAppendsOneChunk : Obligations.EncFrameAppendsOneChunk := by
  intro s hw hr
  split
  next hf => exact exec_sticky_run rfl (by simp) hw hf
  next hf =>
    have hf : s.fault = false := by simpa using hf
    split
    next he => exact exec_encFrame_ended hw hf he
    next he =>
      have he : s.encEnded = false := by simpa using he
      split
      next hg => exact exec_encFrame_geometry hw hf he hg
      next hg =>
        obtain ⟨hx, hy⟩ := not_or.mp hg
        refine ⟨_, exec_encFrame_run hw hf he (not_not.mp hx) (not_not.mp hy) hr, ?_⟩
        rw [← State.newPalette_eq]
        refine ⟨congrArg (s.wp + ·) s.frameChunk_length_eq, s.afterFrame_readBytes, s.afterFrame_read_outside, ?_⟩
        rw [State.afterFrame, ← afterFrame_emitted s]
        rfl

/-! ### The bound on the chunk size (R238) -/

/-- A frame has a byte at least, so its token stream has one too. -/
theorem State.frameTokens_length_pos (s : State) : 1 ≤ s.frameTokens.length := by
  have hcount : tokensCount s.frameInstrs ≠ 0 := s.frameInstrs_count ▸ Nat.ne_of_gt s.params.frame.pos
  have hne : s.frameInstrs ≠ [] := fun hnil => hcount (hnil ▸ rfl)
  obtain ⟨tail, hspelled⟩ := s.frameTokens_stream.spelled
  calc 1 ≤ s.frameInstrs.length := List.length_pos_iff.mpr hne
    _ ≤ (s.frameInstrs.flatMap Instr.encode).length := length_le_encode_length _
    _ ≤ s.frameTokens.length := by rw [hspelled, List.length_append]; exact Nat.le_add_right _ _

theorem State.frameSize_bounds (s : State) : 4 ≤ s.frameSize ∧ s.frameSize ≤ 2 * s.frameBytes + 36 := by
  have hpos := s.frameTokens_length_pos
  have htokens := s.frameTokens_length_le
  have hpalette := s.framePalette_length_le
  rw [State.frameSize_eq, chunkSize]
  omega

/-- Settles O50. -/
theorem chunkSizeIsBounded : Obligations.ChunkSizeIsBounded := by
  refine ⟨keyEncode_length_le, deltaEncode_length_le, fun s => ?_, rfl, rfl⟩
  obtain ⟨hmin, hmax⟩ := s.frameSize_bounds
  exact ⟨hmin, hmax, s.params.frame.small⟩

end Sys2Proof.Machine

namespace Sys2Proof.Machine

/-! ### A frame of an encode pass (R220)

Between two frames of a pass the encoder is ready for the next, and a decoder that has decoded all it wrote holds the same frame and
palette. Both facts are kept by a frame, and from them the stream round trip follows by induction on the frames. -/

/-- `s` with a frame and its palette loaded (R294). -/
def State.loadedWith (s : State) (palette : UnpackedPalette) (frame : List Byte) : State :=
  { s with palIn := palette, cur := s.cur.writeBytes 0 frame, inW := 320, inH := 200 }

/-- Between two frames of an encode pass into an unbounded OSTREAM (R220, R302). -/
structure State.Encoding (s : State) : Prop where
  idle : s.work = .idle
  noFault : s.fault = false
  notEnded : s.encEnded = false
  unbounded : s.params.ocap = none

/-- OSTREAM of `t` is that of `s` with bytes appended. -/
structure State.OutPrefix (s t : State) : Prop where
  wp_le : s.wp ≤ t.wp
  read : ∀ a, a < s.wp → t.ostream.read a = s.ostream.read a

theorem State.OutPrefix.trans {s t u : State} (h : s.OutPrefix t) (h' : t.OutPrefix u) : s.OutPrefix u :=
  ⟨h.wp_le.trans h'.wp_le, fun a ha => (h'.read a (ha.trans_le h.wp_le)).trans (h.read a ha)⟩

theorem State.outPrefix_appendOut (s : State) (bytes : List Byte) : s.OutPrefix (s.appendOut bytes) :=
  ⟨Nat.le_add_right _ _, s.appendOut_read_below bytes⟩

theorem State.outPrefix_afterFrame (s : State) (palette : UnpackedPalette) (frame : List Byte) :
    s.OutPrefix (s.loadedWith palette frame).afterFrame := by
  obtain ⟨hwp, hread⟩ := (s.loadedWith palette frame).outPrefix_appendOut (s.loadedWith palette frame).frameChunk
  exact ⟨hwp, hread⟩

namespace State.Encoding

variable {s : State}

theorem outRoom (h : s.Encoding) (n : Nat) : s.outRoom n = true :=
  (State.outRoom_iff s n).mpr fun cap hcap => by rw [h.unbounded] at hcap; cases hcap

theorem resetWith {p : Params} (h : p.ocap = none) : (State.resetWith p []).Encoding := ⟨rfl, rfl, rfl, h⟩

theorem loadedWith (h : s.Encoding) (palette : UnpackedPalette) (frame : List Byte) : (s.loadedWith palette frame).Encoding :=
  ⟨h.idle, h.noFault, h.notEnded, h.unbounded⟩

theorem afterFrame (h : s.Encoding) : s.afterFrame.Encoding := ⟨h.idle, h.noFault, h.notEnded, h.unbounded⟩

end State.Encoding

/-- A frame of a pass is loaded and encoded, and the pass goes on. -/
theorem encodeFrames_cons {s : State} (h : s.Encoding) (palette : UnpackedPalette) {frame : List Byte}
    (hframe : frame.length = s.frameBytes) (rest : List (UnpackedPalette × List Byte)) :
    encodeFrames ((palette, frame) :: rest) s = encodeFrames rest (s.loadedWith palette frame).afterFrame := by
  obtain ⟨hw, hf, he, hcap⟩ := h.loadedWith palette frame
  have hload : s.loadFrame palette frame = .next (s.loadedWith palette frame) := s.loadFrame_run palette frame hframe
  have hencode := exec_encFrame_run hw hf he rfl rfl ((h.loadedWith palette frame).outRoom _)
  simp only [encodeFrames, hload, hencode]

/-- The pass ends with the sentinel. -/
theorem encodeFrames_nil {s : State} (h : s.Encoding) :
    encodeFrames [] s = .next { s.appendOut [0xFF, 0xFF] with encEnded := true } :=
  exec_encEnd_run h.idle h.noFault h.notEnded (h.outRoom 2)

/-- An encode pass completes; it appends to OSTREAM, a byte at least for each frame. -/
theorem encodeFrames_run {s : State} (h : s.Encoding) {frames : List (UnpackedPalette × List Byte)}
    (hframes : ∀ f ∈ frames, f.2.length = s.frameBytes) :
    ∃ t, encodeFrames frames s = .next t ∧ s.OutPrefix t ∧ s.wp + frames.length ≤ t.wp := by
  induction frames generalizing s with
  | nil =>
    obtain ⟨hwp, hread⟩ := s.outPrefix_appendOut [0xFF, 0xFF]
    exact ⟨_, encodeFrames_nil h, ⟨hwp, hread⟩, hwp⟩
  | cons f rest ih =>
    obtain ⟨palette, frame⟩ := f
    obtain ⟨hframe, hrest⟩ := List.forall_mem_cons.mp hframes
    obtain ⟨t, ht, hprefix, hwp⟩ := ih (h.loadedWith palette frame).afterFrame hrest
    rw [encodeFrames_cons h palette hframe]
    refine ⟨t, ht, (s.outPrefix_afterFrame palette frame).trans hprefix, ?_⟩
    obtain ⟨hmin, -⟩ := (s.loadedWith palette frame).frameSize_bounds
    rw [State.afterFrame_wp, State.frameChunk_length_eq] at hwp
    simp only [State.loadedWith, List.length_cons] at hwp hmin ⊢
    omega

/-! ### The decoder in step with the encoder (R231) -/

/-- A frame store that reads as a whole frame is the store of that frame. -/
theorem frameStore_eq_ofBytes {m : Memory} {n : Nat} {frame : List Byte} (h : FrameStore m n) (hr : m.readBytes 0 n = frame) :
    m = Memory.ofBytes frame := by
  subst hr
  refine Memory.ext_of_wf h.1 (Memory.ofBytes_wf _) fun a => ?_
  by_cases ha : a < n
  · simp [Memory.read_ofBytes, List.getD, ha, Memory.getElem_readBytes]
  · rw [Memory.read_of_within m n a h.2 (by omega), Memory.read_ofBytes]
    simp [List.getD, ha, Memory.unlisted]

/-- The decoder `d` has decoded all that the encoder `s` has written, and holds the frame and the palette of which `s` has a copy. -/
structure State.InStep (s d : State) : Prop where
  idle : d.work = .idle
  noFault : d.fault = false
  going : d.eos = false
  frame : d.params.frame = s.params.frame
  rp : d.rp = s.wp
  disp : s.encFirst = false → d.disp.readBytes 0 s.frameBytes = s.prev.readBytes 0 s.frameBytes
  palette : s.palEncValid = true → d.palDec = s.palEncLast
  inv : d.Inv

/-- ISTREAM of `d` holds what `t` has in OSTREAM (R231). -/
structure State.Receives (d t : State) : Prop where
  ilen : d.ilen = t.wp
  read : ∀ a, a < t.wp → d.istream.read a = t.ostream.read a

/-- The hand-out of an encoded frame (R231). -/
def frameOutOf (f : UnpackedPalette × List Byte) : FrameOut := ⟨palUnpack (palPack f.1), Memory.ofBytes f.2⟩

/-- The last palette emitted is the frame's, new or not (R212). -/
theorem State.afterFrame_palEncLast_eq (s : State) : s.afterFrame.palEncLast = palPack s.palIn := by
  rw [State.afterFrame_palEncLast]
  split
  · rfl
  next hnew =>
    simp only [State.newPalette, Bool.or_eq_true, not_or, Bool.not_eq_true', Bool.not_eq_false] at hnew
    obtain ⟨-, hsame⟩ := hnew
    exact ((palEq_iff _ _).mp hsame).symm

/-- The decoder `d` after the chunk that the encoder `s` appends. -/
def State.decodedFrame (d s : State) : State :=
  d.decodedChunk (chunkSize s.framePalette s.frameTokens) (typeFlag s.newPalette s.encFirst) s.frameInstrs

namespace State.InStep

variable {s d t : State} (h : s.InStep d) (hd : d.Receives t) (ht : s.afterFrame.OutPrefix t)
include h

theorem loadedWith (palette : UnpackedPalette) (frame : List Byte) : (s.loadedWith palette frame).InStep d :=
  { h with }

theorem frameBytes_eq : d.frameBytes = s.frameBytes := congrArg FrameSize.bytes h.frame

/-- The tokens of the frame make it of what the display holds. -/
theorem decodedFrame_disp : (d.decodedFrame s).disp.readBytes 0 s.frameBytes = s.cur.readBytes 0 s.frameBytes := by
  have hn := h.frameBytes_eq
  rw [← hn, State.decodedFrame, decodedChunk_disp d _ _ (s.frameInstrs_count.trans hn.symm).le, hn]
  exact State.frameInstrs_expand (by simp) h.disp

include hd ht

/-- What ENC_FRAME has written stands at RP of a decoder that receives it. -/
theorem chunkAt : d.ChunkAt (typeFlag s.newPalette s.encFirst) s.framePalette s.frameTokens := by
  refine chunkAt_of_frameChunk (by rw [h.rp, hd.ilen]; exact ht.wp_le) ?_
  rw [h.rp]
  refine (Memory.readBytes_congr _ _ _ _ fun i hi => ?_).trans (s.appendOut_readBytes s.frameChunk)
  have hlt : s.wp + i < s.afterFrame.wp := Nat.add_lt_add_left hi _
  exact (hd.read _ (hlt.trans_le ht.wp_le)).trans (ht.read _ hlt)

theorem exec_decChunk : exec .decChunk d = .next (d.decodedFrame s) :=
  (h.chunkAt hd ht).exec_decChunk h.idle h.noFault h.going (h.frameBytes_eq ▸ s.frameTokens_stream)

theorem decodedFrame_palDec : (d.decodedFrame s).palDec = palPack s.palIn :=
  chunkPalette_of_frameChunk (h.chunkAt hd ht) h.palette

/-- A frame encoded and decoded keeps encoder and decoder in step. -/
theorem decodedFrame : s.afterFrame.InStep (d.decodedFrame s) where
  idle := rfl
  noFault := h.noFault
  going := h.going
  frame := h.frame
  rp := congrArg₂ (· + ·) h.rp s.frameChunk_length.symm
  disp := fun _ => h.decodedFrame_disp
  palette := fun _ => (h.decodedFrame_palDec hd ht).trans s.afterFrame_palEncLast_eq.symm
  inv := exec_command_inv rfl h.inv (h.exec_decChunk hd ht)

/-- What is handed out is the frame and its palette. -/
theorem decodedFrame_out : (d.decodedFrame s).out = d.out ++ [frameOutOf (s.palIn, s.cur.readBytes 0 s.frameBytes)] := by
  have hstore : FrameStore (d.decodedFrame s).disp s.frameBytes :=
    h.frameBytes_eq ▸ (h.decodedFrame hd ht).inv.disp
  rw [frameOutOf, ← frameStore_eq_ofBytes hstore h.decodedFrame_disp, ← h.decodedFrame_palDec hd ht]
  rfl

end State.InStep

/-! ### The stream round trip (R230, R231) -/

theorem decodeChunks_ended (fuel : Nat) {s : State} (h : s.eos = true) : decodeChunks fuel s = .next s := by
  cases fuel with
  | zero => rfl
  | succ fuel => simp only [decodeChunks, h, Bool.true_or, if_true]

theorem decodeChunks_succ (fuel : Nat) {s t : State} (he : s.eos = false) (hf : s.fault = false) (h : exec .decChunk s = .next t) :
    decodeChunks (fuel + 1) s = decodeChunks fuel t := by
  simp only [decodeChunks, he, hf, h, Bool.or_self, Bool.false_eq_true, if_false]

/-- The pass ends with success at the sentinel that ENC_END has written. -/
theorem State.InStep.decodeChunks_nil {s d t : State} (h : s.InStep d) (hs : s.Encoding) (hd : d.Receives t)
    (ht : encodeFrames [] s = .next t) (fuel : Nat) :
    decodeChunks (fuel + 1) d = .next { d with eos := true, rp := d.rp + 2 } := by
  rw [encodeFrames_nil hs] at ht
  obtain rfl := Host.Outcome.next.inj ht
  obtain ⟨hilen, hread⟩ := hd
  have hin : d.rp + 2 ≤ d.ilen := by rw [h.rp, hilen]; exact Nat.le_refl _
  have hff : d.istream.read (d.rp + 1) = 0xFF := by
    rw [h.rp, hread _ (Nat.lt_succ_self _)]
    exact Memory.read_writeBytes_inside s.ostream s.wp 1 [0xFF, 0xFF] (by decide)
  rw [decodeChunks_succ fuel h.going h.noFault (exec_decChunk_sentinel h.idle h.noFault h.going hin hff)]
  exact decodeChunks_ended fuel rfl

/-- A decoder in step with the encoder, that receives the rest of the stream, hands out the rest of the frames. -/
theorem decodeChunks_encodeFrames {frames : List (UnpackedPalette × List Byte)} {s d t : State} {fuel : Nat} (hs : s.Encoding)
    (h : s.InStep d) (hframes : ∀ f ∈ frames, f.2.length = s.frameBytes) (ht : encodeFrames frames s = .next t) (hd : d.Receives t)
    (hfuel : frames.length < fuel) :
    ∃ u, decodeChunks fuel d = .next u ∧ u.eos = true ∧ u.fault = false ∧ u.framesOut = d.framesOut + frames.length
      ∧ u.out = d.out ++ frames.map frameOutOf := by
  obtain ⟨fuel, rfl⟩ := Nat.exists_eq_add_of_le' (Nat.one_le_of_lt hfuel)
  induction frames generalizing s d fuel with
  | nil => exact ⟨_, h.decodeChunks_nil hs hd ht fuel, rfl, h.noFault, rfl, (List.append_nil _).symm⟩
  | cons f rest ih =>
    obtain ⟨palette, frame⟩ := f
    obtain ⟨hframe, hrest⟩ := List.forall_mem_cons.mp hframes
    obtain ⟨fuel, rfl⟩ := Nat.exists_eq_add_of_le' (show 1 ≤ fuel from Nat.one_le_of_lt (Nat.lt_of_succ_lt_succ hfuel))
    rw [encodeFrames_cons hs palette hframe] at ht
    have hs' := (hs.loadedWith palette frame).afterFrame
    obtain ⟨t', ht', hprefix, -⟩ := encodeFrames_run hs' hrest
    obtain rfl : t' = t := Host.Outcome.next.inj (ht'.symm.trans ht)
    have hl := h.loadedWith palette frame
    obtain ⟨u, hu, heos, hfault, hcount, hout⟩ :=
      ih hs' (hl.decodedFrame hd hprefix) hrest ht ⟨hd.ilen, hd.read⟩ fuel (Nat.lt_of_succ_lt_succ hfuel)
    rw [decodeChunks_succ _ h.going h.noFault (hl.exec_decChunk hd hprefix)]
    refine ⟨u, hu, heos, hfault, hcount.trans (Nat.add_right_comm _ 1 _), ?_⟩
    have hcur : (s.loadedWith palette frame).cur.readBytes 0 s.frameBytes = frame := by
      rw [← hframe]
      exact Memory.readBytes_writeBytes _ _ _
    rw [hout, hl.decodedFrame_out hd hprefix, List.append_assoc, List.map_cons, List.singleton_append]
    exact congrArg (fun f' => d.out ++ frameOutOf (palette, f') :: rest.map frameOutOf) hcur

/-- A decoder at reset, with the stream loaded, is in step with an encoder at reset and receives that stream (R230). -/
theorem loadStream_inStep {p q : Params} {t d : State} (hframe : q.frame = p.frame)
    (hload : (State.resetWith q []).loadStream (t.ostream.readBytes 0 t.wp) = .next d) :
    (State.resetWith p []).InStep d ∧ d.Receives t := by
  obtain ⟨hcap, rfl⟩ := State.loadStream_cases hload
  rw [Memory.length_readBytes] at hcap ⊢
  have hinv := resetWith_inv q []
  refine ⟨⟨rfl, rfl, rfl, hframe, rfl, nofun, nofun, ?_⟩, rfl, fun a ha => ?_⟩
  · exact (hinv.withIstream rfl (Memory.writeBytes_wf _ _ _ hinv.istream)).withIlen rfl hcap
  · have hlen : a < (t.ostream.readBytes 0 t.wp).length := by simpa using ha
    have hread := Memory.read_writeBytes_inside (State.resetWith q []).istream 0 a _ hlen
    rwa [Memory.getElem_readBytes, Nat.zero_add] at hread

/-- Settles O56: the encode pass completes, and a decoder that its stream is loaded into starts in step with it. -/
theorem streamRoundTrip : Obligations.StreamRoundTrip := by
  intro p q frames hocap hframe hframes
  obtain ⟨t, ht, -, hwp⟩ := encodeFrames_run (State.Encoding.resetWith hocap) hframes
  have hencode : encodeStream p frames = some (t.ostream.readBytes 0 t.wp) := by simp only [encodeStream, ht]
  refine ⟨_, hencode, fun hcap => ?_⟩
  have hload := State.loadStream_run (State.resetWith q []) (t.ostream.readBytes 0 t.wp) ((State.inCapacity_iff _ _).mpr hcap)
  obtain ⟨hstep, hreceives⟩ := loadStream_inStep hframe hload
  have hfuel : frames.length < (t.ostream.readBytes 0 t.wp).length + 1 := by
    rw [Memory.length_readBytes]
    exact Nat.lt_succ_of_le ((Nat.le_add_left _ _).trans hwp)
  obtain ⟨u, hu, heos, hfault, hcount, hout⟩ :=
    decodeChunks_encodeFrames (State.Encoding.resetWith hocap) hstep hframes ht hreceives hfuel
  exact ⟨u, (decodeStream_run hload).trans hu, heos, hfault, hcount.trans (Nat.zero_add _), hout⟩

end Sys2Proof.Machine

/-! The exceptions: where DEC_CHUNK and its tokens take a fault, what the fault leaves, and that it is final. -/

namespace Sys2Proof.Machine

/-! ### The token at which a chunk faults (R266, R267, R269) -/

/-- The bytes after a token do not matter to how it is read. -/
theorem decodeToken_append {g : Grammar} {bytes rest : List Byte} {i : Instr} (h : decode (.token g) bytes = .ok (i, rest))
    (more : List Byte) : decode (.token g) (bytes ++ more) = .ok (i, rest ++ more) := by
  obtain ⟨hwf, hformat, hbytes, -⟩ := decodedBytesAreTheirEncoding (.token g) bytes rest i nofun h
  rw [hbytes, List.append_assoc, ← hformat]
  exact decode_encode hwf _

/-- Bytes that spell no whole token have no beginning that spells one. -/
theorem decodeToken_take_missing {g : Grammar} {bytes : List Byte} (h : decode (.token g) bytes = .error .missingByte) (n : Nat) :
    decode (.token g) (bytes.take n) = .error .missingByte := by
  cases hd : decode (.token g) (bytes.take n) with
  | error e => cases e; rfl
  | ok p =>
    have hwhole := decodeToken_append hd (bytes.drop n)
    rw [List.take_append_drop, h] at hwhole
    cases hwhole

/-- The fault at the token that `bytes` begin with, where the frame has room for `room` more bytes: they spell no whole token, or one
whose count exceeds the room. -/
inductive TokenFault (g : Grammar) (bytes : List Byte) (room : Nat) : Cause → Prop where
  | missing (h : decode (.token g) bytes = .error .missingByte) : TokenFault g bytes room .payloadOverrun
  | noRoom {i : Instr} {rest : List Byte} (h : decode (.token g) bytes = .ok (i, rest)) (hr : room < tokenCount i) :
    TokenFault g bytes room .frameOverrun

/-- A token that is whole, with a count that exceeds the room left. -/
theorem execToken_noRoom {s : State} {c : TokenRun} {i : Instr} (hw : s.work = .tokens c) (hc : c.complete s.frameBytes = false)
    (hf : i.format = .token c.grammar) (htp : c.tp + i.byteLength ≤ c.len) (hr : s.frameBytes - c.op < tokenCount i) :
    execToken i s = .next (s.faulted .frameOverrun) := by
  have hrun : ∀ {g : Grammar} (body : TokenRun → Result), Format.token c.grammar = .token g → inTokens g s body = body c :=
    fun body hg => inTokens_run _ s c body hw (Format.token.inj hg) hc
  have hover : s.frameBytes < c.op + tokenCount i := by omega
  cases i with
  | kLit data | dLit data => exact (hrun _ hf.symm).trans (storeToken_noRoom htp hover)
  | kRun cnt v | dRun cnt v =>
    exact (hrun _ hf.symm).trans (storeToken_noRoom htp (hover.trans_eq (by rw [List.length_replicate]; rfl)))
  | dSkip cnt => exact (hrun _ hf.symm).trans (skipToken_noRoom htp hover)
  | _ => exact absurd hr (Nat.not_lt_zero _)

/-- The turn of the loop at a faulting token writes nothing of it. -/
theorem tokenTurn_fault {s : State} {c : TokenRun} {cause : Cause} (hw : s.work = .tokens c) (hc : c.complete s.frameBytes = false)
    (h : TokenFault c.grammar (s.tokenStream c) (s.frameBytes - c.op) cause) : tokenTurn c s = .next (s.faulted cause) := by
  cases h with
  | missing hd =>
    have hfetch : s.fetchToken c = .error .missingByte := by
      rw [State.fetchToken, State.tokenWindow_eq_take]
      exact decodeToken_take_missing hd _
    simp only [tokenTurn, hc, hfetch, Bool.false_eq_true, if_false, raise_eq]
  | noRoom hd hr =>
    obtain ⟨hwf, hformat, hbytes, -⟩ := decodedBytesAreTheirEncoding (.token c.grammar) _ _ _ nofun hd
    obtain ⟨tail, hfetch⟩ := fetchToken_of_stream hbytes hwf hformat
    simp only [tokenTurn, hc, hfetch, Bool.false_eq_true, if_false]
    exact execToken_noRoom hw hc hformat (tp_le_of_stream hbytes) hr

/-- Settles O12: with no byte left the control byte is missing, else the bytes left spell no token. -/
theorem missingTokenBytesFault : Obligations.MissingTokenBytesFault := by
  rintro s c ⟨hw, -, hc⟩
  have missing : decode (.token c.grammar) (s.tokenStream c) = .error .missingByte → step s = .next (s.faulted .payloadOverrun) :=
    fun hd => (step_tokens hw).trans (tokenTurn_fault hw hc (.missing hd))
  refine ⟨fun hend => missing ?_, fun _ => missing⟩
  rw [State.tokenStream, Nat.sub_eq_zero_of_le hend]
  cases c.grammar <;> rfl

/-! ### The record at RP, by its size field (R80, R82, R223) -/

theorem recordTurn_of_missing {s : State} (h : decodeRecord s.recordWindow = .error .missingByte) :
    recordTurn s = raise .truncatedStream s := by
  have hfetch : s.fetchRecord = .error .missingByte := h
  simp only [recordTurn, hfetch]

theorem decodeRecord_of_length_lt {bytes : List Byte} (h : bytes.length < 2) : decodeRecord bytes = .error .missingByte := by
  match bytes with
  | [] | [_] => rfl
  | _ :: _ :: _ => simp at h

/-- No size field lies before ILEN (R263). -/
theorem recordTurn_noSize {s : State} (h : s.ilen < s.rp + 2) : recordTurn s = raise .truncatedStream s :=
  recordTurn_of_missing (decodeRecord_of_length_lt (by rw [State.recordWindow, Memory.length_readBytes]; omega))

/-- The size value at RP. -/
def State.sizeField (s : State) : Half := unLE16 (s.istream.read s.rp) (s.istream.read (s.rp + 1))

/-- The type byte of a chunk at RP. -/
def State.typeByte (s : State) : Byte := s.istream.read (s.rp + 2)

/-- A size below 3 is the record CHUNK.SHORT (R82). -/
theorem recordTurn_short {s : State} (hin : s.rp + 2 ≤ s.ilen) (hsize : s.sizeField < Config.minChunk) :
    recordTurn s = execChunkShort s.sizeField s := by
  obtain ⟨rest, hwindow⟩ := State.recordWindow_size hin
  have hfetch : s.fetchRecord = .ok (.chunkShort s.sizeField, rest) := by
    rw [State.fetchRecord, hwindow]
    exact decodeRecord_short hsize rest
  simp only [recordTurn, hfetch, execRecord_chunkShort]

section
variable {s : State} (hmin : Config.minChunk ≤ s.sizeField) (hmax : s.sizeField < Config.sentinelMin)
include hmin hmax

/-- The size of a chunk stands at RP, and ILEN cuts its type byte off. -/
theorem recordTurn_noType (hin : s.rp + 2 = s.ilen) : recordTurn s = raise .truncatedStream s := by
  have hwindow : s.recordWindow = le16 s.sizeField := by
    rw [State.recordWindow, ← hin, Nat.add_sub_cancel_left, State.sizeField, le16_unLE16]
    exact Memory.readBytes_eq_map _ _ _
  exact recordTurn_of_missing (hwindow ▸ decodeRecord_chunk_nil hmin hmax)

/-- The header of a chunk stands at RP; the rest of the chunk need not lie inside ISTREAM. -/
theorem recordTurn_chunk (hin : s.rp + 3 ≤ s.ilen) :
    recordTurn s = execChunk (chunkGrammar s.typeByte) s.sizeField s.typeByte s := by
  have hwindow : s.recordWindow = le16 s.sizeField ++ [s.typeByte] := by
    rw [State.recordWindow, Nat.min_eq_right (by omega), State.sizeField, le16_unLE16]
    exact Memory.readBytes_eq_map _ _ _
  have hfetch : s.fetchRecord = decodeRecord (le16 s.sizeField ++ [s.typeByte]) := congrArg decodeRecord hwindow
  cases htype : s.typeByte.getLsbD 6 with
  | true =>
    rw [decodeRecord_chunkKey hmin hmax htype] at hfetch
    simp only [recordTurn, hfetch, chunkGrammar, htype, if_true]
    rfl
  | false =>
    rw [decodeRecord_chunkDelta hmin hmax htype] at hfetch
    simp only [recordTurn, hfetch, chunkGrammar, htype, Bool.false_eq_true, if_false]
    rfl

end

/-! ### The faults of a chunk as a whole (R226, R227, R263, R264) -/

theorem execChunk_raise {s : State} {g : Grammar} {size : Half} {type : Byte} {c : Cause} (hw : s.work = .record)
    (h : s.openChunk g size type = .error c) : execChunk g size type s = raise c s := by
  rw [execChunk, atRecord_run s _ hw, h]

theorem openChunk_truncated {s : State} {size : Half} (h : s.ilen < s.rp + size.toNat) (g : Grammar) (type : Byte) :
    s.openChunk g size type = .error .truncatedStream :=
  if_pos h

theorem openChunk_malformed {s : State} {size : Half} {type : Byte} (hin : s.rp + size.toNat ≤ s.ilen) (hbit : paletteBit type = true)
    (h : size.toNat < 35) (g : Grammar) : s.openChunk g size type = .error .malformedChunk :=
  (if_neg (Nat.not_lt.mpr hin)).trans ((if_pos hbit).trans (if_pos h))

/-- A chunk that does not lie whole before ILEN, with its type byte or without (R263). -/
theorem recordTurn_truncated {s : State} (hw : s.work = .record) (hmin : Config.minChunk ≤ s.sizeField)
    (hmax : s.sizeField < Config.sentinelMin) (hin : s.rp + 2 ≤ s.ilen) (h : s.ilen < s.rp + s.sizeField.toNat) :
    recordTurn s = raise .truncatedStream s := by
  rcases Nat.eq_or_lt_of_le hin with hcut | htype
  · exact recordTurn_noType hmin hmax hcut
  · rw [recordTurn_chunk hmin hmax htype]
    exact execChunk_raise hw (openChunk_truncated h _ _)

/-- A size below 3 that is not the repeat (R225, R264). -/
theorem recordTurn_malformedSize {s : State} (hw : s.work = .record) (hin : s.rp + 2 ≤ s.ilen) (hshort : s.sizeField < Config.minChunk)
    (hrepeat : ¬(s.sizeField = 2 ∧ s.params.emptyChunk = .repeatFrame)) : recordTurn s = raise .malformedChunk s := by
  rw [recordTurn_short hin hshort]
  exact (exec_chunkShort hw _).trans (if_neg hrepeat)

/-- A palette announced in a whole chunk that is too short for it (R227, R264). -/
theorem recordTurn_malformedPalette {s : State} (hw : s.work = .record) (hmin : Config.minChunk ≤ s.sizeField) (hsmall : s.sizeField < 35)
    (hwhole : s.rp + s.sizeField.toNat ≤ s.ilen) (hbit : paletteBit s.typeByte = true) : recordTurn s = raise .malformedChunk s := by
  have hthree := BitVec.le_def.mp hmin
  have hmax := BitVec.lt_trans hsmall (by decide : (35 : Half) < Config.sentinelMin)
  rw [recordTurn_chunk hmin hmax ((Nat.add_le_add_left hthree _).trans hwhole)]
  exact execChunk_raise hw (openChunk_malformed hwhole hbit (BitVec.lt_def.mp hsmall) _)

/-- DEC_CHUNK, where the turn of its record takes a fault at once: FAULT and CAUSE change and nothing else. -/
theorem exec_decChunk_raise {s : State} {c : Cause} (hw : s.work = .idle) (hf : s.fault = false) (he : s.eos = false)
    (h : recordTurn { s with work := .record } = raise c { s with work := .record }) :
    exec .decChunk s = .next { s with fault := true, cause := c.code } := by
  rw [exec_decChunk_run hw hf he, h, ← raise_of_idle hw]
  rfl

/-- Settles O18: the size field, the type byte or the chunk's end lies past ILEN. -/
theorem truncatedStreamFaults : Obligations.TruncatedStreamFaults := by
  refine fun s hw hf he => ⟨fun h => ?_, ?_⟩
  · exact exec_decChunk_raise hw hf he (recordTurn_noSize h)
  · rintro hin _ rfl hmin hmax h
    exact exec_decChunk_raise hw hf he (recordTurn_truncated rfl hmin hmax hin h)

/-- Settles O19: the size test of CHUNK.SHORT, or the palette test of a chunk. -/
theorem malformedChunkFaults : Obligations.MalformedChunkFaults := by
  rintro s hw hf he hin _ rfl
  exact ⟨fun hshort hfault => exec_decChunk_raise (c := .malformedChunk) hw hf he (recordTurn_malformedSize rfl hin hshort hfault),
    fun hmin hsmall hwhole hbit =>
      exec_decChunk_raise (c := .malformedChunk) hw hf he (recordTurn_malformedPalette rfl hmin hsmall hwhole hbit)⟩

/-! ### All that a faulting DEC_CHUNK can leave (R260, R271) -/

/-- What a fault of the decoder leaves of `s`: a fault of the chunk as a whole nothing but FAULT and CAUSE, a fault of a token also what
was written to DISP and PAL_DEC before it. -/
inductive DecodeFault (s : State) : State → Prop where
  | chunk {c : Cause} (hc : c = .truncatedStream ∨ c = .malformedChunk) : DecodeFault s (s.faulted c)
  | token {c : Cause} (hc : c = .payloadOverrun ∨ c = .frameOverrun) (m : Memory) (p : PackedPalette) :
    DecodeFault s ({ s with disp := m, palDec := p }.faulted c)

section
variable {s t : State} (hs : s.fault = false) (ht : t.fault = true)
include hs ht

/-- The loop over a chunk's tokens, in a state that differs from `s` in PAL_DEC and the phase. -/
theorem runTokens_decodeFault {fuel : Nat} {p : PackedPalette} {w : Work}
    (h : runTokens fuel { s with palDec := p, work := w } = .next t) : DecodeFault s t := by
  have move : ∀ u c v, (∃ m w, u = { s with palDec := p, disp := m, work := w }) → u.work = .tokens c →
      c.complete u.frameBytes = false → TokenMoves u c v → ∃ m w, v = { s with palDec := p, disp := m, work := w } := by
    rintro _ c _ ⟨m, w, rfl⟩ - - ⟨d, m', rfl, -⟩
    exact ⟨m', .tokens d, rfl⟩
  rcases runTokens_induction move ⟨s.disp, w, rfl⟩ h with ⟨rfl, -⟩ | ⟨_, c, ⟨m, w, rfl⟩, -, rfl | rfl | ⟨-, rfl⟩⟩
  · exact absurd (hs.symm.trans ht) (by decide)
  · exact .token (.inl rfl) m p
  · exact .token (.inr rfl) m p
  · exact absurd (hs.symm.trans ht) (by decide)

theorem execChunk_decodeFault {g : Grammar} {size : Half} {type : Byte} (h : execChunk g size type s = .next t) :
    DecodeFault s t := by
  obtain ⟨-, h⟩ := atRecord_cases h
  rcases openChunk_cases s g size type with ⟨-, ho⟩ | ⟨-, -, -, ho⟩ | ⟨-, -, -, ho⟩ | ⟨-, -, ho⟩ <;> rw [ho] at h
  · cases h; exact .chunk (.inl rfl)
  · cases h; exact .chunk (.inr rfl)
  · exact runTokens_decodeFault hs ht h
  · exact runTokens_decodeFault hs ht (p := s.palDec) h

theorem execRecord_decodeFault {i : Instr} (h : execRecord i s = .next t) : DecodeFault s t := by
  cases i with
  | endStream size =>
    obtain ⟨-, h⟩ := atRecord_cases h
    cases h
    exact absurd (hs.symm.trans ht) (by decide)
  | chunkShort size =>
    obtain ⟨-, h⟩ := atRecord_cases h
    split at h <;> cases h
    · exact absurd (hs.symm.trans ht) (by decide)
    · exact .chunk (.inr rfl)
  | chunkKey size type => exact execChunk_decodeFault hs ht h
  | chunkDelta size type => exact execChunk_decodeFault hs ht h
  | _ => cases h

theorem recordTurn_decodeFault (h : recordTurn s = .next t) : DecodeFault s t := by
  unfold recordTurn at h
  split at h
  · exact execRecord_decodeFault hs ht h
  · cases h; exact .chunk (.inl rfl)

theorem exec_decChunk_decodeFault (h : exec .decChunk s = .next t) : s.work = .idle ∧ DecodeFault { s with work := .record } t := by
  obtain ⟨hw, rfl | h⟩ := execDecChunk_cases h
  · exact absurd (hs.symm.trans ht) (by decide)
  · exact ⟨hw, recordTurn_decodeFault (s := { s with work := .record }) hs ht h⟩

end

/-- Settles O20, by the two kinds of fault. -/
theorem decChunkFaultsArePrecise : Obligations.DecChunkFaultsArePrecise := by
  intro s t hs h ht
  have henc : SameEncoderHalf s t := sameEncoderHalf_of_eq (decChunk_withEncoderOf_start h)
  obtain ⟨hw, hfault⟩ := exec_decChunk_decodeFault hs ht h
  cases hfault with
  | chunk hc =>
    refine ⟨rfl, rfl, rfl, rfl, rfl, rfl, rfl, henc, ?_, fun _ => State.faulted_of_idle (s := s) hw _⟩
    rcases hc with rfl | rfl
    · exact .inl rfl
    · exact .inr (.inl rfl)
  | token hc m p =>
    refine ⟨rfl, rfl, rfl, rfl, rfl, rfl, rfl, henc, ?_⟩
    rcases hc with rfl | rfl
    · exact ⟨.inr (.inr (.inl rfl)), fun hcause => by simp [Cause.code] at hcause⟩
    · exact ⟨.inr (.inr (.inr rfl)), fun hcause => by simp [Cause.code] at hcause⟩

/-! ### A fault is final (R272) -/

/-- Of the 16 command codes, 1 alone is RESET (R110). -/
theorem commandOf_ne_reset {code : Nibble} (h : code ≠ 1) (operand : Nibble) : commandOf code operand ≠ .reset := by
  revert code operand
  decide

/-- `s` with this value of FAULT (R41). -/
def State.withFault (s : State) (b : Bool) : State := { s with fault := b }

theorem State.withFault_self {s : State} {b : Bool} (h : s.fault = b) : s.withFault b = s := by
  rw [State.withFault, ← h]

/-- A host access neither reads nor writes FAULT (R49). -/
theorem hostAccess_withFault (act : HostAction) (s : State) (b : Bool) :
    hostAccess act (s.withFault b) = mapNext (·.withFault b) (hostAccess act s) := by
  have hn : (s.withFault b).frameBytes = s.frameBytes := rfl
  have hcap : ∀ n, (s.withFault b).inCapacity n = s.inCapacity n := fun _ => rfl
  cases act with
  | command _ _ | writeInW _ | writeInH _ | writeStatus _ | writeCauseReg _ => rfl
  | writeCur a v =>
    rw [hostAccess_writeCur, hostAccess_writeCur, hn]
    split <;> rfl
  | loadPixels indices =>
    cases hp : pixPack indices with
    | none => simp only [hostAccess, hp, mapNext_refused]
    | some frame =>
      rw [hostAccess_loadPixels hp, hostAccess_loadPixels hp, hn]
      split <;> rfl
  | writePalIn a v | writePalPk a v =>
    simp only [hostAccess]
    split <;> rfl
  | writeIstream a v =>
    rw [hostAccess_writeIstream, hostAccess_writeIstream, hcap]
    split <;> rfl
  | writeIlen n =>
    rw [hostAccess_writeIlen, hostAccess_writeIlen, hcap]
    split <;> rfl

/-- Settles O36: the dispatch of the commands, the frame of the host's accesses, and the values of RESET. -/
theorem faultsAreSticky : Obligations.FaultsAreSticky := by
  refine fun s hw hf => ⟨fun i hi hr => exec_sticky_run hi hr hw hf, fun code operand rest hcode hh => ?_, fun act t h => ?_,
    s.afterReset, rfl, rfl, rfl, rfl⟩
  · rw [step_command hw hh]
    exact exec_sticky_run (s := { s with host := rest }) (commandOf_format _ _) (commandOf_ne_reset hcode _) hw hf
  · calc hostAccess act s = hostAccess act ((s.withFault false).withFault true) := congrArg _ (State.withFault_self hf).symm
      _ = mapNext (·.withFault true) (hostAccess act (s.withFault false)) := hostAccess_withFault act _ true
      _ = .next (t.withFault true) := congrArg (mapNext _) h

/-! ### What a token-level fault leaves (R266, R267, R269, R271) -/

/-- In the keyframe grammar only K.END finishes the frame, in the delta grammar the room for it. -/
theorem TokenRun.past_incomplete {c : TokenRun} {toks : List Instr} {n : Nat} (he : c.ended = false)
    (hlt : c.grammar = .delta → c.op + tokensCount toks < n) : (c.past toks).complete n = false := by
  cases hg : c.grammar with
  | key => simp only [TokenRun.complete, TokenRun.past, hg, he]
  | delta =>
    have hop := hlt hg
    simp only [TokenRun.complete, TokenRun.past, hg, decide_eq_false_iff_not]
    omega

theorem tokensCount_le_of_append (before after : List Instr) : tokensCount before ≤ tokensCount (before ++ after) := by
  simp [tokensCount]

/-- `bytes` is a token stream of grammar `g` that decodes as `toks`, which leave a frame of `n` bytes unfinished, and goes on with a
token at which `c` is raised. -/
structure TokenStreamFault (g : Grammar) (n : Nat) (toks : List Instr) (c : Cause) (bytes : List Byte) : Prop where
  tokens : ∀ i ∈ toks, i.format = .token g ∧ i.wellFormed = true ∧ i ≠ .kEnd
  room : tokensCount toks ≤ n
  unfinished : g = .delta → tokensCount toks < n
  faults : ∃ tail, bytes = toks.flatMap Instr.encode ++ tail ∧ TokenFault g tail (n - tokensCount toks) c

/-- The state after a fault at the token that follows `toks` in the chunk at RP. -/
def State.faultedChunk (s : State) (type : Byte) (toks : List Instr) (c : Cause) : State :=
  { s with palDec := s.chunkPalette type, disp := tokensStored toks 0 s.disp }.faulted c

theorem State.faultedChunk_of_idle {s : State} (hw : s.work = .idle) (type : Byte) (toks : List Instr) (c : Cause) :
    s.faultedChunk type toks c
      = { s with disp := tokensStored toks 0 s.disp, palDec := s.chunkPalette type, fault := true, cause := c.code } := by
  rw [State.faultedChunk, State.faulted, ← hw]

/-- The loop executes the tokens `toks` and takes the fault at the token after them. -/
theorem runTokens_fault (fuel : Nat) {s : State} {c : TokenRun} {toks : List Instr} {tail : List Byte} {cause : Cause}
    (hw : s.work = .tokens c) (h : s.HasTokens c toks tail) (hc : (c.past toks).complete s.frameBytes = false)
    (hfault : TokenFault c.grammar tail (s.frameBytes - (c.op + tokensCount toks)) cause) :
    runTokens (fuel + 1 + toks.length) s = .next ((s.pastTokens c toks).faulted cause) := by
  have hstream : (s.pastTokens c toks).tokenStream (c.past toks) = tail := tokenStream_past (c' := c.past toks) h.stream rfl rfl rfl
  have hturn : tokenTurn (c.past toks) (s.pastTokens c toks) = .next ((s.pastTokens c toks).faulted cause) :=
    tokenTurn_fault rfl hc (hstream.symm ▸ hfault)
  rw [runTokens_past (fuel + 1) hw h, runTokens_succ fuel _ _ (c.past toks) rfl hturn]
  exact runTokens_idle _ _ (State.faulted_work _ _)

/-- A whole chunk whose token stream faults: the palette and the tokens before the fault are written, and nothing else. -/
theorem execChunk_fault {s : State} {g : Grammar} {size : Half} {type : Byte} {toks : List Instr} {cause : Cause}
    (hw : s.work = .record) (hin : s.rp + size.toNat ≤ s.ilen) (hheader : chunkHeader type ≤ size.toNat)
    (h : TokenStreamFault g s.frameBytes toks cause
      (s.istream.readBytes (s.rp + chunkHeader type) (size.toNat - chunkHeader type))) :
    execChunk g size type s = .next (s.faultedChunk type toks cause) := by
  obtain ⟨htokens, hroom, hlt, tail, hbytes, hfault⟩ := h
  obtain ⟨fuel, hfuel⟩ : ∃ fuel, size.toNat + 1 = fuel + 1 + toks.length := by
    have hlen := congrArg List.length hbytes
    have htoks := length_le_encode_length toks
    rw [Memory.length_readBytes, List.length_append] at hlen
    exact ⟨size.toNat - toks.length, by omega⟩
  have hgoing : ∀ before, tokensCount before ≤ tokensCount toks →
      ((s.chunkRun g size.toNat type).past before).complete s.frameBytes = false := fun before hle =>
    TokenRun.past_incomplete rfl fun hg => (Nat.zero_add _).trans_lt (hle.trans_lt (hlt hg))
  have hhas : (s.openedChunk g size.toNat type).HasTokens (s.chunkRun g size.toNat type) toks tail :=
    { tokens := htokens
      stream := hbytes
      room := (Nat.zero_add _).trans_le hroom
      going := fun before i after ht => hgoing before (ht ▸ tokensCount_le_of_append before (i :: after)) }
  rw [execChunk, atRecord_run s _ hw, openChunk_run hin hheader, hfuel]
  exact runTokens_fault fuel rfl hhas (hgoing toks (Nat.le_refl _)) ((Nat.zero_add (tokensCount toks)).symm ▸ hfault)

/-- DEC_CHUNK at a whole chunk whose token stream faults. -/
theorem exec_decChunk_fault {s : State} {toks : List Instr} {cause : Cause} (hw : s.work = .idle) (hf : s.fault = false)
    (he : s.eos = false) (hmin : Config.minChunk ≤ s.sizeField) (hmax : s.sizeField < Config.sentinelMin)
    (hin : s.rp + s.sizeField.toNat ≤ s.ilen) (hheader : chunkHeader s.typeByte ≤ s.sizeField.toNat)
    (h : TokenStreamFault (chunkGrammar s.typeByte) s.frameBytes toks cause
      (s.istream.readBytes (s.rp + chunkHeader s.typeByte) (s.sizeField.toNat - chunkHeader s.typeByte))) :
    exec .decChunk s = .next (s.faultedChunk s.typeByte toks cause) := by
  have hthree := three_le_chunkHeader s.typeByte
  rw [exec_decChunk_run hw hf he]
  exact (recordTurn_chunk (s := { s with work := .record }) hmin hmax (by simp only; omega)).trans (execChunk_fault rfl hin hheader h)

/-- Settles O59: both kinds of fault are taken at the token after `toks`. -/
theorem tokenFaultsKeepEarlierWrites : Obligations.TokenFaultsKeepEarlierWrites := by
  rintro s _ _ toks tail hw hf he rfl hmin hmax hin rfl hpal g header room Left htokens hroom hlt hbytes
  have left : ∀ cause, TokenFault g tail room cause → Left cause.code := fun cause hfault => by
    have hrun := exec_decChunk_fault hw hf he hmin hmax hin (chunkHeader_le (BitVec.le_def.mp hmin) hpal)
      ⟨htokens, hroom, hlt, tail, hbytes, hfault⟩
    refine ⟨_, hrun, tokensStored_readBytes toks 0 _ _ hroom, fun a ha => tokensStored_read_outside toks 0 s.disp (.inr (by omega)),
      s.chunkPalette_toList, s.chunkPalette_none, ?_⟩
    exact State.faultedChunk_of_idle hw s.typeByte toks cause
  exact ⟨fun hd => left .payloadOverrun (.missing hd), fun i rest hd hr => left .frameOverrun (.noRoom hd hr)⟩

end Sys2Proof.Machine

/-! Reset and the finite capacities: RESET acts in every state and gives the values of R48; what exceeds `OCAP` or `ICAP` is refused. -/

namespace Sys2Proof.Machine

/-! ### RESET (R48, R290, R293) -/

/-- RESET tests neither FAULT nor the command in progress (R290, R293). -/
theorem exec_reset (s : State) : exec .reset s = .next (State.resetWith s.params s.host) := rfl

/-- Settles O26: code 1 on the port is RESET. -/
theorem resetAlwaysCompletes : Obligations.ResetAlwaysCompletes := fun s =>
  ⟨exec_reset s, fun hw _ rest hh => (step_command hw hh).trans (exec_reset { s with host := rest })⟩

/-- The display buffer after reset is `DISP_INIT`, cut off and filled up with 0 to `N` bytes (R8, R48). -/
theorem State.resetWith_disp_read (p : Params) (script : List HostAction) (a : Nat) :
    (State.resetWith p script).disp.read a = if a < p.frame.bytes then p.dispInit.getD a 0 else 0 := by
  change (Memory.ofBytes (p.dispInit.take p.frame.bytes)).read a = _
  rw [Memory.read_ofBytes, List.getD_eq_getElem?_getD, List.getElem?_take, List.getD_eq_getElem?_getD]
  split <;> rfl

theorem getElem_zeroColours (k : Fin 16) : zeroColours[k] = ⟨0, 0, 0, 0⟩ := Vector.getElem_replicate k.isLt

theorem getElem_zeroPacked (k : Fin 32) : zeroPacked[k] = 0 := Vector.getElem_replicate k.isLt

/-- What the host reads in STATUS and CAUSE_REG does not depend on the open parameters: it is what it reads after the default
reset (R42). -/
theorem State.resetWith_flags (p : Params) (script : List HostAction) :
    (State.resetWith p script).status = 0x04 ∧ (State.resetWith p script).causeReg = 0x00 := by
  obtain ⟨-, hstatus, hcause⟩ := statusShowsTheFlags
  have hsameStatus : (State.resetWith p script).status = State.reset.status := rfl
  have hsameCause : (State.resetWith p script).causeReg = State.reset.causeReg := rfl
  exact ⟨hsameStatus.trans hstatus, hsameCause.trans hcause⟩

/-- Settles O25: RESET and power-on leave one and the same state, whose fields are read off; the palettes and DISP are proved
entry by entry. -/
theorem resetRestoresTheTable : Obligations.ResetRestoresTheTable := by
  intro s t h
  obtain rfl : t = State.resetWith s.params s.host := by
    rcases h with hreset | hpower
    · exact (Host.Outcome.next.inj ((exec_reset s).symm.trans hreset)).symm
    · exact hpower
  have hframes : ∀ a, Memory.read [] a = 0 := Memory.read_nil
  exact ⟨hframes, hframes, fun k => ⟨getElem_zeroColours k, getElem_zeroColours k⟩,
    fun k => ⟨getElem_zeroPacked k, getElem_zeroPacked k⟩, rfl, rfl, rfl, rfl, rfl, rfl, rfl, rfl, rfl,
    State.resetWith_disp_read s.params s.host, rfl, rfl, rfl, rfl, rfl, rfl, rfl,
    State.resetWith_flags s.params s.host⟩

/-! ### The finite capacities (R302, U6) -/

section
variable {s : State} {cap : Nat}

theorem State.outRoom_of_ocap (h : s.params.ocap = some cap) (n : Nat) : s.outRoom n = decide (s.wp + n ≤ cap) := by
  simp only [State.outRoom, h]

theorem State.inCapacity_of_icap (h : s.params.icap = some cap) (n : Nat) : s.inCapacity n = decide (n ≤ cap) := by
  simp only [State.inCapacity, h]

/-- A finite OSTREAM has no room for what would end past its capacity. -/
theorem State.not_outRoom {n : Nat} (h : s.params.ocap = some cap) (hn : cap < s.wp + n) : ¬ s.outRoom n = true := by
  rw [State.outRoom_of_ocap h, decide_eq_true_eq]
  exact Nat.not_le_of_lt hn

/-- ENC_FRAME without room for the longest chunk and the sentinel is refused, once none of its tests has raised a fault. -/
theorem exec_encFrame_refused (hw : s.work = .idle) (hf : s.fault = false) (he : s.encEnded = false) (hx : s.inW = 320)
    (hy : s.inH = 200) (hr : ¬ s.outRoom (2 * s.frameBytes + 38) = true) : exec .encFrame s = .refused .ostreamCapacity := by
  have hgeometry : ¬ (s.inW ≠ 320 ∨ s.inH ≠ 200) := not_or.mpr ⟨not_not.mpr hx, not_not.mpr hy⟩
  rw [exec_encFrame_eq hw hf, if_neg (Bool.not_eq_true _ ▸ he), if_neg hgeometry, if_neg hr]

/-- ENC_END without room for the sentinel is refused, once it has not raised a fault. -/
theorem exec_encEnd_refused (hw : s.work = .idle) (hf : s.fault = false) (he : s.encEnded = false) (hr : ¬ s.outRoom 2 = true) :
    exec .encEnd s = .refused .ostreamCapacity := by
  rw [exec_encEnd_eq hw hf, if_neg (Bool.not_eq_true _ ▸ he), if_neg hr]

/-- The byte at offset `a` is inside the capacity exactly when `a` is below it. -/
theorem hostAccess_writeIstream_of_icap (h : s.params.icap = some cap) (a : Nat) (b : Byte) :
    hostAccess (.writeIstream a b) s
      = if a < cap then .next { s with istream := s.istream.write a b } else .refused .istreamCapacity := by
  rw [hostAccess_writeIstream, State.inCapacity_of_icap h]
  simp only [decide_eq_true_eq, Nat.succ_le_iff]

theorem hostAccess_writeIlen_of_icap (h : s.params.icap = some cap) (n : Nat) :
    hostAccess (.writeIlen n) s = if n ≤ cap then .next { s with ilen := n } else .refused .istreamCapacity := by
  rw [hostAccess_writeIlen, State.inCapacity_of_icap h]
  simp only [decide_eq_true_eq]

/-- A stream longer than a finite ISTREAM is not loaded. -/
theorem State.loadStream_refused {bytes : List Byte} (h : s.params.icap = some cap) (hlen : cap < bytes.length) :
    s.loadStream bytes = .refused .istreamCapacity := by
  rw [State.loadStream, State.inCapacity_of_icap h, decide_eq_false (Nat.not_le_of_lt hlen)]
  rfl

end

/-- A stream that is not loaded is not decoded. -/
theorem decodeStream_refused {p : Params} {bytes : List Byte} {r : Refusal}
    (h : (State.resetWith p []).loadStream bytes = .refused r) : decodeStream p bytes = .refused r := by
  simp only [decodeStream, h]

/-- Settles O60: the encode commands, the two host writes, and the load of a stream. -/
theorem finiteCapacitiesAreRefused : Obligations.FiniteCapacitiesAreRefused := by
  refine ⟨fun s cap hw hf he hcap => ⟨fun hx hy hfull => ?_, fun hfull => ?_⟩, fun s cap hcap => ?_, fun q bytes cap hcap hlen => ?_⟩
  · exact exec_encFrame_refused hw hf he hx hy (State.not_outRoom hcap hfull)
  · exact exec_encEnd_refused hw hf he (State.not_outRoom hcap hfull)
  · exact ⟨hostAccess_writeIstream_of_icap hcap, hostAccess_writeIlen_of_icap hcap⟩
  · exact decodeStream_refused (State.loadStream_refused (s := State.resetWith q []) hcap hlen)

end Sys2Proof.Machine
